-- ==== Sys2Proof/Word.lean ====
section
/-! DEFINITION. The 32-bit word of lanes, scalars and memory, and its plainest arithmetic (`00_scope.md` R12). -/

namespace Sys2Proof

/-- One lane, scalar, VLR value or memory word: 32 bits, read as a signed integer by `BitVec.toInt` (R12, R20, R22).
A value outside the 32-bit range cannot be written down, which is R12's invariant (log 3). -/
abbrev Word := BitVec 32

/-- `INT_MIN` of R12. -/
def intMin : Int := -2147483648

/-- `INT_MAX` of R12. -/
def intMax : Int := 2147483647

/-- `inRange32(v)` of R12. -/
def inRange32 (v : Int) : Bool := decide (intMin ≤ v ∧ v ≤ intMax)

/-- `clamp(v, lo, hi)` of R12. -/
def clamp (v lo hi : Int) : Int := min (max v lo) hi

end Sys2Proof
end

