-- ==== Sys2Proof/Config.lean ====
section
/-! DEFINITION. The implementation parameters of `00_scope.md` R7: the fixed ones as constants, the open ones as fields. -/

namespace Sys2Proof

/-- `N_SREG` (R7). -/
def nSreg : Nat := 8
/-- `N_VREG` (R7). -/
def nVreg : Nat := 8
/-- `MVL`, lanes per vector register (R7). -/
def mvl : Nat := 64
/-- `IMEM_SIZE`, instruction-memory entries (R7, R60). -/
def imemSize : Nat := 65536

/-- `P_DIV_ROUND` (R7, D8). -/
inductive DivRound where
  | towardZero
  | floor
  deriving DecidableEq, Repr

/-- `LAT(m)` of R7, one number per mnemonic of R82 (D16). -/
structure Latencies where
  addvv : Nat
  subvv : Nat
  mulvv : Nat
  divvv : Nat
  unpacklo : Nat
  unpackhi : Nat
  packlo : Nat
  packhi : Nat
  addvs : Nat
  subvs : Nat
  mulvs : Nat
  divvs : Nat
  pop : Nat
  mtcl : Nat
  mfcl : Nat
  b : Nat
  lv : Nat
  sv : Nat
  lvws : Nat
  svws : Nat
  deriving DecidableEq, Repr

/-- The open parameters of R7. The core samples them when reset is released and keeps them for the whole run (R8). -/
structure Config where
  computeQueueDepth : Nat
  dataQueueDepth : Nat
  scalarQueueDepth : Nat
  lat : Latencies
  divRound : DivRound
  vdmSize : Nat
  sdmSize : Nat
  maxCycles : Option Nat
  vdataExt : Bool
  deriving DecidableEq, Repr

/-- The reference configuration RC of `95_test_vectors.md`, with `SDM_SIZE` 1024, which RC does not give.
DESIGN CHOICE (log 1), unsafe: it is only what `State.reset` holds, and no rule makes it the hardware's (R321). -/
def Config.reference : Config where
  computeQueueDepth := 2
  dataQueueDepth := 2
  scalarQueueDepth := 2
  lat :=
    { addvv := 2, subvv := 2, mulvv := 3, divvv := 5, unpacklo := 2, unpackhi := 2, packlo := 2, packhi := 2,
      addvs := 2, subvs := 2, mulvs := 3, divvs := 5, pop := 1, mtcl := 1, mfcl := 1, b := 1,
      lv := 3, sv := 3, lvws := 3, svws := 3 }
  divRound := .towardZero
  vdmSize := 1024
  sdmSize := 1024
  maxCycles := none
  vdataExt := false

end Sys2Proof
end

