-- ==== Sys2Proof/Syntax.lean ====
section
/-! DEFINITION. Tokens, lines, mnemonics and the instruction type: one constructor per row of the opcode map
(`30_encoding.md` R82), operands already read as register numbers and an offset. -/

namespace Sys2Proof

/-- A token: its characters in order (R60). -/
abbrev Token := List Char

/-- One instruction line: an ordered sequence of tokens (R6, R60). -/
abbrev Line := List Token

/-- A scalar register number, `SR0` to `SR7` (R20). -/
abbrev SReg := Fin 8

/-- A vector register number, `VR0` to `VR7` (R22). -/
abbrev VReg := Fin 8

/-- The three queue classes (R16, R36). -/
inductive QueueClass where
  | vectorCompute
  | vectorData
  | scalarOps
  deriving DecidableEq, Repr

/-- The enumeration `name` of an Instruction Record, in the order of the `id` column of R82. -/
inductive Mnemonic where
  | addvv | subvv | mulvv | divvv | unpacklo | unpackhi | packlo | packhi
  | addvs | subvs | mulvs | divvs
  | pop | mtcl | mfcl | b
  | lv | sv | lvws | svws
  deriving DecidableEq, Repr

/-- The six operand formats of R82. -/
inductive Format where
  | vvv | vvs | s | br | vs | vss
  deriving DecidableEq, Repr

/-- An instruction with its operands in token order, in the roles of R88. -/
inductive Instr where
  | addvv (d s1 s2 : VReg)
  | subvv (d s1 s2 : VReg)
  | mulvv (d s1 s2 : VReg)
  | divvv (d s1 s2 : VReg)
  | unpacklo (d s1 s2 : VReg)
  | unpackhi (d s1 s2 : VReg)
  | packlo (d s1 s2 : VReg)
  | packhi (d s1 s2 : VReg)
  | addvs (d s : VReg) (t : SReg)
  | subvs (d s : VReg) (t : SReg)
  | mulvs (d s : VReg) (t : SReg)
  | divvs (d s : VReg) (t : SReg)
  | pop (d : SReg)
  | mtcl (s : SReg)
  | mfcl (d : SReg)
  | b (off : Int)
  | lv (d : VReg) (base : SReg)
  | sv (s : VReg) (base : SReg)
  | lvws (d : VReg) (base stride : SReg)
  | svws (s : VReg) (base stride : SReg)
  deriving DecidableEq, Repr

/-- A register name, a pair of file and index (R15): the 18 names of the scoreboard (R38). -/
inductive RegName where
  | scalar (i : SReg)
  | vector (i : VReg)
  | mask
  | length
  deriving DecidableEq, Repr

/-- The sub-kind `detail` of an error record (R39). -/
inductive Detail where
  | unknownMnemonic
  | malformedOperand
  | divideByZero
  | overflow
  | dataAddress
  | branchTarget
  deriving DecidableEq, Repr

end Sys2Proof
end

