-- ==== Sys2Proof/WellFormed.lean ====
section
/-! DEFINITION. Which instructions a line can spell: the offset range of R86 and the extension switch of R81.
Register numbers are below 8 by their type (R85). -/

namespace Sys2Proof

/-- The mnemonics that exist only with `P_VDATA_EXT` (R2, R81). -/
def Instr.isExtension (i : Instr) : Bool :=
  match i with
  | .lv _ _ | .sv _ _ | .lvws _ _ _ | .svws _ _ _ => true
  | .addvv _ _ _ | .subvv _ _ _ | .mulvv _ _ _ | .divvv _ _ _ => false
  | .unpacklo _ _ _ | .unpackhi _ _ _ | .packlo _ _ _ | .packhi _ _ _ => false
  | .addvs _ _ _ | .subvs _ _ _ | .mulvs _ _ _ | .divvs _ _ _ => false
  | .pop _ | .mtcl _ | .mfcl _ | .b _ => false

/-- A branch offset is a signed 32-bit integer (R86); every other operand is in range by its type (R85). -/
def Instr.wf (i : Instr) : Bool :=
  match i with
  | .b off => inRange32 off
  | .addvv _ _ _ | .subvv _ _ _ | .mulvv _ _ _ | .divvv _ _ _ => true
  | .unpacklo _ _ _ | .unpackhi _ _ _ | .packlo _ _ _ | .packhi _ _ _ => true
  | .addvs _ _ _ | .subvs _ _ _ | .mulvs _ _ _ | .divvs _ _ _ => true
  | .pop _ | .mtcl _ | .mfcl _ => true
  | .lv _ _ | .sv _ _ | .lvws _ _ _ | .svws _ _ _ => true

/-- Enabled with the extension switch `ext` (R81): the 16 base instructions always, the four others only when it is on. -/
def Instr.enabled (ext : Bool) (i : Instr) : Bool := ext || !i.isExtension

/-- What a decoder with the extension switch `ext` may answer. -/
def Instr.wellFormed (ext : Bool) (i : Instr) : Bool := i.wf && i.enabled ext

end Sys2Proof
end

