-- ==== Sys2Proof/Decode.lean ====
section
/-! DEFINITION. The decoder of `30_encoding.md`, total on every token sequence and rejecting by `detail`; after it the
encoder, and the table's bit numbering of a line. -/

namespace Sys2Proof

/-! ## The opcode map (R82) -/

/-- The spelling `toks[0]` must equal exactly (R81, R82). -/
def Mnemonic.token : Mnemonic → Token
  | .addvv => ['A', 'D', 'D', 'V', 'V']
  | .subvv => ['S', 'U', 'B', 'V', 'V']
  | .mulvv => ['M', 'U', 'L', 'V', 'V']
  | .divvv => ['D', 'I', 'V', 'V', 'V']
  | .unpacklo => ['U', 'N', 'P', 'A', 'C', 'K', 'L', 'O']
  | .unpackhi => ['U', 'N', 'P', 'A', 'C', 'K', 'H', 'I']
  | .packlo => ['P', 'A', 'C', 'K', 'L', 'O']
  | .packhi => ['P', 'A', 'C', 'K', 'H', 'I']
  | .addvs => ['A', 'D', 'D', 'V', 'S']
  | .subvs => ['S', 'U', 'B', 'V', 'S']
  | .mulvs => ['M', 'U', 'L', 'V', 'S']
  | .divvs => ['D', 'I', 'V', 'V', 'S']
  | .pop => ['P', 'O', 'P']
  | .mtcl => ['M', 'T', 'C', 'L']
  | .mfcl => ['M', 'F', 'C', 'L']
  | .b => ['B']
  | .lv => ['L', 'V']
  | .sv => ['S', 'V']
  | .lvws => ['L', 'V', 'W', 'S']
  | .svws => ['S', 'V', 'W', 'S']

/-- The format column of R82. -/
def Mnemonic.format : Mnemonic → Format
  | .addvv | .subvv | .mulvv | .divvv | .unpacklo | .unpackhi | .packlo | .packhi => .vvv
  | .addvs | .subvs | .mulvs | .divvs => .vvs
  | .pop | .mtcl | .mfcl => .s
  | .b => .br
  | .lv | .sv => .vs
  | .lvws | .svws => .vss

/-- The token count of a format (R82, R83), the mnemonic included. -/
def Format.tokenCount : Format → Nat
  | .vvv | .vvs | .vss => 4
  | .vs => 3
  | .s | .br => 2

/-- The queue-class column of R82 (R90). -/
def Mnemonic.queueClass : Mnemonic → QueueClass
  | .addvv | .subvv | .mulvv | .divvv | .unpacklo | .unpackhi | .packlo | .packhi => .vectorCompute
  | .addvs | .subvs | .mulvs | .divvs => .vectorCompute
  | .pop | .mtcl | .mfcl | .b => .scalarOps
  | .lv | .sv | .lvws | .svws => .vectorData

/-- The mnemonics enabled only by `P_VDATA_EXT` (R81). -/
def Mnemonic.isExtension : Mnemonic → Bool
  | .lv | .sv | .lvws | .svws => true
  | .addvv | .subvv | .mulvv | .divvv | .unpacklo | .unpackhi | .packlo | .packhi => false
  | .addvs | .subvs | .mulvs | .divvs | .pop | .mtcl | .mfcl | .b => false

/-- The 20 rows of R82 in the order of their `id`. -/
def Mnemonic.all : List Mnemonic :=
  [.addvv, .subvv, .mulvv, .divvv, .unpacklo, .unpackhi, .packlo, .packhi, .addvs, .subvs, .mulvs, .divvs,
   .pop, .mtcl, .mfcl, .b, .lv, .sv, .lvws, .svws]

/-- The row whose spelling is `t`, character for character (R81). -/
def Mnemonic.ofToken (t : Token) : Option Mnemonic := Mnemonic.all.find? fun m => decide (m.token = t)

/-! ## Operand tokens (R84 to R86) -/

/-- The value of an ASCII decimal digit, `none` for every other character (R84). -/
def digitValue (c : Char) : Option Nat :=
  if 48 ≤ c.toNat ∧ c.toNat ≤ 57 then some (c.toNat - 48) else none

/-- Reads decimal digits onto `acc`; `none` at the first character that is no digit. -/
def parseDigits : Nat → List Char → Option Nat
  | acc, [] => some acc
  | acc, c :: cs =>
    match digitValue c with
    | some d => parseDigits (10 * acc + d) cs
    | none => none

/-- One or more ASCII decimal digits and nothing else, read as a natural number; leading zeros are allowed (R84). -/
def parseNat (cs : List Char) : Option Nat :=
  match cs with
  | [] => none
  | c :: rest => parseDigits 0 (c :: rest)

/-- A register token: the two characters `V R` or `S R`, then the index, which is below 8 (R84, R85). -/
def parseRegister (p1 p2 : Char) (t : Token) : Option (Fin 8) :=
  match t with
  | a :: b :: rest =>
    if a = p1 ∧ b = p2 then
      match parseNat rest with
      | some n => if h : n < 8 then some ⟨n, h⟩ else none
      | none => none
    else none
  | _ => none

/-- A token in a vector-operand position (R84). -/
def parseVector (t : Token) : Option VReg := parseRegister 'V' 'R' t

/-- A token in a scalar-operand position (R84). -/
def parseScalar (t : Token) : Option SReg := parseRegister 'S' 'R' t

/-- An optional sign and one or more decimal digits, as an integer of any size (R86). -/
def parseSigned (t : Token) : Option Int :=
  match t with
  | [] => none
  | c :: cs =>
    if c = '-' then (parseNat cs).map fun n => -(n : Int)
    else if c = '+' then (parseNat cs).map fun n => (n : Int)
    else (parseNat (c :: cs)).map fun n => (n : Int)

/-- A branch-offset token: a signed decimal integer in the 32-bit range (R86). -/
def parseOffset (t : Token) : Option Int :=
  match parseSigned t with
  | some v => if inRange32 v then some v else none
  | none => none

/-! ## The decoder (R80 to R87) -/

/-- What the decoder answers for a line: an instruction, or `DecodeError` with its one `detail` (R80, R87). -/
inductive DecodeResult where
  | ok (i : Instr)
  | error (d : Detail)
  deriving DecidableEq, Repr

/-- Format VVV, operands left to right (R82, R87). -/
def decodeVVV (mk : VReg → VReg → VReg → Instr) (ops : List Token) : DecodeResult :=
  match ops with
  | [t1, t2, t3] =>
    match parseVector t1 with
    | none => .error .malformedOperand
    | some d =>
      match parseVector t2 with
      | none => .error .malformedOperand
      | some s1 =>
        match parseVector t3 with
        | none => .error .malformedOperand
        | some s2 => .ok (mk d s1 s2)
  | _ => .error .malformedOperand

/-- Format VVS (R82, R87). -/
def decodeVVS (mk : VReg → VReg → SReg → Instr) (ops : List Token) : DecodeResult :=
  match ops with
  | [t1, t2, t3] =>
    match parseVector t1 with
    | none => .error .malformedOperand
    | some d =>
      match parseVector t2 with
      | none => .error .malformedOperand
      | some s =>
        match parseScalar t3 with
        | none => .error .malformedOperand
        | some t => .ok (mk d s t)
  | _ => .error .malformedOperand

/-- Format S (R82, R87). -/
def decodeS (mk : SReg → Instr) (ops : List Token) : DecodeResult :=
  match ops with
  | [t1] =>
    match parseScalar t1 with
    | none => .error .malformedOperand
    | some r => .ok (mk r)
  | _ => .error .malformedOperand

/-- Format BR (R82, R86, R87). -/
def decodeBR (mk : Int → Instr) (ops : List Token) : DecodeResult :=
  match ops with
  | [t1] =>
    match parseOffset t1 with
    | none => .error .malformedOperand
    | some off => .ok (mk off)
  | _ => .error .malformedOperand

/-- Format VS (R82, R87). -/
def decodeVS (mk : VReg → SReg → Instr) (ops : List Token) : DecodeResult :=
  match ops with
  | [t1, t2] =>
    match parseVector t1 with
    | none => .error .malformedOperand
    | some v =>
      match parseScalar t2 with
      | none => .error .malformedOperand
      | some b => .ok (mk v b)
  | _ => .error .malformedOperand

/-- Format VSS (R82, R87). -/
def decodeVSS (mk : VReg → SReg → SReg → Instr) (ops : List Token) : DecodeResult :=
  match ops with
  | [t1, t2, t3] =>
    match parseVector t1 with
    | none => .error .malformedOperand
    | some v =>
      match parseScalar t2 with
      | none => .error .malformedOperand
      | some b =>
        match parseScalar t3 with
        | none => .error .malformedOperand
        | some r => .ok (mk v b r)
  | _ => .error .malformedOperand

/-- The operand tokens of a mnemonic, by its format (R82). -/
def decodeOperands (m : Mnemonic) (ops : List Token) : DecodeResult :=
  match m with
  | .addvv => decodeVVV .addvv ops
  | .subvv => decodeVVV .subvv ops
  | .mulvv => decodeVVV .mulvv ops
  | .divvv => decodeVVV .divvv ops
  | .unpacklo => decodeVVV .unpacklo ops
  | .unpackhi => decodeVVV .unpackhi ops
  | .packlo => decodeVVV .packlo ops
  | .packhi => decodeVVV .packhi ops
  | .addvs => decodeVVS .addvs ops
  | .subvs => decodeVVS .subvs ops
  | .mulvs => decodeVVS .mulvs ops
  | .divvs => decodeVVS .divvs ops
  | .pop => decodeS .pop ops
  | .mtcl => decodeS .mtcl ops
  | .mfcl => decodeS .mfcl ops
  | .b => decodeBR .b ops
  | .lv => decodeVS .lv ops
  | .sv => decodeVS .sv ops
  | .lvws => decodeVSS .lvws ops
  | .svws => decodeVSS .svws ops

/-- The decoder on a line, with the extension switch: mnemonic, then token count, then operands (R81, R83, R87). -/
def decodeLine (ext : Bool) (toks : Line) : DecodeResult :=
  match toks with
  | [] => .error .unknownMnemonic
  | m :: ops =>
    match Mnemonic.ofToken m with
    | none => .error .unknownMnemonic
    | some mn =>
      if mn.isExtension && !ext then .error .unknownMnemonic
      else if ops.length + 1 ≠ mn.format.tokenCount then .error .malformedOperand
      else decodeOperands mn ops

/-! ## The Instruction Record (R90 to R96) -/

/-- The mnemonic of an instruction. -/
def Instr.mnemonic : Instr → Mnemonic
  | .addvv _ _ _ => .addvv
  | .subvv _ _ _ => .subvv
  | .mulvv _ _ _ => .mulvv
  | .divvv _ _ _ => .divvv
  | .unpacklo _ _ _ => .unpacklo
  | .unpackhi _ _ _ => .unpackhi
  | .packlo _ _ _ => .packlo
  | .packhi _ _ _ => .packhi
  | .addvs _ _ _ => .addvs
  | .subvs _ _ _ => .subvs
  | .mulvs _ _ _ => .mulvs
  | .divvs _ _ _ => .divvs
  | .pop _ => .pop
  | .mtcl _ => .mtcl
  | .mfcl _ => .mfcl
  | .b _ => .b
  | .lv _ _ => .lv
  | .sv _ _ => .sv
  | .lvws _ _ _ => .lvws
  | .svws _ _ _ => .svws

/-- The indices of the vector-register tokens in token order, repeats kept (R92). -/
def Instr.vectorRegs : Instr → List VReg
  | .addvv d s1 s2 | .subvv d s1 s2 | .mulvv d s1 s2 | .divvv d s1 s2 => [d, s1, s2]
  | .unpacklo d s1 s2 | .unpackhi d s1 s2 | .packlo d s1 s2 | .packhi d s1 s2 => [d, s1, s2]
  | .addvs d s _ | .subvs d s _ | .mulvs d s _ | .divvs d s _ => [d, s]
  | .pop _ | .mtcl _ | .mfcl _ | .b _ => []
  | .lv v _ | .sv v _ | .lvws v _ _ | .svws v _ _ => [v]

/-- The indices of the scalar-register tokens in token order, repeats kept (R92). -/
def Instr.scalarRegs : Instr → List SReg
  | .addvv _ _ _ | .subvv _ _ _ | .mulvv _ _ _ | .divvv _ _ _ => []
  | .unpacklo _ _ _ | .unpackhi _ _ _ | .packlo _ _ _ | .packhi _ _ _ => []
  | .addvs _ _ t | .subvs _ _ t | .mulvs _ _ t | .divvs _ _ t => [t]
  | .pop r | .mtcl r | .mfcl r => [r]
  | .b _ => []
  | .lv _ base | .sv _ base => [base]
  | .lvws _ base r | .svws _ base r => [base, r]

/-- The branch offset, present for `B` only (R96). -/
def Instr.offset : Instr → Option Int
  | .b off => some off
  | .addvv _ _ _ | .subvv _ _ _ | .mulvv _ _ _ | .divvv _ _ _ => none
  | .unpacklo _ _ _ | .unpackhi _ _ _ | .packlo _ _ _ | .packhi _ _ _ => none
  | .addvs _ _ _ | .subvs _ _ _ | .mulvs _ _ _ | .divvs _ _ _ => none
  | .pop _ | .mtcl _ | .mfcl _ => none
  | .lv _ _ | .sv _ _ | .lvws _ _ _ | .svws _ _ _ => none

/-- The queue class of an instruction (R90). -/
def Instr.queueClass (i : Instr) : QueueClass := i.mnemonic.queueClass

/-- The Instruction Record (R96). `name`, `queueClass`, `vectorRegs`, `scalarRegs` and `off` are read from `instr`. -/
structure Record where
  instr : Instr
  p : Nat
  cycleLatency : Nat
  scalarMemAddrs : List Int
  vectorMemAddrs : List Int
  deriving DecidableEq, Repr

/-- `LAT(m)` (R7, R91). -/
def Config.latency (c : Config) : Mnemonic → Nat
  | .addvv => c.lat.addvv
  | .subvv => c.lat.subvv
  | .mulvv => c.lat.mulvv
  | .divvv => c.lat.divvv
  | .unpacklo => c.lat.unpacklo
  | .unpackhi => c.lat.unpackhi
  | .packlo => c.lat.packlo
  | .packhi => c.lat.packhi
  | .addvs => c.lat.addvs
  | .subvs => c.lat.subvs
  | .mulvs => c.lat.mulvs
  | .divvs => c.lat.divvs
  | .pop => c.lat.pop
  | .mtcl => c.lat.mtcl
  | .mfcl => c.lat.mfcl
  | .b => c.lat.b
  | .lv => c.lat.lv
  | .sv => c.lat.sv
  | .lvws => c.lat.lvws
  | .svws => c.lat.svws

/-- The record of instruction `i` at index `p`: the one constructor that always sets every field (R91, R93, R96). -/
def makeRecord (c : Config) (p : Nat) (i : Instr) : Record where
  instr := i
  p := p
  cycleLatency := c.latency i.mnemonic
  scalarMemAddrs := []
  vectorMemAddrs := []

/-- The outcome of `decode(p, toks)` (R80). -/
inductive DecodeOutcome where
  | accepted (r : Record)
  | rejected (d : Detail)
  deriving DecidableEq, Repr

/-- `decode(p, toks)` (R80, R96). It reads the line, and of the configuration `P_VDATA_EXT` and `LAT`. -/
def decode (c : Config) (p : Nat) (toks : Line) : DecodeOutcome :=
  match decodeLine c.vdataExt toks with
  | .ok i => .accepted (makeRecord c p i)
  | .error d => .rejected d

/-! ## The encoder -/

/-- The ASCII digit of a value below 10. -/
def digitChar (d : Nat) : Char := Char.ofNat (48 + d)

/-- The decimal digits of `n`, most significant first, at most `fuel` of them. -/
def digitsUpTo : Nat → Nat → List Char
  | 0, _ => []
  | fuel + 1, n => if n < 10 then [digitChar n] else digitsUpTo fuel (n / 10) ++ [digitChar (n % 10)]

/-- The decimal digits of a number below 10^10: no operand of R84 or R86 needs more. -/
def encodeNat (n : Nat) : List Char := digitsUpTo 10 n

/-- `VR<n>` (R84). -/
def encodeVector (r : VReg) : Token := 'V' :: 'R' :: encodeNat r.val

/-- `SR<n>` (R84). -/
def encodeScalar (r : SReg) : Token := 'S' :: 'R' :: encodeNat r.val

/-- A branch offset: a minus sign when it is negative, then its decimal digits (R86). -/
def encodeOffset (off : Int) : Token :=
  if off < 0 then '-' :: encodeNat off.natAbs else encodeNat off.natAbs

/-- The operand tokens of an instruction, in token order (R82, R88). -/
def encodeOperands : Instr → List Token
  | .addvv d s1 s2 | .subvv d s1 s2 | .mulvv d s1 s2 | .divvv d s1 s2
  | .unpacklo d s1 s2 | .unpackhi d s1 s2 | .packlo d s1 s2 | .packhi d s1 s2 =>
    [encodeVector d, encodeVector s1, encodeVector s2]
  | .addvs d s t | .subvs d s t | .mulvs d s t | .divvs d s t => [encodeVector d, encodeVector s, encodeScalar t]
  | .pop r | .mtcl r | .mfcl r => [encodeScalar r]
  | .b off => [encodeOffset off]
  | .lv v base | .sv v base => [encodeVector v, encodeScalar base]
  | .lvws v base r | .svws v base r => [encodeVector v, encodeScalar base, encodeScalar r]

/-- The line of an instruction: its mnemonic, then its operands (R82). -/
def encode (i : Instr) : Line := i.mnemonic.token :: encodeOperands i

/-! ## A line as bits

The source has no binary form (R6, D1), and the opcode table gives its rows no bits. The form here is the model's own
(log 6): the line's ASCII text, one character a byte, the first character in the lowest byte, tokens separated by
blanks. -/

/-- The lowest `n` bytes of `w`, the lowest first. -/
def bytesOf : Nat → Nat → List Nat
  | 0, _ => []
  | n + 1, w => w % 256 :: bytesOf n (w / 256)

/-- Splits text at the characters up to the blank (32), which count for nothing else; `cur` is the token so far, reversed. -/
def splitTokens : List Char → List Nat → Line
  | cur, [] => if cur = [] then [] else [cur.reverse]
  | cur, x :: xs =>
    if x ≤ 32 then (if cur = [] then splitTokens [] xs else cur.reverse :: splitTokens [] xs)
    else splitTokens (Char.ofNat x :: cur) xs

/-- The line whose text is the lowest `nbits / 8` bytes of `w` (log 6). -/
def lineOfWord (nbits w : Nat) : Line := splitTokens [] (bytesOf (nbits / 8) w)

/-- The instruction the decoder reads from a line given as bits (log 6), with every mnemonic of R82 enabled. -/
def decodeTableWord (nbits w : Nat) : Option Instr :=
  match decodeLine true (lineOfWord nbits w) with
  | .ok i => some i
  | .error _ => none

end Sys2Proof
end

