-- ==== Sys2Proof/Machine/State.lean ====
section
/-! DEFINITION. The state of the core as plain data (`10_state.md`, `20_memory.md`), the reasons a step can stop, and the
state right after reset. -/

namespace Sys2Proof.Machine

/-- The 64 lanes of a vector register or of VMR (R22, R24). -/
abbrev Lanes := Vector Word 64

/-- One truth value a lane (R37). -/
abbrev Mask := Vector Bool 64

/-- A word-indexed data memory (R64, R66): the listed (index, word) pairs in rising order of the index, none holding the
word 0, which is what an unlisted index reads as (log 4). -/
abbrev Memory := List (Nat × Word)

/-- The instruction memory (R60): the listed (index, line) pairs in rising order; every other entry is the
end-of-program sentinel (log 5). -/
abbrev InstrMemory := List (Nat × Line)

/-- Why dispatch stalls (R33, D23). -/
inductive StallReason where
  | registerBusy
  | queueFull
  deriving DecidableEq, Repr

/-- The pipeline status (R33). The record of `Halted(error)` is the field `err` of the state (R39). -/
inductive Status where
  | running
  | stalled (reason : StallReason)
  | haltedNormal
  | haltedError
  deriving DecidableEq, Repr

/-- The error kinds (R280). -/
inductive ErrorKind where
  | decodeError
  | hazardViolation
  | memoryFault
  | arithmeticFault
  | cycleLimitExceeded
  deriving DecidableEq, Repr

/-- The error record (R39): every field but the kind is present for some kinds only. -/
structure ErrorRecord where
  kind : ErrorKind
  p : Option Nat
  toks : Option Line
  mnemonic : Option Mnemonic
  addr : Option Int
  lane : Option Nat
  detail : Option Detail
  deriving DecidableEq, Repr

/-- What the fetch latch holds: a fetched line and its index (R34). -/
structure Fetched where
  p : Nat
  toks : Line
  deriving DecidableEq, Repr

/-- A queue entry (R37): the record, the cycles counted on the latency timer, and the snapshots taken at dispatch. -/
structure Entry where
  record : Record
  elapsed : Nat
  snapVL : Option Nat
  snapVLR : Option Word
  snapMask : Option Mask
  deriving DecidableEq, Repr

/-- The scoreboard: one busy bit for each of the 18 register names (R38). -/
structure Scoreboard where
  scalar : Vector Bool 8
  vector : Vector Bool 8
  mask : Bool
  length : Bool
  deriving DecidableEq, Repr

/-- The whole state of the core and of the memories behind its ports. -/
structure State where
  /-- the parameters sampled at reset (R7, R8) -/
  cfg : Config
  /-- instruction memory, IMEM (R60) -/
  imem : InstrMemory
  /-- vector data memory, VDM (R64) -/
  vdm : Memory
  /-- scalar data memory, SDM (R66) -/
  sdm : Memory
  /-- `S[0..7]` (R20) -/
  sreg : Vector Word 8
  /-- `V[0..7][0..63]` (R22) -/
  vreg : Vector Lanes 8
  /-- VMR (R24) -/
  vmr : Lanes
  /-- VLR (R26) -/
  vlr : Word
  /-- the index of the next entry fetch reads (R30) -/
  pc : Nat
  /-- the cycles completed since reset was released (R32) -/
  cycle : Nat
  /-- the pipeline status (R33) -/
  status : Status
  /-- fetch latch, FL (R34) -/
  fl : Option Fetched
  /-- decode latch, DL (R35) -/
  dl : Option Record
  /-- `Q[VectorCompute]`, oldest first (R36) -/
  qCompute : List Entry
  /-- `Q[VectorData]`, oldest first (R36) -/
  qData : List Entry
  /-- `Q[ScalarOps]`, oldest first (R36) -/
  qScalar : List Entry
  /-- the scoreboard (R38) -/
  busy : Scoreboard
  /-- the error record, empty unless `Halted(error)` (R39) -/
  err : Option ErrorRecord
  deriving DecidableEq, Repr

/-- The reasons the model stops with a fault: none. Every error the spec names halts the core in `Halted(error)`, which
is a state of the machine and so a next state (R250, R262, R288; log 11). Safe: no behaviour is left out. -/
inductive Fault where
  deriving DecidableEq, Repr

/-- The reasons the model refuses. -/
inductive Refusal where
  /-- an instruction of the opcode map that has no meaning in the model; raised by no arm of `exec` today. Safe. -/
  | notModelled (mnemonic : String)
  /-- `step` and `boot`: a parameter is outside its legal range, and R314 says that a model refuses it. Safe. -/
  | illegalConfiguration
  /-- `boot`: a launch value is outside 32 bits or names an entry that does not exist, and R72 says that a model
  refuses it. Safe. -/
  | illegalLaunch
  deriving DecidableEq, Repr

/-- A scoreboard with every register free (R41). -/
def Scoreboard.free : Scoreboard where
  scalar := Vector.replicate 8 false
  vector := Vector.replicate 8 false
  mask := false
  length := false

/-- The state right after reset (R41), with the configuration `Config.reference` (log 1) and nothing loaded into the
memories, which reset does not write (R41, R311; log 4, log 5). -/
def State.reset : State where
  cfg := Config.reference
  imem := []
  vdm := []
  sdm := []
  sreg := Vector.replicate 8 0
  vreg := Vector.replicate 8 (Vector.replicate 64 0)
  vmr := Vector.replicate 64 1
  vlr := 64
  pc := 0
  cycle := 0
  status := .running
  fl := none
  dl := none
  qCompute := []
  qData := []
  qScalar := []
  busy := Scoreboard.free
  err := none

end Sys2Proof.Machine
end

