-- ==== Sys2Proof/Machine/Ops.lean ====
section
/-! DEFINITION. The named operations over memories, registers, queues and the scoreboard, and raising an error, which is
all the block has for taking an exception (`60_exceptions.md` R288). There is no return from one (R289). -/

namespace Sys2Proof.Machine

/-! ## Memories -/

/-- The value listed at index `a`. -/
def Memory.lookup {α : Type} (m : List (Nat × α)) (a : Nat) : Option α :=
  match m with
  | [] => none
  | (k, v) :: rest => if k = a then some v else Memory.lookup rest a

/-- Lists `v` at index `a`, in place of what was listed there. -/
def Memory.insert {α : Type} (m : List (Nat × α)) (a : Nat) (v : α) : List (Nat × α) :=
  match m with
  | [] => [(a, v)]
  | (k, w) :: rest =>
    if a < k then (a, v) :: (k, w) :: rest
    else if a = k then (a, v) :: rest
    else (k, w) :: Memory.insert rest a v

/-- Takes index `a` off the list. -/
def Memory.erase {α : Type} (m : List (Nat × α)) (a : Nat) : List (Nat × α) :=
  match m with
  | [] => []
  | (k, w) :: rest => if k = a then Memory.erase rest a else (k, w) :: Memory.erase rest a

/-- What an unlisted word of a data memory reads as: 0. DESIGN CHOICE (log 4), unsafe. -/
def unlistedWord : Word := 0

/-- `MemRead(a)` (R14, R64). -/
def Memory.read (m : Memory) (a : Nat) : Word := (Memory.lookup m a).getD unlistedWord

/-- `MemWrite(a, v)`: changes exactly the one word it names (R14, R69), and keeps the canonical form. -/
def Memory.write (m : Memory) (a : Nat) (v : Word) : Memory :=
  if v = unlistedWord then Memory.erase m a else Memory.insert m a v

/-- The canonical form of a data memory: indices strictly rising, no listed word equal to the unlisted one (log 4). -/
abbrev Memory.wf (m : Memory) : Prop :=
  m.Pairwise (fun x y => x.1 < y.1) ∧ ∀ c ∈ m, c.2 ≠ unlistedWord

/-- The canonical form of the instruction memory: indices strictly rising (log 5). -/
abbrev InstrMemory.wf (m : InstrMemory) : Prop := m.Pairwise (fun x y => x.1 < y.1)

/-- The first index from `k` on, at most `fuel` further, whose entry is the sentinel. -/
def firstSentinel (imem : InstrMemory) : Nat → Nat → Nat
  | 0, k => k
  | fuel + 1, k =>
    match Memory.lookup imem k with
    | none => k
    | some _ => firstSentinel imem fuel (k + 1)

/-- `progLen`: the smallest index whose entry is the sentinel, or `IMEM_SIZE` if there is none (R62). -/
def State.progLen (s : State) : Nat := firstSentinel s.imem imemSize 0

/-! ## Registers -/

/-- `S[i]` (R13). -/
def State.readS (s : State) (i : SReg) : Word := s.sreg[i.val]

/-- `S[i] <- v` (R13). -/
def State.writeS (s : State) (i : SReg) (v : Word) : State := { s with sreg := s.sreg.set i.val v }

/-- `V[i]` (R13). -/
def State.readV (s : State) (i : VReg) : Lanes := s.vreg[i.val]

/-- `V[i][l]` (R13). -/
def State.lane (s : State) (i : VReg) (l : Fin 64) : Word := (s.readV i)[l.val]

/-- `V[i] <- v`, every lane. -/
def State.writeV (s : State) (i : VReg) (v : Lanes) : State := { s with vreg := s.vreg.set i.val v }

/-- `V[i][l] <- f l` in the lanes that `act` names; every other lane keeps its value (R150). -/
def State.writeLanes (s : State) (i : VReg) (act : Fin 64 → Bool) (f : Fin 64 → Word) : State :=
  s.writeV i (Vector.ofFn fun l => if act l then f l else s.lane i l)

/-- `VLR <- v`, any value unchanged (R27). -/
def State.writeVlr (s : State) (v : Word) : State := { s with vlr := v }

/-- `VL = clamp(VLR, 0, MVL)` (R26). -/
def activeLength (vlr : Word) : Nat := (clamp vlr.toInt 0 mvl).toNat

/-- The truth of each lane of VMR: nonzero is true (R24). -/
def truthMask (vmr : Lanes) : Mask := Vector.ofFn fun l => vmr[l.val] != 0

/-! ## Queues -/

/-- `Q[c]`, oldest first (R36). -/
def State.queue (s : State) (c : QueueClass) : List Entry :=
  match c with
  | .vectorCompute => s.qCompute
  | .vectorData => s.qData
  | .scalarOps => s.qScalar

/-- `Q[c] <- q`. -/
def State.setQueue (s : State) (c : QueueClass) (q : List Entry) : State :=
  match c with
  | .vectorCompute => { s with qCompute := q }
  | .vectorData => { s with qData := q }
  | .scalarOps => { s with qScalar := q }

/-- `cap(c)` (R36). -/
def State.cap (s : State) (c : QueueClass) : Nat :=
  match c with
  | .vectorCompute => s.cfg.computeQueueDepth
  | .vectorData => s.cfg.dataQueueDepth
  | .scalarOps => s.cfg.scalarQueueDepth

/-! ## Scoreboard -/

/-- `busy[x]` (R38). -/
def Scoreboard.get (b : Scoreboard) (x : RegName) : Bool :=
  match x with
  | .scalar i => b.scalar[i.val]
  | .vector i => b.vector[i.val]
  | .mask => b.mask
  | .length => b.length

/-- `busy[x] <- v` (R38). -/
def Scoreboard.put (b : Scoreboard) (x : RegName) (v : Bool) : Scoreboard :=
  match x with
  | .scalar i => { b with scalar := b.scalar.set i.val v }
  | .vector i => { b with vector := b.vector.set i.val v }
  | .mask => { b with mask := v }
  | .length => { b with length := v }

/-- `busy[x] <- v` for every `x` of a list. -/
def Scoreboard.putAll (b : Scoreboard) (xs : List RegName) (v : Bool) : Scoreboard :=
  xs.foldl (fun b x => b.put x v) b

/-! ## Status and errors -/

/-- Whether the core is in one of the two absorbing states (R33, R250). -/
def State.halted (s : State) : Bool :=
  match s.status with
  | .haltedNormal => true
  | .haltedError => true
  | .running => false
  | .stalled _ => false

/-- `raise K(info)`: `Halted(error)` with its record, and nothing else (R14, R288). The one operation through which
every error is taken. -/
def State.raise (s : State) (info : ErrorRecord) : State :=
  { s with status := .haltedError, err := some info }

/-- The record of an `ArithmeticFault` (R39, R282). -/
def arithmeticFault (p : Nat) (m : Mnemonic) (lane : Fin 64) (d : Detail) : ErrorRecord where
  kind := .arithmeticFault
  p := some p
  toks := none
  mnemonic := some m
  addr := none
  lane := some lane.val
  detail := some d

/-- The record of a `MemoryFault(DataAddress)` (R39, R283). -/
def dataAddressFault (p : Nat) (m : Mnemonic) (lane : Fin 64) (addr : Int) : ErrorRecord where
  kind := .memoryFault
  p := some p
  toks := none
  mnemonic := some m
  addr := some addr
  lane := some lane.val
  detail := some .dataAddress

/-- The record of a `MemoryFault(BranchTarget)` (R231, R283). -/
def branchTargetFault (p : Nat) (target : Int) : ErrorRecord where
  kind := .memoryFault
  p := some p
  toks := none
  mnemonic := some .b
  addr := some target
  lane := none
  detail := some .branchTarget

/-- The record of a `DecodeError` (R281). -/
def decodeErrorRecord (p : Nat) (toks : Line) (d : Detail) : ErrorRecord where
  kind := .decodeError
  p := some p
  toks := some toks
  mnemonic := none
  addr := none
  lane := none
  detail := some d

/-- The record of a `HazardViolation` (R135, R285). The spec gives its kind; that it names the instruction is a
DESIGN CHOICE (log 9), safe: no reachable state raises it. -/
def hazardViolation (r : Record) : ErrorRecord where
  kind := .hazardViolation
  p := some r.p
  toks := none
  mnemonic := some r.instr.mnemonic
  addr := none
  lane := none
  detail := none

/-- The record of a `CycleLimitExceeded`: only the kind (R261, R284). -/
def cycleLimitRecord : ErrorRecord where
  kind := .cycleLimitExceeded
  p := none
  toks := none
  mnemonic := none
  addr := none
  lane := none
  detail := none

/-- Runs `f` on the next state; a fault or a refusal stays what it is. -/
def andThen {σ τ : Type} (o : Host.Outcome σ Fault Refusal) (f : σ → Host.Outcome τ Fault Refusal) :
    Host.Outcome τ Fault Refusal :=
  match o with
  | .next s => f s
  | .fault r => .fault r
  | .refused r => .refused r

end Sys2Proof.Machine
end

