-- ==== Sys2Proof/Machine/Operands.lean ====
section
/-! DEFINITION. The operands of an instruction: the registers it names, holds and snapshots (`40_dispatch_scoreboard.md`
R123 to R126), the snapshots its unit reads (R125, R151), its own index, and effective addresses (`42_vector_data.md` R192). -/

namespace Sys2Proof.Machine

/-! ## Register sets -/

/-- `Ref(r)`: the names the line's register tokens name, each once (R123). -/
def refSet (i : Instr) : List RegName :=
  (i.vectorRegs.map RegName.vector ++ i.scalarRegs.map RegName.scalar).dedup

/-- The implicit destination: `(Length,0)` for `MTCL`, none for the others (R124). -/
def implicitDest (i : Instr) : List RegName :=
  match i.mnemonic with
  | .mtcl => [.length]
  | .addvv | .subvv | .mulvv | .divvv | .unpacklo | .unpackhi | .packlo | .packhi => []
  | .addvs | .subvs | .mulvs | .divvs | .pop | .mfcl | .b => []
  | .lv | .sv | .lvws | .svws => []

/-- `Mark(r)`: what dispatch marks busy and retire frees (R124). -/
def markSet (i : Instr) : List RegName := refSet i ++ implicitDest i

/-- `Snap(r)`: the implicit sources, checked free at dispatch and captured, never marked (R125). -/
def snapSet (i : Instr) : List RegName :=
  match i.mnemonic with
  | .addvv | .subvv | .mulvv | .divvv | .unpacklo | .unpackhi | .packlo | .packhi => [.length, .mask]
  | .addvs | .subvs | .mulvs | .divvs => [.length, .mask]
  | .lv | .sv | .lvws | .svws => [.length, .mask]
  | .mfcl => [.length]
  | .pop => [.mask]
  | .mtcl | .b => []

/-- The check set `Mark(r) ∪ Snap(r)` (R126). -/
def checkSet (i : Instr) : List RegName := markSet i ++ snapSet i

/-- Whether some register of a list is busy. -/
def State.anyBusy (s : State) (xs : List RegName) : Bool := xs.any fun x => s.busy.get x

/-! ## Snapshots -/

/-- Whether an entry captures `snapVL` (R37, R125). -/
def capturesVL (i : Instr) : Bool :=
  match i.queueClass with
  | .vectorCompute => true
  | .vectorData => true
  | .scalarOps => false

/-- Whether an entry captures `snapVLR`: `MFCL` only (R37, R125). -/
def capturesVLR (i : Instr) : Bool := decide (i.mnemonic = .mfcl)

/-- Whether an entry captures `snapMask`: the vector instructions and `POP` (R37, R125). -/
def capturesMask (i : Instr) : Bool := capturesVL i || decide (i.mnemonic = .pop)

/-- The entry dispatch makes of record `r`, with the snapshots of R125 taken from this state (R128). -/
def State.newEntry (s : State) (r : Record) : Entry where
  record := r
  elapsed := 0
  snapVL := if capturesVL r.instr then some (activeLength s.vlr) else none
  snapVLR := if capturesVLR r.instr then some s.vlr else none
  snapMask := if capturesMask r.instr then some (truthMask s.vmr) else none

/-! ## What a unit reads of the entry it completes

A unit completes the head of its queue (R131, R132). When the queue is empty, the instruction runs as in the
sequential semantics SEQ, where the snapshots are taken now and the index is `pc` (R322; log 7). -/

/-- The `snapVL` of the head of `Q[c]`; VL now when there is none. -/
def State.snapVL (s : State) (c : QueueClass) : Nat :=
  ((s.queue c).head?.bind Entry.snapVL).getD (activeLength s.vlr)

/-- The `snapVLR` of the head of `Q[c]`; VLR now when there is none. -/
def State.snapVLR (s : State) (c : QueueClass) : Word :=
  ((s.queue c).head?.bind Entry.snapVLR).getD s.vlr

/-- The `snapMask` of the head of `Q[c]`; the truth of VMR now when there is none. -/
def State.snapMask (s : State) (c : QueueClass) : Mask :=
  ((s.queue c).head?.bind Entry.snapMask).getD (truthMask s.vmr)

/-- The index `r.p` of the head of `Q[c]`; `pc` when the queue is empty. -/
def State.headIndex (s : State) (c : QueueClass) : Nat :=
  ((s.queue c).head?.map fun e => e.record.p).getD s.pc

/-- The index `r.p` of the record in DL, where a branch resolves (R230); `pc` when DL is empty. -/
def State.latchIndex (s : State) : Nat := (s.dl.map fun r => r.p).getD s.pc

/-- Lane `l` is active: below `snapVL`, and true in `snapMask` (R151). -/
def State.active (s : State) (c : QueueClass) (l : Fin 64) : Bool :=
  decide (l.val < s.snapVL c) && (s.snapMask c)[l.val]

/-! ## Effective addresses -/

/-- `EA(l) = S[b] + l * stride`, exact; `l` is the lane number (R192). -/
def effectiveAddress (base : Word) (stride : Int) (l : Fin 64) : Int := base.toInt + (l.val : Int) * stride

/-- `0 <= a < VDM_SIZE` (R65). -/
def State.inVdm (s : State) (a : Int) : Bool := decide (0 ≤ a ∧ a < (s.cfg.vdmSize : Int))

/-- The branch target `t = r.p + off`, exact (R230). -/
def State.branchTarget (s : State) (off : Int) : Int := (s.latchIndex : Int) + off

/-- A legal branch target: `0 <= t <= IMEM_SIZE` (R231). -/
def legalTarget (t : Int) : Bool := decide (0 ≤ t ∧ t ≤ (imemSize : Int))

end Sys2Proof.Machine
end

