-- ==== Sys2Proof/Machine/Branch.lean ====
section
/-! DEFINITION. The branch (`43_scalar_ops.md` R230, R231). Its whole effect happens when it dispatches, while its record is
in DL (R224). -/

namespace Sys2Proof.Machine

/-- `B off`: with `t = r.p + off`, a target outside `[0, IMEM_SIZE]` raises `MemoryFault(BranchTarget)` before any
effect (R231); otherwise FL is squashed and `pc <- t` (R230). -/
def execB (off : Int) (s : State) : Host.Outcome State Fault Refusal :=
  if legalTarget (s.branchTarget off) then .next { s with fl := none, pc := (s.branchTarget off).toNat }
  else .next (s.raise (branchTargetFault s.latchIndex (s.branchTarget off)))

end Sys2Proof.Machine
end

