-- ==== Sys2Proof/Machine/ScalarOps.lean ====
section
/-! DEFINITION. The control instructions of the Scalar-Ops unit (`43_scalar_ops.md` R220 to R223). None of them faults. -/

namespace Sys2Proof.Machine

/-- The number of true lanes of a mask, over all 64 (R221). -/
def countTrue (m : Mask) : Nat := (List.finRange 64).countP fun l => m[l.val]

/-- `POP Sd`: `S[d]` gets the number of true lanes of the mask captured at dispatch; VLR does not limit it (R221). -/
def execPop (d : SReg) (s : State) : Host.Outcome State Fault Refusal :=
  .next (s.writeS d (BitVec.ofNat 32 (countTrue (s.snapMask .scalarOps))))

/-- `MTCL Ss`: `VLR <- S[s]`, every value unchanged (R27, R222). -/
def execMtcl (r : SReg) (s : State) : Host.Outcome State Fault Refusal :=
  .next (s.writeVlr (s.readS r))

/-- `MFCL Sd`: `S[d]` gets the raw VLR captured at dispatch (R223). -/
def execMfcl (d : SReg) (s : State) : Host.Outcome State Fault Refusal :=
  .next (s.writeS d (s.snapVLR .scalarOps))

end Sys2Proof.Machine
end

