-- ==== Sys2Proof/Machine/Flags.lean ====
section
/-! DEFINITION. The block has no flags (`10_state.md` R28): in their place stand the range law and the division law of
`41_vector_compute.md`, which say when a lane's result is a fault. -/

namespace Sys2Proof.Machine

/-- The result of one lane: a value, or `Fault(detail)` (R150). -/
inductive LaneResult where
  | value (w : Word)
  | fault (d : Detail)
  deriving DecidableEq, Repr

/-- The integer range law: an exact result outside 32 bits is `Fault(Overflow)`, never wrapped or saturated (R152). -/
def rangeLaw (v : Int) : LaneResult :=
  if inRange32 v then .value (BitVec.ofInt 32 v) else .fault .overflow

/-- The quotient in the rounding `P_DIV_ROUND` (R12, R153). -/
def quotient (round : DivRound) (a b : Int) : Int :=
  match round with
  | .towardZero => Int.tdiv a b
  | .floor => Int.fdiv a b

/-- `DIV(a, b)`: a zero divisor faults, then the quotient is range-checked (R153). -/
def divisionLaw (round : DivRound) (a b : Int) : LaneResult :=
  if b = 0 then .fault .divideByZero else rangeLaw (quotient round a b)

/-- The sum of two lanes (R156, R165). -/
def addLane (a b : Word) : LaneResult := rangeLaw (a.toInt + b.toInt)

/-- The difference of two lanes, the first the minuend (R157, R166). -/
def subLane (a b : Word) : LaneResult := rangeLaw (a.toInt - b.toInt)

/-- The product of two lanes (R158, R167). -/
def mulLane (a b : Word) : LaneResult := rangeLaw (a.toInt * b.toInt)

/-- The quotient of two lanes, the first the dividend (R159, R168). -/
def divLane (round : DivRound) (a b : Word) : LaneResult := divisionLaw round a.toInt b.toInt

end Sys2Proof.Machine
end

