-- ==== Sys2Proof/Machine/Lanes.lean ====
section
/-! DEFINITION. The two completion procedures that work lane by lane: `complete(VectorCompute, e)` (`41_vector_compute.md`
R150) and `complete(VectorData, e)` (`42_vector_data.md` R193). Both check every active lane before they write anything. -/

namespace Sys2Proof.Machine

/-- The lowest active lane whose result is a fault, with its detail (R150). -/
def firstFault (act : Fin 64 → Bool) (op : Fin 64 → LaneResult) : Option (Fin 64 × Detail) :=
  (List.finRange 64).findSome? fun l =>
    if act l then
      match op l with
      | .fault d => some (l, d)
      | .value _ => none
    else none

/-- The value of a lane result; a fault has none, and is never asked for one. -/
def LaneResult.word (r : LaneResult) : Word :=
  match r with
  | .value w => w
  | .fault _ => 0

/-- `complete(VectorCompute, e)` with the per-lane function `op`: raise the lowest active faulting lane, or write the
active lanes of `V[d]` (R150, R154, R155). `op` reads the registers as they stand when the procedure starts. -/
def computeLanes (m : Mnemonic) (d : VReg) (op : Fin 64 → LaneResult) (s : State) :
    Host.Outcome State Fault Refusal :=
  match firstFault (s.active .vectorCompute) op with
  | some (l, det) => .next (s.raise (arithmeticFault (s.headIndex .vectorCompute) m l det))
  | none => .next (s.writeLanes d (s.active .vectorCompute) fun l => (op l).word)

/-- The lowest active lane whose address is outside VDM, with that address (R193, R194). -/
def State.firstBadAddress (s : State) (addr : Fin 64 → Int) : Option (Fin 64 × Int) :=
  (List.finRange 64).findSome? fun l =>
    if s.active .vectorData l && !s.inVdm (addr l) then some (l, addr l) else none

/-- A load's `complete(VectorData, e)`: no access at all if an active lane is out of bounds, else all reads, then the
writes of the active lanes (R193, R194). -/
def loadLanes (m : Mnemonic) (d : VReg) (addr : Fin 64 → Int) (s : State) : Host.Outcome State Fault Refusal :=
  match s.firstBadAddress addr with
  | some (l, a) => .next (s.raise (dataAddressFault (s.headIndex .vectorData) m l a))
  | none => .next (s.writeLanes d (s.active .vectorData) fun l => Memory.read s.vdm (addr l).toNat)

/-- The active lanes' stores into a memory, ascending: a later lane overwrites an earlier one at the same word (R195). -/
def storeActive (act : Fin 64 → Bool) (addr : Fin 64 → Int) (val : Fin 64 → Word) (m : Memory) : Memory :=
  (List.finRange 64).foldl (fun m l => if act l then Memory.write m (addr l).toNat (val l) else m) m

/-- A store's `complete(VectorData, e)`: no access at all if an active lane is out of bounds, else the active lanes'
words, ascending (R193, R194, R195). -/
def storeLanes (m : Mnemonic) (v : VReg) (addr : Fin 64 → Int) (s : State) : Host.Outcome State Fault Refusal :=
  match s.firstBadAddress addr with
  | some (l, a) => .next (s.raise (dataAddressFault (s.headIndex .vectorData) m l a))
  | none => .next { s with vdm := storeActive (s.active .vectorData) addr (s.lane v) s.vdm }

end Sys2Proof.Machine
end

