-- ==== Sys2Proof/Machine/VectorArith.lean ====
section
/-! DEFINITION. Vector-vector arithmetic (`41_vector_compute.md` R156 to R159). -/

namespace Sys2Proof.Machine

/-- `ADDVV Vd Vs1 Vs2`: `OP(l) = V[s1][l] + V[s2][l]`, range-checked (R156). -/
def execAddvv (d s1 s2 : VReg) (s : State) : Host.Outcome State Fault Refusal :=
  computeLanes .addvv d (fun l => addLane (s.lane s1 l) (s.lane s2 l)) s

/-- `SUBVV Vd Vs1 Vs2`: `OP(l) = V[s1][l] - V[s2][l]`, range-checked (R157). -/
def execSubvv (d s1 s2 : VReg) (s : State) : Host.Outcome State Fault Refusal :=
  computeLanes .subvv d (fun l => subLane (s.lane s1 l) (s.lane s2 l)) s

/-- `MULVV Vd Vs1 Vs2`: `OP(l) = V[s1][l] * V[s2][l]`, the exact product, range-checked (R158). -/
def execMulvv (d s1 s2 : VReg) (s : State) : Host.Outcome State Fault Refusal :=
  computeLanes .mulvv d (fun l => mulLane (s.lane s1 l) (s.lane s2 l)) s

/-- `DIVVV Vd Vs1 Vs2`: `OP(l) = DIV(V[s1][l], V[s2][l])` (R159). -/
def execDivvv (d s1 s2 : VReg) (s : State) : Host.Outcome State Fault Refusal :=
  computeLanes .divvv d (fun l => divLane s.cfg.divRound (s.lane s1 l) (s.lane s2 l)) s

end Sys2Proof.Machine
end

