-- ==== Sys2Proof/Machine/VectorData.lean ====
section
/-! DEFINITION. The vector loads and stores of the extension `P_VDATA_EXT` (`42_vector_data.md` R198 to R201). -/

namespace Sys2Proof.Machine

/-- `LV Vd Sb`: for each active lane `l`, `V[d][l] <- MemRead(S[b] + l)` (R198). -/
def execLv (d : VReg) (base : SReg) (s : State) : Host.Outcome State Fault Refusal :=
  loadLanes .lv d (effectiveAddress (s.readS base) 1) s

/-- `SV Vs Sb`: for each active lane `l`, ascending, `MemWrite(S[b] + l, V[s][l])` (R199). -/
def execSv (v : VReg) (base : SReg) (s : State) : Host.Outcome State Fault Refusal :=
  storeLanes .sv v (effectiveAddress (s.readS base) 1) s

/-- `LVWS Vd Sb Sr`: for each active lane `l`, `V[d][l] <- MemRead(S[b] + l * S[r])` (R200). -/
def execLvws (d : VReg) (base stride : SReg) (s : State) : Host.Outcome State Fault Refusal :=
  loadLanes .lvws d (effectiveAddress (s.readS base) (s.readS stride).toInt) s

/-- `SVWS Vs Sb Sr`: for each active lane `l`, ascending, `MemWrite(S[b] + l * S[r], V[s][l])` (R201). -/
def execSvws (v : VReg) (base stride : SReg) (s : State) : Host.Outcome State Fault Refusal :=
  storeLanes .svws v (effectiveAddress (s.readS base) (s.readS stride).toInt) s

end Sys2Proof.Machine
end

