-- ==== Sys2Proof/Machine/VectorPermute.lean ====
section
/-! DEFINITION. The vector permutes (`41_vector_compute.md` R160 to R163). Each lane map is over the full 64 lanes whatever
VL is, and is gated like any other operation; a permute never faults. The maps are the spec's own choice (D13; log 16). -/

namespace Sys2Proof.Machine

/-- Lane `l` of the interleave of two registers from lane `base` on: even lanes from `a`, odd lanes from `b`, each at
`base + l div 2` (R160, R161). -/
def interleaveLane (base : Nat) (hbase : base ≤ 32) (a b : Lanes) (l : Fin 64) : Word :=
  have h : base + l.val / 2 < 64 := by omega
  if l.val % 2 = 0 then a[base + l.val / 2] else b[base + l.val / 2]

/-- Lane `l` of the packing of two registers at parity `odd`: lane `2l + odd` of `a` in the lower half, lane
`2(l - 32) + odd` of `b` in the upper half (R162, R163). -/
def packLane (odd : Nat) (hodd : odd ≤ 1) (a b : Lanes) (l : Fin 64) : Word :=
  if h : l.val < 32 then
    have h' : 2 * l.val + odd < 64 := by omega
    a[2 * l.val + odd]
  else
    have h' : 2 * (l.val - 32) + odd < 64 := by omega
    b[2 * (l.val - 32) + odd]

/-- `UNPACKLO Vd Vs1 Vs2`: interleave the low halves (R160). -/
def execUnpacklo (d s1 s2 : VReg) (s : State) : Host.Outcome State Fault Refusal :=
  computeLanes .unpacklo d (fun l => .value (interleaveLane 0 (by decide) (s.readV s1) (s.readV s2) l)) s

/-- `UNPACKHI Vd Vs1 Vs2`: interleave the high halves (R161). -/
def execUnpackhi (d s1 s2 : VReg) (s : State) : Host.Outcome State Fault Refusal :=
  computeLanes .unpackhi d (fun l => .value (interleaveLane 32 (by decide) (s.readV s1) (s.readV s2) l)) s

/-- `PACKLO Vd Vs1 Vs2`: pack the even-indexed lanes (R162). -/
def execPacklo (d s1 s2 : VReg) (s : State) : Host.Outcome State Fault Refusal :=
  computeLanes .packlo d (fun l => .value (packLane 0 (by decide) (s.readV s1) (s.readV s2) l)) s

/-- `PACKHI Vd Vs1 Vs2`: pack the odd-indexed lanes (R163). -/
def execPackhi (d s1 s2 : VReg) (s : State) : Host.Outcome State Fault Refusal :=
  computeLanes .packhi d (fun l => .value (packLane 1 (by decide) (s.readV s1) (s.readV s2) l)) s

end Sys2Proof.Machine
end

