-- ==== Sys2Proof/Machine/VectorScalar.lean ====
section
/-! DEFINITION. Vector-scalar arithmetic (`41_vector_compute.md` R164 to R168): the scalar is read once and broadcast to
every active lane (R164); the vector lane is the first operand (D48). -/

namespace Sys2Proof.Machine

/-- `ADDVS Vd Vs St`: `OP(l) = V[s][l] + S[t]`, range-checked (R165). -/
def execAddvs (d v : VReg) (t : SReg) (s : State) : Host.Outcome State Fault Refusal :=
  computeLanes .addvs d (fun l => addLane (s.lane v l) (s.readS t)) s

/-- `SUBVS Vd Vs St`: `OP(l) = V[s][l] - S[t]`, the vector lane the minuend, range-checked (R166). -/
def execSubvs (d v : VReg) (t : SReg) (s : State) : Host.Outcome State Fault Refusal :=
  computeLanes .subvs d (fun l => subLane (s.lane v l) (s.readS t)) s

/-- `MULVS Vd Vs St`: `OP(l) = V[s][l] * S[t]`, range-checked (R167). -/
def execMulvs (d v : VReg) (t : SReg) (s : State) : Host.Outcome State Fault Refusal :=
  computeLanes .mulvs d (fun l => mulLane (s.lane v l) (s.readS t)) s

/-- `DIVVS Vd Vs St`: `OP(l) = DIV(V[s][l], S[t])`, the vector lane the dividend (R168). -/
def execDivvs (d v : VReg) (t : SReg) (s : State) : Host.Outcome State Fault Refusal :=
  computeLanes .divvs d (fun l => divLane s.cfg.divRound (s.lane v l) (s.readS t)) s

end Sys2Proof.Machine
end

