-- ==== Sys2Proof/Machine/Dispatch.lean ====
section
/-! DEFINITION. One arm per instruction of the opcode map (`30_encoding.md` R82): its effect where the spec puts it, at the
completion of its unit, or at dispatch for `B` (log 7). -/

namespace Sys2Proof.Machine

def exec (i : Instr) (s : State) : Host.Outcome State Fault Refusal :=
  match i with
  | .addvv d s1 s2 => Sys2Proof.Machine.execAddvv d s1 s2 s
  | .subvv d s1 s2 => Sys2Proof.Machine.execSubvv d s1 s2 s
  | .mulvv d s1 s2 => Sys2Proof.Machine.execMulvv d s1 s2 s
  | .divvv d s1 s2 => Sys2Proof.Machine.execDivvv d s1 s2 s
  | .unpacklo d s1 s2 => Sys2Proof.Machine.execUnpacklo d s1 s2 s
  | .unpackhi d s1 s2 => Sys2Proof.Machine.execUnpackhi d s1 s2 s
  | .packlo d s1 s2 => Sys2Proof.Machine.execPacklo d s1 s2 s
  | .packhi d s1 s2 => Sys2Proof.Machine.execPackhi d s1 s2 s
  | .addvs d v t => Sys2Proof.Machine.execAddvs d v t s
  | .subvs d v t => Sys2Proof.Machine.execSubvs d v t s
  | .mulvs d v t => Sys2Proof.Machine.execMulvs d v t s
  | .divvs d v t => Sys2Proof.Machine.execDivvs d v t s
  | .pop d => Sys2Proof.Machine.execPop d s
  | .mtcl r => Sys2Proof.Machine.execMtcl r s
  | .mfcl d => Sys2Proof.Machine.execMfcl d s
  | .b off => Sys2Proof.Machine.execB off s
  | .lv d base => Sys2Proof.Machine.execLv d base s
  | .sv v base => Sys2Proof.Machine.execSv v base s
  | .lvws d base stride => Sys2Proof.Machine.execLvws d base stride s
  | .svws v base stride => Sys2Proof.Machine.execSvws v base stride s

end Sys2Proof.Machine
end

