-- ==== Sys2Proof/Machine/Pipeline.lean ====
section
/-! DEFINITION. The phases of one cycle (`44_pipeline_controller.md` R252 to R261) and the scoreboard's contract
(`40_dispatch_scoreboard.md` R120 to R135): execute, dispatch, decode, fetch, end. -/

namespace Sys2Proof.Machine

/-! ## The configuration a run needs -/

/-- Every `LAT(m)`, in the order of R82. -/
def latencies (l : Latencies) : List Nat :=
  [l.addvv, l.subvv, l.mulvv, l.divvv, l.unpacklo, l.unpackhi, l.packlo, l.packhi, l.addvs, l.subvs, l.mulvs, l.divvs,
   l.pop, l.mtcl, l.mfcl, l.b, l.lv, l.sv, l.lvws, l.svws]

/-- `P_MAX_CYCLES` is `none` or a positive integer (R7). -/
def legalLimit (limit : Option Nat) : Bool :=
  match limit with
  | none => true
  | some n => decide (0 < n)

/-- Every parameter in its legal range (R7, R313, R314). -/
def legalConfig (c : Config) : Bool :=
  decide (0 < c.computeQueueDepth) && decide (0 < c.dataQueueDepth) && decide (0 < c.scalarQueueDepth) &&
    (latencies c.lat).all (fun n => decide (0 < n)) && decide (0 < c.vdmSize) && decide (0 < c.sdmSize) &&
    legalLimit c.maxCycles

/-! ## Execute (R132, R253) -/

/-- Counts one cycle on the latency timer of the head of `Q[c]` (R132). -/
def State.tickHead (s : State) (c : QueueClass) : State :=
  match s.queue c with
  | [] => s
  | e :: rest => s.setQueue c ({ e with elapsed := e.elapsed + 1 } :: rest)

/-- Whether a timer has just reached its record's latency (R132). -/
def Entry.due (e : Entry) : Bool := decide (e.elapsed = e.record.cycleLatency)

/-- `complete(ScalarOps, e)` of a `B` entry: no effect, which happened at dispatch (R224). -/
def completeB (s : State) : Host.Outcome State Fault Refusal := .next s

/-- `complete(c, e)`: the instruction's own effect; `B` has had its effect already (R150, R193, R220, R224). -/
def completeEntry (e : Entry) (s : State) : Host.Outcome State Fault Refusal :=
  if e.record.instr.mnemonic = .b then completeB s else exec e.record.instr s

/-- Whether every register of the marked set is held, which `retire` relies on (R135). -/
def State.holdsAll (s : State) (xs : List RegName) : Bool := xs.all fun x => s.busy.get x

/-- `retire(e)` and the removal of the head: frees the marked set of the record (R122, R132). -/
def State.retireHead (s : State) (c : QueueClass) (r : Record) : State :=
  { s.setQueue c (s.queue c).tail with busy := s.busy.putAll (markSet r.instr) false }

/-- Completes and retires the head `e` of `Q[c]`, whose timer is due. A completion that raised ends here (R252). If the
entry does not hold what it is about to free, that is a `HazardViolation`, without any effect of the instruction (R135, R287;
log 9). -/
def State.finishHead (s : State) (c : QueueClass) (e : Entry) : Host.Outcome State Fault Refusal :=
  andThen (completeEntry e s) fun t =>
    if t.halted then .next t
    else if s.holdsAll (markSet e.record.instr) then .next (t.retireHead c e.record)
    else .next (s.raise (hazardViolation e.record))

/-- One unit's share of the execute phase (R132): only the head's timer runs, and at most one entry completes. -/
def advanceUnit (c : QueueClass) (s : State) : Host.Outcome State Fault Refusal :=
  match (s.tickHead c).queue c with
  | [] => .next s
  | e :: _ => if e.due then (s.tickHead c).finishHead c e else .next (s.tickHead c)

/-- The next unit's share, unless an earlier one has raised (R252, R253). -/
def unlessHalted (f : State → Host.Outcome State Fault Refusal) (s : State) : Host.Outcome State Fault Refusal :=
  if s.halted then .next s else f s

/-- The execute phase: VectorCompute, VectorData, ScalarOps, in that order (R253). -/
def executePhase (s : State) : Host.Outcome State Fault Refusal :=
  andThen (advanceUnit .vectorCompute s) fun s1 =>
    andThen (unlessHalted (advanceUnit .vectorData) s1) fun s2 =>
      unlessHalted (advanceUnit .scalarOps) s2

/-! ## Dispatch (R120, R121, R128) -/

/-- What the dispatch phase leaves: the state, and whether it stalled, and why, or squashed the front end (R252). -/
structure Flow where
  state : State
  stalled : Option StallReason
  squashed : Bool
  deriving DecidableEq, Repr

/-- Why dispatch of `r` must stall, if it must: a busy register of the check set first, then a full queue (R126, R128). -/
def State.stallReason (s : State) (r : Record) : Option StallReason :=
  if s.anyBusy (checkSet r.instr) then some .registerBusy
  else if s.cap r.instr.queueClass ≤ (s.queue r.instr.queueClass).length then some .queueFull
  else none

/-- `dispatch(r)` as one action: marks the marked set, takes the snapshots, appends the entry, empties DL (R121, R128).
Marking a register that is busy already would be a `HazardViolation` (R135). -/
def State.enqueue (s : State) (r : Record) : State :=
  if s.anyBusy (markSet r.instr) then s.raise (hazardViolation r)
  else
    { s.setQueue r.instr.queueClass (s.queue r.instr.queueClass ++ [s.newEntry r]) with
      busy := s.busy.putAll (markSet r.instr) true
      dl := none }

/-- The accepted dispatch of `r`. A `B` has its effect first, and an illegal target raises before anything else (R128, R230,
R231); then decode and fetch are squashed for this cycle. -/
def State.dispatchRecord (s : State) (r : Record) : Host.Outcome Flow Fault Refusal :=
  if r.instr.mnemonic = .b then
    andThen (exec r.instr s) fun t =>
      if t.halted then .next { state := t, stalled := none, squashed := false }
      else .next { state := t.enqueue r, stalled := none, squashed := true }
  else .next { state := s.enqueue r, stalled := none, squashed := false }

/-- The dispatch phase (R128, R254): with DL empty it does nothing; a stall changes nothing (R129). -/
def dispatchPhase (s : State) : Host.Outcome Flow Fault Refusal :=
  match s.dl with
  | none => .next { state := s, stalled := none, squashed := false }
  | some r =>
    match s.stallReason r with
    | some reason => .next { state := s, stalled := some reason, squashed := false }
    | none => s.dispatchRecord r

/-! ## Decode and fetch (R255, R257) -/

/-- The decode phase: FL into DL, or `DecodeError` (R255, R281). -/
def decodePhase (s : State) : State :=
  match s.fl with
  | none => s
  | some f =>
    match decode s.cfg f.p f.toks with
    | .rejected d => s.raise (decodeErrorRecord f.p f.toks d)
    | .accepted r => { s with dl := some r, fl := none }

/-- The fetch phase: the line at `pc`, if `pc < progLen` (R63, R257). -/
def fetchPhase (s : State) : State :=
  if s.pc < s.progLen then
    match Memory.lookup s.imem s.pc with
    | some toks => { s with fl := some { p := s.pc, toks := toks }, pc := s.pc + 1 }
    | none => s
  else s

/-- Decode, then fetch unless decode raised (R252). -/
def frontEnd (s : State) : State :=
  if (decodePhase s).halted then decodePhase s else fetchPhase (decodePhase s)

/-! ## End of the cycle (R259 to R261) -/

/-- `drained()` (R260). -/
def State.drained (s : State) : Bool :=
  decide (s.progLen ≤ s.pc) && s.fl.isNone && s.dl.isNone && s.qCompute.isEmpty && s.qData.isEmpty && s.qScalar.isEmpty

/-- Whether the cycle limit is reached, `cycle` being the count after this cycle (R261). -/
def State.limitReached (s : State) : Bool :=
  match s.cfg.maxCycles with
  | none => false
  | some n => decide (n ≤ s.cycle)

/-- The end of a cycle: the counter, then the status; a raise keeps `Halted(error)`, and draining goes before the cycle
limit (R259). -/
def endCycle (stalled : Option StallReason) (s : State) : State :=
  let t := { s with cycle := s.cycle + 1 }
  if t.halted then t
  else if t.drained then { t with status := .haltedNormal }
  else if t.limitReached then t.raise cycleLimitRecord
  else
    match stalled with
    | some reason => { t with status := .stalled reason }
    | none => { t with status := .running }

/-! ## One cycle (R252) -/

/-- What follows the execute phase: dispatch, decode, fetch and the end of the cycle (R252). -/
def afterExecute (s : State) : Host.Outcome State Fault Refusal :=
  if s.halted then .next (endCycle none s)
  else
    andThen (dispatchPhase s) fun f =>
      if f.state.halted || f.stalled.isSome || f.squashed then .next (endCycle f.stalled f.state)
      else .next (endCycle none (frontEnd f.state))

/-- One cycle of a core that is `Running` or `Stalled` (R252). -/
def runCycle (s : State) : Host.Outcome State Fault Refusal := andThen (executePhase s) afterExecute

/-! ## Putting one line at the point of execution

No cycle both fetches a line and runs it (R256). So that the very next cycle runs a given line, the line stands where the
earlier cycles would have brought it (log 8). -/

/-- A running core with an empty pipeline that has just fetched `toks` from `pc`. -/
def State.withFetched (s : State) (toks : Line) : State :=
  { s with
    imem := Memory.insert s.imem s.pc toks
    pc := s.pc + 1
    status := .running
    err := none
    fl := none
    dl := none
    qCompute := []
    qData := []
    qScalar := []
    busy := Scoreboard.free }

/-- Instruction `i`, fetched from `pc`, one cycle before its effect: a `B` in DL, any other as the head of its queue with its
timer one short of its latency. The extension is switched on for an instruction of the extension. -/
def State.withInstr (s : State) (i : Instr) (toks : Line) : State :=
  let t := { s.withFetched toks with cfg := { s.cfg with vdataExt := s.cfg.vdataExt || i.isExtension } }
  let r := makeRecord t.cfg s.pc i
  if i.mnemonic = .b then { t with dl := some r }
  else
    { t.setQueue i.queueClass [{ t.newEntry r with elapsed := r.cycleLatency - 1 }] with
      busy := Scoreboard.free.putAll (markSet i) true }

/-- A line at the point where the next cycle runs it: decoded and in flight, or in FL if the decoder rejects it, so that the
next cycle raises its `DecodeError`. -/
def State.withLine (s : State) (toks : Line) : State :=
  match decodeLine true toks with
  | .ok i => s.withInstr i toks
  | .error _ => { s.withFetched toks with fl := some { p := s.pc, toks := toks } }

end Sys2Proof.Machine
end

