-- ==== Sys2Proof/Machine/Step.lean ====
section
/-! DEFINITION. One step of the model is one clock cycle of the block (`44_pipeline_controller.md` R251). -/

namespace Sys2Proof.Machine

/-- One step. A halted core does not change (R250); an illegal configuration is refused (R314); otherwise one cycle runs
(R252). -/
def step (s : State) : Host.Outcome State Fault Refusal :=
  if s.halted then .next s
  else if legalConfig s.cfg then runCycle s
  else .refused .illegalConfiguration

/-- The state whose very next step runs the line given as bits (log 6, log 8). -/
def State.withFetchWord (s : State) (nbits w : Nat) : State := s.withLine (lineOfWord nbits w)

end Sys2Proof.Machine
end

