-- ==== Sys2Proof/Machine/Boot.lean ====
section
/-! DEFINITION. What the host does before reset is released and after a halt (`00_scope.md` R11, `70_reset_and_hazards.md`
R310 to R314, `20_memory.md` R72, R78) and what it can observe (`10_state.md` R33, R42, `60_exceptions.md` R280, R288).
None of this happens while the core runs (log 10). -/

namespace Sys2Proof.Machine

/-! ## Reset -/

/-- `rst` asserted in any state: every piece of block state takes its reset value, and the memories keep theirs
(R41, R310, R311). The configuration is sampled later, when reset is released (R8). -/
def State.assertReset (s : State) : State :=
  { State.reset with cfg := s.cfg, imem := s.imem, vdm := s.vdm, sdm := s.sdm }

/-- Reset released: the parameters are sampled; an illegal configuration is refused (R8, R310, R314). It does not look at the
memories: a `VDM_SIZE` or `SDM_SIZE` below an index they still list is accepted, and the listed words stay in the host's
view, though no instruction can reach them. DESIGN CHOICE (log 19), unsafe: the spec does not speak of such a release. -/
def State.releaseReset (cfg : Config) (s : State) : Host.Outcome State Fault Refusal :=
  if legalConfig cfg then .next { s with cfg := cfg } else .refused .illegalConfiguration

/-! ## Loading -/

/-- A token is a non-empty string with no whitespace (R60). -/
def legalToken (t : Token) : Bool := !t.isEmpty && t.all fun c => !c.isWhitespace

/-- A program image: every index an entry of IMEM, every token legal (R60). -/
def legalProgram (img : List (Nat × Line)) : Bool :=
  img.all fun x => decide (x.1 < imemSize) && x.2.all legalToken

/-- A data image for a memory of `size` words: every index a word of it, every value in range (R72). -/
def legalImage (size : Nat) (img : List (Nat × Int)) : Bool :=
  img.all fun x => decide (x.1 < size) && inRange32 x.2

/-- IMEM with an image in it; of two lines for one index the later stands (log 15). -/
def loadProgram (img : List (Nat × Line)) : InstrMemory := img.foldl (fun m x => Memory.insert m x.1 x.2) []

/-- A data memory with an image in it; of two words for one index the later stands (log 15). -/
def loadImage (img : List (Nat × Int)) : Memory := img.foldl (fun m x => Memory.write m x.1 (BitVec.ofInt 32 x.2)) []

/-- What the host provides for a run (R312, R313). The register values default to those of R41. -/
structure Launch where
  cfg : Config
  imem : List (Nat × Line) := []
  vdm : List (Nat × Int) := []
  sdm : List (Nat × Int) := []
  sreg : Vector Int 8 := Vector.replicate 8 0
  vreg : Vector (Vector Int 64) 8 := Vector.replicate 8 (Vector.replicate 64 0)
  vmr : Vector Int 64 := Vector.replicate 64 1
  vlr : Int := 64
  deriving DecidableEq, Repr

/-- Every loaded value in range and every index in its memory (R72, R78). -/
def legalLaunch (l : Launch) : Bool :=
  legalProgram l.imem && legalImage l.cfg.vdmSize l.vdm && legalImage l.cfg.sdmSize l.sdm &&
    l.sreg.toList.all inRange32 && l.vreg.toList.all (fun v => v.toList.all inRange32) && l.vmr.toList.all inRange32 &&
    inRange32 l.vlr

/-- The lanes of a sequence of integers in range. -/
def lanesOf (v : Vector Int 64) : Lanes := Vector.ofFn fun l => BitVec.ofInt 32 v[l.val]

/-- The launch state: reset, then the host's loads and register writes, which override the reset values (R312). -/
def launchState (l : Launch) : State :=
  { State.reset with
    cfg := l.cfg
    imem := loadProgram l.imem
    vdm := loadImage l.vdm
    sdm := loadImage l.sdm
    sreg := Vector.ofFn fun i => BitVec.ofInt 32 l.sreg[i.val]
    vreg := Vector.ofFn fun i => lanesOf l.vreg[i.val]
    vmr := lanesOf l.vmr
    vlr := BitVec.ofInt 32 l.vlr }

/-- A launch: refused if it breaks R313 (R72, R314), otherwise the state before cycle 0 (R251, R310). -/
def boot (l : Launch) : Host.Outcome State Fault Refusal :=
  if !legalConfig l.cfg then .refused .illegalConfiguration
  else if !legalLaunch l then .refused .illegalLaunch
  else .next (launchState l)

/-! ## The register-file storage port (R78) -/

/-- `Read(index)`: the lane values of a register. -/
def hostRead (x : RegName) (s : State) : List Int :=
  match x with
  | .scalar i => [(s.readS i).toInt]
  | .vector i => (s.readV i).toList.map BitVec.toInt
  | .mask => s.vmr.toList.map BitVec.toInt
  | .length => [s.vlr.toInt]

/-- The lanes of a list of 64 integers in range, `none` for any other list. -/
def lanesOfList (vals : List Int) : Option Lanes :=
  if vals.length = 64 ∧ vals.all inRange32 then some (Vector.ofFn fun l => BitVec.ofInt 32 (vals.getD l.val 0)) else none

/-- `Write(index, values)`: the state with the register written, or `none` if the values are not one in-range value for
each of its lanes. The host may do this only before reset is released or after a halt (R78). -/
def hostWrite (x : RegName) (vals : List Int) (s : State) : Option State :=
  match x with
  | .vector i => (lanesOfList vals).map fun v => s.writeV i v
  | .mask => (lanesOfList vals).map fun v => { s with vmr := v }
  | .scalar i =>
    match vals with
    | [v] => if inRange32 v then some (s.writeS i (BitVec.ofInt 32 v)) else none
    | _ => none
  | .length =>
    match vals with
    | [v] => if inRange32 v then some (s.writeVlr (BitVec.ofInt 32 v)) else none
    | _ => none

/-! ## Outputs (R33, R42, R263, R280, R288) -/

/-- The status code of R33. -/
def statusCode (st : Status) : Nat :=
  match st with
  | .running => 0
  | .stalled .registerBusy => 1
  | .stalled .queueFull => 2
  | .haltedNormal => 3
  | .haltedError => 4

/-- The error code of R280. -/
def errorCode (k : ErrorKind) : Nat :=
  match k with
  | .decodeError => 1
  | .hazardViolation => 2
  | .memoryFault => 3
  | .arithmeticFault => 4
  | .cycleLimitExceeded => 5

/-- Whether the host's exit status is zero, once the core has halted (R288). -/
def exitsZero (st : Status) : Option Bool :=
  match st with
  | .haltedNormal => some true
  | .haltedError => some false
  | .running => none
  | .stalled _ => none

/-- What the host observes after a halt (R42). -/
structure HostView where
  sreg : Vector Word 8
  vreg : Vector Lanes 8
  vmr : Lanes
  vlr : Word
  vdm : Memory
  sdm : Memory
  status : Status
  err : Option ErrorRecord
  cycle : Nat
  pc : Nat
  deriving DecidableEq, Repr

/-- The host's view of a state (R42); latches, queues and scoreboard are internal. -/
def hostView (s : State) : HostView where
  sreg := s.sreg
  vreg := s.vreg
  vmr := s.vmr
  vlr := s.vlr
  vdm := s.vdm
  sdm := s.sdm
  status := s.status
  err := s.err
  cycle := s.cycle
  pc := s.pc

end Sys2Proof.Machine
end

