-- ==== Sys2Proof/Machine/Seq.lean ====
section
/-! DEFINITION. SEQ, the sequential reference semantics (`70_reset_and_hazards.md` R322): one line at a time, each
instruction complete before the next is decoded. It runs on states whose latches and queues are empty, where the meanings
take snapshots and index from the state itself (log 7). -/

namespace Sys2Proof.Machine

/-- The next `pc` of SEQ after an instruction that has not stopped it: `B` has set it, the others go on to the next line. -/
def seqAdvance (i : Instr) (s : State) : State :=
  if i.mnemonic = .b then s else { s with pc := s.pc + 1 }

/-- One round of SEQ's loop (R322): stop normally past the last line, stop with `DecodeError`, or run the line's instruction;
a fault of the instruction stops SEQ with its record. -/
def seqStep (s : State) : Host.Outcome State Fault Refusal :=
  if s.halted then .next s
  else if s.pc < s.progLen then
    match Memory.lookup s.imem s.pc with
    | none => .next s
    | some toks =>
      match decode s.cfg s.pc toks with
      | .rejected d => .next (s.raise (decodeErrorRecord s.pc toks d))
      | .accepted r => andThen (exec r.instr s) fun t => if t.halted then .next t else .next (seqAdvance r.instr t)
  else .next { s with status := .haltedNormal }

/-- `n` rounds of SEQ. -/
def seqRun : Nat → State → Host.Outcome State Fault Refusal
  | 0, s => .next s
  | n + 1, s => andThen (seqStep s) (seqRun n)

/-- `n` cycles of the pipelined core. -/
def run : Nat → State → Host.Outcome State Fault Refusal
  | 0, s => .next s
  | n + 1, s => andThen (step s) (run n)

end Sys2Proof.Machine
end

