-- ==== Sys2Proof/Safety.lean ====
section
/-! DEFINITION. What the claims are stated in: the safe states of a run, and the invariants the rules give the state. -/

namespace Sys2Proof.Machine

/-- A run is safe as long as no error has halted it (R262, R280). -/
def State.safe (s : State) : Prop := s.status ≠ .haltedError

/-- Every entry in flight, unit by unit (R134). -/
def State.inFlight (s : State) : List Entry := s.qCompute ++ s.qData ++ s.qScalar

/-- How many entries in flight have `x` in their marked set (R134). -/
def State.holders (s : State) (x : RegName) : Nat :=
  s.inFlight.countP fun e => decide (x ∈ markSet e.record.instr)

/-- A register is busy iff exactly one entry in flight holds it, and free iff none does (R134). -/
def ScoreboardExact (s : State) : Prop := ∀ x : RegName, s.holders x = if s.busy.get x then 1 else 0

/-- No queue holds more than its capacity (R36). -/
def QueuesBounded (s : State) : Prop := ∀ c : QueueClass, (s.queue c).length ≤ s.cap c

/-- Each queue holds entries of its own class only (R128, R190). -/
def ClassesMatch (s : State) : Prop := ∀ c : QueueClass, ∀ e ∈ s.queue c, e.record.instr.queueClass = c

/-- A record is what the decoder makes of the program's line at its index (R96). -/
def FromProgram (s : State) (r : Record) : Prop :=
  r.p < s.progLen ∧ ∃ toks, Memory.lookup s.imem r.p = some toks ∧ decode s.cfg r.p toks = .accepted r

/-- The latches hold what fetch and decode put there: FL the line just before `pc`, DL the record of the line just before
that, or just before `pc` when FL is empty (R34, R35, R232, R257). -/
def LatchesOrdered (s : State) : Prop :=
  (∀ f, s.fl = some f → f.p + 1 = s.pc ∧ f.p < s.progLen ∧ Memory.lookup s.imem f.p = some f.toks) ∧
    ∀ r, s.dl = some r → FromProgram s r ∧ r.p + 1 = (match s.fl with | some f => f.p | none => s.pc)

/-- An entry comes from the program and holds exactly the snapshots of its class (R37, R125). -/
def EntryOk (s : State) (e : Entry) : Prop :=
  FromProgram s e.record ∧ e.snapVL.isSome = capturesVL e.record.instr ∧ e.snapVLR.isSome = capturesVLR e.record.instr ∧
    e.snapMask.isSome = capturesMask e.record.instr ∧ ∀ n, e.snapVL = some n → n ≤ mvl

/-- Every entry in flight is as R37 says. -/
def EntriesOk (s : State) : Prop := ∀ e ∈ s.inFlight, EntryOk s e

/-- Only the head's timer has run, and it has not passed its latency (R132). While the core runs it is below it; a head whose
completion raised keeps the full count. -/
def TimersOk (s : State) : Prop :=
  ∀ c : QueueClass, (∀ e ∈ (s.queue c).tail, e.elapsed = 0) ∧
    ∀ e, (s.queue c).head? = some e →
      e.elapsed ≤ e.record.cycleLatency ∧ (s.halted = false → e.elapsed < e.record.cycleLatency)

/-- The error record is there iff the core has halted on an error (R39). -/
def ErrorMatchesStatus (s : State) : Prop := s.err.isSome = true ↔ s.status = .haltedError

/-- `pc` stays in `[0, IMEM_SIZE]` (R30). -/
def PcInRange (s : State) : Prop := s.pc ≤ imemSize

/-- Each memory is in its canonical form and lists no index outside it (R60, R64, R66, R70). -/
def MemoriesOk (s : State) : Prop :=
  InstrMemory.wf s.imem ∧ (∀ x ∈ s.imem, x.1 < imemSize) ∧ Memory.wf s.vdm ∧ (∀ x ∈ s.vdm, x.1 < s.cfg.vdmSize) ∧
    Memory.wf s.sdm ∧ ∀ x ∈ s.sdm, x.1 < s.cfg.sdmSize

/-- A core that halted normally has drained (R260). -/
def NormalHaltDrained (s : State) : Prop := s.status = .haltedNormal → s.drained = true

/-- All of the above, with a legal configuration (R313). -/
structure Inv (s : State) : Prop where
  config : legalConfig s.cfg = true
  scoreboard : ScoreboardExact s
  queues : QueuesBounded s
  classes : ClassesMatch s
  latches : LatchesOrdered s
  entries : EntriesOk s
  timers : TimersOk s
  error : ErrorMatchesStatus s
  pc : PcInRange s
  memories : MemoriesOk s
  drained : NormalHaltDrained s

/-- A core that is about to fetch with nothing in flight: latches and queues empty, every register free. -/
structure Idle (s : State) : Prop where
  running : s.status = .running
  noError : s.err = none
  fl : s.fl = none
  dl : s.dl = none
  compute : s.qCompute = []
  data : s.qData = []
  scalar : s.qScalar = []
  free : s.busy = Scoreboard.free

/-! ## The shapes of an instruction's result -/

/-- Every word of both data memories reads as before. -/
def SameMemory (s t : State) : Prop :=
  (∀ a, Memory.read t.vdm a = Memory.read s.vdm a) ∧ ∀ a, Memory.read t.sdm a = Memory.read s.sdm a

/-- The outcome is a next state in which the active lanes of `V[d]` hold `val`, and nothing else has changed: no other lane,
no other register, no memory word, no other part of the state. -/
def WritesActiveLanes (o : Host.Outcome State Fault Refusal) (s : State) (c : QueueClass) (d : VReg)
    (val : Fin 64 → Int) : Prop :=
  ∃ t, o = .next t ∧ t = { s with vreg := t.vreg } ∧ SameMemory s t ∧ (∀ r, r ≠ d → t.readV r = s.readV r) ∧
    ∀ l, (s.active c l = true → (t.lane d l).toInt = val l) ∧ (s.active c l = false → t.lane d l = s.lane d l)

/-- The outcome is a next state that differs in nothing but a new value of `S[d]`, which is `val`. -/
def WritesScalar (o : Host.Outcome State Fault Refusal) (s : State) (d : SReg) (val : Int) : Prop :=
  ∃ t, o = .next t ∧ t = { s with sreg := t.sreg } ∧ SameMemory s t ∧ (∀ r, r ≠ d → t.readS r = s.readS r) ∧
    (t.readS d).toInt = val

/-- The outcome is the next state in which the core has halted on the error `info`, and nothing else has changed (R288). -/
def HaltsWith (o : Host.Outcome State Fault Refusal) (s : State) (info : ErrorRecord) : Prop :=
  o = .next { s with status := .haltedError, err := some info }

/-- `l` is the lowest active lane for which `bad` holds (R150, R194). -/
def LowestActive (s : State) (c : QueueClass) (bad : Fin 64 → Prop) (l : Fin 64) : Prop :=
  s.active c l = true ∧ bad l ∧ ∀ k, k < l → s.active c k = true → ¬ bad k

/-- What the six range-checked instructions do with the exact values `val`: write them, or fault on the lowest active lane
whose value is outside 32 bits (R150, R152). -/
def WritesOrOverflows (o : Host.Outcome State Fault Refusal) (s : State) (m : Mnemonic) (d : VReg)
    (val : Fin 64 → Int) : Prop :=
  ((∀ l, s.active .vectorCompute l = true → inRange32 (val l) = true) →
      WritesActiveLanes o s .vectorCompute d val) ∧
    ∀ l, LowestActive s .vectorCompute (fun k => inRange32 (val k) = false) l →
      HaltsWith o s
        { kind := .arithmeticFault, p := some (s.headIndex .vectorCompute), toks := none, mnemonic := some m, addr := none,
          lane := some l.val, detail := some .overflow }

/-- The quotient of R153 for a divisor that is not 0. -/
def quotientOf (round : DivRound) (a b : Int) : Int :=
  match round with
  | .towardZero => Int.tdiv a b
  | .floor => Int.fdiv a b

/-- The two divisions that fault (R153): by zero, and `INT_MIN` by -1. -/
def DivisionFaults (a b : Int) : Prop := b = 0 ∨ (a = intMin ∧ b = -1)

/-- What a division does with dividends `a` and divisors `b`: write the quotients, or fault on the lowest active lane whose
division faults (R150, R153). -/
def DividesOrFaults (o : Host.Outcome State Fault Refusal) (s : State) (m : Mnemonic) (d : VReg)
    (a b : Fin 64 → Int) : Prop :=
  ((∀ l, s.active .vectorCompute l = true → ¬ DivisionFaults (a l) (b l)) →
      WritesActiveLanes o s .vectorCompute d fun l => quotientOf s.cfg.divRound (a l) (b l)) ∧
    ∀ l, LowestActive s .vectorCompute (fun k => DivisionFaults (a k) (b k)) l →
      HaltsWith o s
        { kind := .arithmeticFault, p := some (s.headIndex .vectorCompute), toks := none, mnemonic := some m, addr := none,
          lane := some l.val, detail := some (if b l = 0 then .divideByZero else .overflow) }

/-- The address is no word of VDM (R65). -/
def OutsideVdm (s : State) (a : Int) : Prop := a < 0 ∨ (s.cfg.vdmSize : Int) ≤ a

/-- What a load or store does when an active lane's address is outside VDM: fault on the lowest such lane, with no access
(R193, R194). -/
def FaultsOutsideVdm (o : Host.Outcome State Fault Refusal) (s : State) (m : Mnemonic) (addr : Fin 64 → Int) : Prop :=
  ∀ l, LowestActive s .vectorData (fun k => OutsideVdm s (addr k)) l →
    HaltsWith o s
      { kind := .memoryFault, p := some (s.headIndex .vectorData), toks := none, mnemonic := some m,
        addr := some (addr l), lane := some l.val, detail := some .dataAddress }

/-- What a load does (R193). -/
def LoadsOrFaults (o : Host.Outcome State Fault Refusal) (s : State) (m : Mnemonic) (d : VReg)
    (addr : Fin 64 → Int) : Prop :=
  ((∀ l, s.active .vectorData l = true → ¬ OutsideVdm s (addr l)) →
      WritesActiveLanes o s .vectorData d fun l => (Memory.read s.vdm (addr l).toNat).toInt) ∧
    FaultsOutsideVdm o s m addr

/-- What a store does (R193, R195): the word at an active lane's address holds the value of the highest active lane with that
address; every other word, and everything else, is unchanged. -/
def StoresOrFaults (o : Host.Outcome State Fault Refusal) (s : State) (m : Mnemonic) (v : VReg)
    (addr : Fin 64 → Int) : Prop :=
  ((∀ l, s.active .vectorData l = true → ¬ OutsideVdm s (addr l)) →
      ∃ t, o = .next t ∧ t = { s with vdm := t.vdm } ∧
        (∀ l, s.active .vectorData l = true → (∀ k, l < k → s.active .vectorData k = true → addr k ≠ addr l) →
          Memory.read t.vdm (addr l).toNat = s.lane v l) ∧
        ∀ a : Nat, (∀ l, s.active .vectorData l = true → addr l ≠ (a : Int)) →
          Memory.read t.vdm a = Memory.read s.vdm a) ∧
    FaultsOutsideVdm o s m addr

/-- The number that a list of decimal digits spells. -/
def decimalValue (ds : List Char) : Nat := Nat.ofDigits 10 (ds.reverse.map fun c => c.toNat - 48)

/-- One or more ASCII decimal digits and nothing else (R84, R86). -/
def IsDecimal (ds : List Char) : Prop := ds ≠ [] ∧ ∀ c ∈ ds, 48 ≤ c.toNat ∧ c.toNat ≤ 57

/-- How many vector-register tokens a format has; they come before its scalar-register tokens (R82, R88). -/
def vectorPositions (f : Format) : Nat :=
  match f with
  | .vvv => 3
  | .vvs => 2
  | .s => 0
  | .br => 0
  | .vs => 1
  | .vss => 1

/-- How many scalar-register tokens a format has (R82, R88). -/
def scalarPositions (f : Format) : Nat :=
  match f with
  | .vvv => 0
  | .vvs => 1
  | .s => 1
  | .br => 0
  | .vs => 1
  | .vss => 2

/-- What an image gives index `a`: its last entry for `a`, if it has one (log 15). -/
def lastEntry {α : Type} (img : List (Nat × α)) (a : Nat) : Option α :=
  (img.reverse.find? fun x => decide (x.1 = a)).map Prod.snd

/-- The head of `Q[c]` is `e`, and this cycle is the one in which its timer reaches its latency (R132). -/
def HeadDue (s : State) (c : QueueClass) (e : Entry) : Prop :=
  (s.queue c).head? = some e ∧ e.elapsed + 1 = e.record.cycleLatency

end Sys2Proof.Machine
end

