-- ==== Sys2Proof/Certificates/Slice0/Obligations.lean ====
section
/-! DEFINITION. What is to be proved of the model: its encodings, its instructions, its units, its steps and its runs. -/

open Sys2Proof Sys2Proof.Machine

/-- In the order of their id, the 20 mnemonics have the spelling, format, token count and queue class of the table of R82,
and the last four, and only they, belong to the extension. (Derived from 30_encoding.md R82.) -/
def Obligations.OpcodeMapHasTheTwentyRows : Prop :=
  Mnemonic.all.map (fun m => (m.token, m.format, m.format.tokenCount, m.queueClass, m.isExtension)) =
    ([(['A', 'D', 'D', 'V', 'V'], .vvv, 4, .vectorCompute, false),
      (['S', 'U', 'B', 'V', 'V'], .vvv, 4, .vectorCompute, false),
      (['M', 'U', 'L', 'V', 'V'], .vvv, 4, .vectorCompute, false),
      (['D', 'I', 'V', 'V', 'V'], .vvv, 4, .vectorCompute, false),
      (['U', 'N', 'P', 'A', 'C', 'K', 'L', 'O'], .vvv, 4, .vectorCompute, false),
      (['U', 'N', 'P', 'A', 'C', 'K', 'H', 'I'], .vvv, 4, .vectorCompute, false),
      (['P', 'A', 'C', 'K', 'L', 'O'], .vvv, 4, .vectorCompute, false),
      (['P', 'A', 'C', 'K', 'H', 'I'], .vvv, 4, .vectorCompute, false),
      (['A', 'D', 'D', 'V', 'S'], .vvs, 4, .vectorCompute, false),
      (['S', 'U', 'B', 'V', 'S'], .vvs, 4, .vectorCompute, false)] ++
     [(['M', 'U', 'L', 'V', 'S'], .vvs, 4, .vectorCompute, false),
      (['D', 'I', 'V', 'V', 'S'], .vvs, 4, .vectorCompute, false),
      (['P', 'O', 'P'], .s, 2, .scalarOps, false),
      (['M', 'T', 'C', 'L'], .s, 2, .scalarOps, false),
      (['M', 'F', 'C', 'L'], .s, 2, .scalarOps, false),
      (['B'], .br, 2, .scalarOps, false),
      (['L', 'V'], .vs, 3, .vectorData, true),
      (['S', 'V'], .vs, 3, .vectorData, true),
      (['L', 'V', 'W', 'S'], .vss, 4, .vectorData, true),
      (['S', 'V', 'W', 'S'], .vss, 4, .vectorData, true)] :
      List (Token × Format × Nat × QueueClass × Bool))

/-- Thirteen lines written out from the decode examples, at least one for every family of the opcode map, decode to the
instruction or the error detail the spec gives. (Derived from 30_encoding.md section 6; 95_test_vectors.md V-DE1 to
V-DE8.) -/
def Obligations.SpecExampleLinesDecode : Prop :=
  decodeLine false [['A', 'D', 'D', 'V', 'V'], ['V', 'R', '0'], ['V', 'R', '1'], ['V', 'R', '2']] = .ok (.addvv 0 1 2) ∧
  decodeLine false [['D', 'I', 'V', 'V', 'S'], ['V', 'R', '7'], ['V', 'R', '0'], ['S', 'R', '7']] = .ok (.divvs 7 0 7) ∧
  decodeLine false [['M', 'T', 'C', 'L'], ['S', 'R', '0']] = .ok (.mtcl 0) ∧
  decodeLine false [['B'], ['-', '2']] = .ok (.b (-2)) ∧
  decodeLine false [['B'], ['+', '0']] = .ok (.b 0) ∧
  decodeLine true [['S', 'V', 'W', 'S'], ['V', 'R', '1'], ['S', 'R', '0'], ['S', 'R', '1']] = .ok (.svws 1 0 1) ∧
  decodeLine false [['A', 'D', 'D', 'V', 'V'], ['V', 'R', '0', '3'], ['V', 'R', '1'], ['V', 'R', '2']] = .ok (.addvv 3 1 2) ∧
  decodeLine true [['L', 'V'], ['V', 'R', '1'], ['S', 'R', '0']] = .ok (.lv 1 0) ∧
  decodeLine false [['L', 'V'], ['V', 'R', '1'], ['S', 'R', '0']] = .error .unknownMnemonic ∧
  decodeLine false [['A', 'D', 'D', 'V', 'V'], ['V', 'R', '8'], ['V', 'R', '1'], ['V', 'R', '2']] = .error .malformedOperand ∧
  decodeLine false [['A', 'D', 'D', 'V', 'V'], ['V', '0'], ['V', '1'], ['V', '2']] = .error .malformedOperand ∧
  decodeLine false [['a', 'd', 'd', 'v', 'v'], ['V', 'R', '0'], ['V', 'R', '1'], ['V', 'R', '2']] = .error .unknownMnemonic ∧
  decodeLine false [['B'], ['2', '1', '4', '7', '4', '8', '3', '6', '4', '8']] = .error .malformedOperand

/-- After an enabled mnemonic is accepted, a line whose token count is not that of its format, whatever its operand
tokens, is DecodeError with detail MalformedOperand. (R83.) -/
def Obligations.WrongTokenCountIsMalformed : Prop :=
  ∀ (ext : Bool) (m : Mnemonic) (ops : List Token), (m.isExtension = true → ext = true) →
    ops.length + 1 ≠ m.format.tokenCount → decodeLine ext (m.token :: ops) = .error .malformedOperand

/-- The decoder answers UnknownMnemonic exactly when the line is empty, when its first token equals no mnemonic, or when
it equals an extension mnemonic and the extension is off; a line that decodes begins with the spelling of its
instruction, which is enabled. (R81.) -/
def Obligations.UnknownMnemonicInExactlyThreeCases : Prop :=
  (∀ (ext : Bool) (toks : Line), decodeLine ext toks = .error .unknownMnemonic ↔
    toks = [] ∨ ∃ t ops, toks = t :: ops ∧ ∀ m : Mnemonic, m.token = t → m.isExtension = true ∧ ext = false) ∧
  ∀ (ext : Bool) (toks : Line) (i : Instr), decodeLine ext toks = .ok i →
    toks.head? = some i.mnemonic.token ∧ (i.mnemonic.isExtension = true → ext = true)

/-- An accepted instruction is well-formed for the extension switch and the line has the token count of its format; a
rejected line has detail UnknownMnemonic or MalformedOperand; the record of an accepted line has its index, the
latency of its mnemonic and empty address sequences. (Derived from 30_encoding.md sections 1 and 3.) -/
def Obligations.DecodedLinesAreWellFormed : Prop :=
  (∀ (ext : Bool) (toks : Line) (i : Instr), decodeLine ext toks = .ok i →
    i.wellFormed ext = true ∧ toks.length = i.mnemonic.format.tokenCount) ∧
  (∀ (ext : Bool) (toks : Line) (d : Detail), decodeLine ext toks = .error d →
    d = .unknownMnemonic ∨ d = .malformedOperand) ∧
  ∀ (c : Config) (p : Nat) (toks : Line) (r : Record), decode c p toks = .accepted r →
    decodeLine c.vdataExt toks = .ok r.instr ∧ r.p = p ∧ r.cycleLatency = c.latency r.instr.mnemonic ∧
      r.scalarMemAddrs = [] ∧ r.vectorMemAddrs = []

/-- A token reads as vector register n exactly when it is the characters V R followed by one or more decimal digits that
spell n (leading zeros allowed), and as scalar register n exactly when it is S R followed by such digits. In a line of
any enabled mnemonic but B, with as many tokens for vector and then for scalar positions as its format has, an operand
token that does not read so for its position makes the line MalformedOperand, and otherwise the line decodes to the
instruction of that mnemonic with the registers read, in token order. A line that decodes to an instruction other than
B is its mnemonic, then tokens that read as its vector registers, then tokens that read as its scalar registers.
(Derived from 30_encoding.md R82, R84 and R85; 30_encoding.md R88 and R97.) -/
def Obligations.RegisterTokensArePrefixAndDecimalIndex : Prop :=
  (∀ (t : Token) (n : VReg), parseVector t = some n ↔
    ∃ ds, t = 'V' :: 'R' :: ds ∧ IsDecimal ds ∧ decimalValue ds = n.val) ∧
  (∀ (t : Token) (n : SReg), parseScalar t = some n ↔
    ∃ ds, t = 'S' :: 'R' :: ds ∧ IsDecimal ds ∧ decimalValue ds = n.val) ∧
  (∀ (ext : Bool) (m : Mnemonic) (vts sts : List Token), (m.isExtension = true → ext = true) → m ≠ .b →
    vts.length = vectorPositions m.format → sts.length = scalarPositions m.format →
    ((∃ t ∈ vts, parseVector t = none) ∨ (∃ t ∈ sts, parseScalar t = none) →
      decodeLine ext (m.token :: (vts ++ sts)) = .error .malformedOperand) ∧
    ∀ (vs : List VReg) (ss : List SReg), vts.map parseVector = vs.map some → sts.map parseScalar = ss.map some →
      ∃ i, decodeLine ext (m.token :: (vts ++ sts)) = .ok i ∧ i.mnemonic = m ∧ i.vectorRegs = vs ∧ i.scalarRegs = ss) ∧
  ∀ (ext : Bool) (toks : Line) (i : Instr), decodeLine ext toks = .ok i → i.mnemonic ≠ .b →
    ∃ vts sts, toks = i.mnemonic.token :: (vts ++ sts) ∧ vts.map parseVector = i.vectorRegs.map some ∧
      sts.map parseScalar = i.scalarRegs.map some

/-- The line B tok decodes to the branch with offset v exactly when v is in the 32-bit range and tok is decimal digits
spelling v, with an optional plus sign, or a minus sign and digits spelling -v; any other token makes it
MalformedOperand. (R86.) -/
def Obligations.BranchOffsetTokensAreSignedDecimals : Prop :=
  ∀ (ext : Bool) (tok : Token),
    (∀ v : Int, decodeLine ext [['B'], tok] = .ok (.b v) ↔
      inRange32 v = true ∧ ∃ ds, IsDecimal ds ∧
        (((tok = ds ∨ tok = '+' :: ds) ∧ v = (decimalValue ds : Int)) ∨
          (tok = '-' :: ds ∧ v = -(decimalValue ds : Int)))) ∧
    ((∀ v : Int, decodeLine ext [['B'], tok] ≠ .ok (.b v)) →
      decodeLine ext [['B'], tok] = .error .malformedOperand)

/-- For every instruction that is well-formed for the extension switch, with every register number and every 32-bit branch
offset, decoding the line the encoder writes gives exactly that instruction. (Derived from 30_encoding.md sections 1
and 2.) -/
def Obligations.DecodeOfEncodeIsTheInstruction : Prop :=
  ∀ (ext : Bool) (i : Instr), i.wellFormed ext = true → decodeLine ext (encode i) = .ok i

/-- When every active lane's exact sum, difference or product is in the 32-bit range, ADDVV, SUBVV and MULVV answer the
next state in which each active lane of V[d] holds it, and nothing else has changed, whether or not d equals a source;
otherwise the core halts with ArithmeticFault(Overflow) of the lowest active lane out of range, and nothing else has
changed. The operands are vectorRegs in order, in format VVV. (R156, R157, R158.) -/
def Obligations.VectorVectorArithmeticIsExactOrFaults : Prop :=
  ∀ (s : State) (d s1 s2 : VReg),
    (WritesOrOverflows (exec (.addvv d s1 s2) s) s .addvv d fun l => (s.lane s1 l).toInt + (s.lane s2 l).toInt) ∧
    (WritesOrOverflows (exec (.subvv d s1 s2) s) s .subvv d fun l => (s.lane s1 l).toInt - (s.lane s2 l).toInt) ∧
    (WritesOrOverflows (exec (.mulvv d s1 s2) s) s .mulvv d fun l => (s.lane s1 l).toInt * (s.lane s2 l).toInt) ∧
    [Instr.addvv d s1 s2, .subvv d s1 s2, .mulvv d s1 s2].map Instr.mnemonic = Mnemonic.all.take 3 ∧
    ∀ i ∈ [Instr.addvv d s1 s2, .subvv d s1 s2, .mulvv d s1 s2],
      i.mnemonic.format = .vvv ∧ i.vectorRegs = [d, s1, s2]

/-- When no active lane divides by 0 or divides INT_MIN by -1, DIVVV and DIVVS answer the next state in which each active
lane of V[d] holds the quotient in the configured rounding, and nothing else has changed; otherwise the core halts
with ArithmeticFault of the lowest such lane, DivideByZero for a zero divisor and Overflow for INT_MIN / -1, and
nothing else has changed. In DIVVS the vector lane is the dividend and S[t] the divisor. The two roundings differ
exactly when the operands have opposite signs and the divisor does not divide the dividend. (R153, R159, R168.) -/
def Obligations.DivisionWritesQuotientsOrFaults : Prop :=
  ∀ (s : State) (d v1 v2 : VReg) (t : SReg),
    DividesOrFaults (exec (.divvv d v1 v2) s) s .divvv d (fun l => (s.lane v1 l).toInt) (fun l => (s.lane v2 l).toInt) ∧
    DividesOrFaults (exec (.divvs d v1 t) s) s .divvs d (fun l => (s.lane v1 l).toInt) (fun _ => (s.readS t).toInt) ∧
    Mnemonic.all[3]? = some (Instr.divvv d v1 v2).mnemonic ∧ Mnemonic.all[11]? = some (Instr.divvs d v1 t).mnemonic ∧
    (Instr.divvv d v1 v2).mnemonic.format = .vvv ∧ (Instr.divvv d v1 v2).vectorRegs = [d, v1, v2] ∧
    (Instr.divvs d v1 t).mnemonic.format = .vvs ∧ (Instr.divvs d v1 t).vectorRegs = [d, v1] ∧
    (Instr.divvs d v1 t).scalarRegs = [t] ∧
    ∀ a b : Int, quotientOf .towardZero a b ≠ quotientOf .floor a b ↔
      ((a < 0 ∧ 0 < b) ∨ (0 < a ∧ b < 0)) ∧ ¬ b ∣ a

/-- When every active lane's exact sum, difference (vector lane minus scalar) or product with S[t] is in the 32-bit range,
ADDVS, SUBVS and MULVS answer the next state in which each active lane of V[d] holds it, and nothing else has changed;
otherwise the core halts with ArithmeticFault(Overflow) of the lowest active lane out of range. (R165, R166, R167.) -/
def Obligations.VectorScalarArithmeticIsExactOrFaults : Prop :=
  ∀ (s : State) (d v : VReg) (t : SReg),
    (WritesOrOverflows (exec (.addvs d v t) s) s .addvs d fun l => (s.lane v l).toInt + (s.readS t).toInt) ∧
    (WritesOrOverflows (exec (.subvs d v t) s) s .subvs d fun l => (s.lane v l).toInt - (s.readS t).toInt) ∧
    (WritesOrOverflows (exec (.mulvs d v t) s) s .mulvs d fun l => (s.lane v l).toInt * (s.readS t).toInt) ∧
    [Instr.addvs d v t, .subvs d v t, .mulvs d v t].map Instr.mnemonic = (Mnemonic.all.drop 8).take 3 ∧
    ∀ i ∈ [Instr.addvs d v t, .subvs d v t, .mulvs d v t],
      i.mnemonic.format = .vvs ∧ i.vectorRegs = [d, v] ∧ i.scalarRegs = [t] ∧ .scalar t ∈ markSet i

/-- In every state UNPACKLO, UNPACKHI, PACKLO and PACKHI answer a next state in which each active lane of V[d] holds the
old value of the source lane the rule names (interleaved low or high halves, packed even or odd lanes, over the full
64 lanes), and nothing else has changed, whether or not d equals a source. (R160, R161, R162, R163.) -/
def Obligations.PermutesMoveLanesAndNeverFault : Prop :=
  ∀ (s : State) (d s1 s2 : VReg),
    (WritesActiveLanes (exec (.unpacklo d s1 s2) s) s .vectorCompute d fun l =>
      (if l.val % 2 = 0 then s.lane s1 (Fin.ofNat 64 (l.val / 2)) else s.lane s2 (Fin.ofNat 64 (l.val / 2))).toInt) ∧
    (WritesActiveLanes (exec (.unpackhi d s1 s2) s) s .vectorCompute d fun l =>
      (if l.val % 2 = 0 then s.lane s1 (Fin.ofNat 64 (32 + l.val / 2))
        else s.lane s2 (Fin.ofNat 64 (32 + l.val / 2))).toInt) ∧
    (WritesActiveLanes (exec (.packlo d s1 s2) s) s .vectorCompute d fun l =>
      (if l.val < 32 then s.lane s1 (Fin.ofNat 64 (2 * l.val))
        else s.lane s2 (Fin.ofNat 64 (2 * (l.val - 32)))).toInt) ∧
    (WritesActiveLanes (exec (.packhi d s1 s2) s) s .vectorCompute d fun l =>
      (if l.val < 32 then s.lane s1 (Fin.ofNat 64 (2 * l.val + 1))
        else s.lane s2 (Fin.ofNat 64 (2 * (l.val - 32) + 1))).toInt) ∧
    [Instr.unpacklo d s1 s2, .unpackhi d s1 s2, .packlo d s1 s2, .packhi d s1 s2].map Instr.mnemonic =
      (Mnemonic.all.drop 4).take 4 ∧
    ∀ i ∈ [Instr.unpacklo d s1 s2, .unpackhi d s1 s2, .packlo d s1 s2, .packhi d s1 s2],
      i.mnemonic.format = .vvv ∧ i.vectorRegs = [d, s1, s2]

/-- A lane is active for a unit exactly when it lies below the snapVL and is true in the snapMask of the unit's head
entry; for an entry just made by dispatch that is below the clamped VLR and nonzero in VMR; and each of the 12 Vector-
Compute instructions with no active lane answers the unchanged state. (Derived from 41_vector_compute.md R151;
40_dispatch_scoreboard.md R125.) -/
def Obligations.ActiveLanesComeFromTheSnapshots : Prop :=
  (∀ (s : State) (c : QueueClass) (e : Entry) (rest : List Entry) (vl : Nat) (m : Mask) (l : Fin 64),
    s.queue c = e :: rest → e.snapVL = some vl → e.snapMask = some m →
      (s.active c l = true ↔ l.val < vl ∧ m[l.val] = true)) ∧
  (∀ (s t : State) (c : QueueClass) (r : Record) (rest : List Entry) (l : Fin 64),
    capturesVL r.instr = true → t.queue c = s.newEntry r :: rest →
      (t.active c l = true ↔ (l.val : Int) < min (max s.vlr.toInt 0) 64 ∧ s.vmr[l.val].toInt ≠ 0)) ∧
  ∀ (s : State) (i : Instr), i.queueClass = .vectorCompute → (∀ l, s.active .vectorCompute l = false) →
    exec i s = .next s

/-- When every active lane's address S[b] + l (LV) or S[b] + l * S[r] (LVWS) is a word of VDM, the load answers the next
state in which each active lane of V[d] holds the word at its address, and nothing else has changed; otherwise the
core halts with MemoryFault(DataAddress) of the lowest active lane out of bounds, with its address, and nothing else
has changed. Both decode only with the extension on. (R198, R200.) -/
def Obligations.LoadsReadActiveWordsOrFault : Prop :=
  ∀ (s : State) (d : VReg) (b r : SReg),
    (LoadsOrFaults (exec (.lv d b) s) s .lv d fun l => (s.readS b).toInt + (l.val : Int)) ∧
    (LoadsOrFaults (exec (.lvws d b r) s) s .lvws d fun l => (s.readS b).toInt + (l.val : Int) * (s.readS r).toInt) ∧
    Mnemonic.all[16]? = some (Instr.lv d b).mnemonic ∧ Mnemonic.all[18]? = some (Instr.lvws d b r).mnemonic ∧
    (Instr.lv d b).mnemonic.format = .vs ∧ (Instr.lv d b).vectorRegs = [d] ∧ (Instr.lv d b).scalarRegs = [b] ∧
    (Instr.lvws d b r).mnemonic.format = .vss ∧ (Instr.lvws d b r).vectorRegs = [d] ∧
    (Instr.lvws d b r).scalarRegs = [b, r] ∧
    ∀ toks, decodeLine false toks ≠ .ok (.lv d b) ∧ decodeLine false toks ≠ .ok (.lvws d b r)

/-- When every active lane's address S[b] + l (SV) or S[b] + l * S[r] (SVWS) is a word of VDM, the store answers the next
state in which the word at each active lane's address holds the value of the highest active lane with that address,
every other word reads as before, and nothing else has changed; otherwise the core halts with MemoryFault(DataAddress)
of the lowest active lane out of bounds, and nothing else has changed. A load gives every active lane with the same
address the same word. SV and SVWS decode only with the extension on. (R195, R199, R201.) -/
def Obligations.StoresWriteActiveWordsOrFault : Prop :=
  ∀ (s : State) (v : VReg) (b r : SReg),
    (StoresOrFaults (exec (.sv v b) s) s .sv v fun l => (s.readS b).toInt + (l.val : Int)) ∧
    (StoresOrFaults (exec (.svws v b r) s) s .svws v fun l => (s.readS b).toInt + (l.val : Int) * (s.readS r).toInt) ∧
    (∀ t d, exec (.lvws d b r) s = .next t → t.halted = false → ∀ k l : Fin 64,
      s.active .vectorData k = true → s.active .vectorData l = true →
      (s.readS b).toInt + (k.val : Int) * (s.readS r).toInt = (s.readS b).toInt + (l.val : Int) * (s.readS r).toInt →
      t.lane d k = t.lane d l) ∧
    Mnemonic.all[17]? = some (Instr.sv v b).mnemonic ∧ Mnemonic.all[19]? = some (Instr.svws v b r).mnemonic ∧
    (Instr.sv v b).mnemonic.format = .vs ∧ (Instr.sv v b).vectorRegs = [v] ∧ (Instr.sv v b).scalarRegs = [b] ∧
    (Instr.svws v b r).mnemonic.format = .vss ∧ (Instr.svws v b r).vectorRegs = [v] ∧
    (Instr.svws v b r).scalarRegs = [b, r] ∧
    ∀ toks, decodeLine false toks ≠ .ok (.sv v b) ∧ decodeLine false toks ≠ .ok (.svws v b r)

/-- In every state POP answers the next state in which S[d] holds the number of true lanes of the mask captured at
dispatch, over all 64 lanes whatever VLR is, so a number from 0 to 64, and nothing else has changed. When the head
entry of the Scalar-Ops queue captured mask m, the number is that of the true lanes of m; when the captured mask is
that of VMR, the number is that of the nonzero lanes of VMR. (R221.) -/
def Obligations.PopCountsTheTrueMaskLanes : Prop :=
  ∀ (s : State) (d : SReg),
    WritesScalar (exec (.pop d) s) s d
      (((Finset.univ : Finset (Fin 64)).filter fun l => (s.snapMask .scalarOps)[l.val] = true).card : Int) ∧
    (∀ (e : Entry) (rest : List Entry) (m : Mask), s.qScalar = e :: rest → e.snapMask = some m →
      WritesScalar (exec (.pop d) s) s d
        (((Finset.univ : Finset (Fin 64)).filter fun l => m[l.val] = true).card : Int)) ∧
    (s.snapMask .scalarOps = truthMask s.vmr →
      WritesScalar (exec (.pop d) s) s d
        (((Finset.univ : Finset (Fin 64)).filter fun l => s.vmr[l.val].toInt ≠ 0).card : Int)) ∧
    Mnemonic.all[12]? = some (Instr.pop d).mnemonic ∧ (Instr.pop d).mnemonic.format = .s ∧ (Instr.pop d).scalarRegs = [d]

/-- In every state MTCL answers the next state in which VLR holds exactly S[s], whatever its value, and nothing else has
changed; its marked set holds the length register. An MFCL dispatched from that next state returns the same value when
it completes at the head of the Scalar-Ops queue, whatever its value; only the active length that a vector instruction
dispatched from that next state captures is clamped. (R27.) -/
def Obligations.MoveToLengthWritesVlrUnchanged : Prop :=
  ∀ (s : State) (r : SReg),
    exec (.mtcl r) s = .next { s with vlr := s.readS r } ∧ .length ∈ markSet (.mtcl r) ∧
    Mnemonic.all[13]? = some (Instr.mtcl r).mnemonic ∧ (Instr.mtcl r).mnemonic.format = .s ∧ (Instr.mtcl r).scalarRegs = [r] ∧
    ∀ (t : State) (rec : Record), exec (.mtcl r) s = .next t →
      (∀ (u : State) (d : SReg) (rest : List Entry), rec.instr = .mfcl d → u.qScalar = t.newEntry rec :: rest →
        WritesScalar (exec (.mfcl d) u) u d (s.readS r).toInt) ∧
      (capturesVL rec.instr = true →
        (t.newEntry rec).snapVL = some (min (max (s.readS r).toInt 0) 64).toNat)

/-- In every state MFCL answers the next state in which S[d] holds the raw VLR captured when its head entry dispatched,
unclamped, and nothing else has changed. (R223.) -/
def Obligations.MoveFromLengthWritesTheCapturedVlr : Prop :=
  ∀ (s : State) (d : SReg),
    (∀ (e : Entry) (rest : List Entry) (v : Word), s.qScalar = e :: rest → e.snapVLR = some v →
      WritesScalar (exec (.mfcl d) s) s d v.toInt) ∧
    WritesScalar (exec (.mfcl d) s) s d (s.snapVLR .scalarOps).toInt ∧
    Mnemonic.all[14]? = some (Instr.mfcl d).mnemonic ∧ (Instr.mfcl d).mnemonic.format = .s ∧ (Instr.mfcl d).scalarRegs = [d]

/-- With the record of B in DL and target t = p + off, B answers the next state with FL empty and pc = t, and nothing else
changed, when 0 <= t <= 65536; otherwise the core halts with MemoryFault(BranchTarget) and address t, and nothing else
has changed. (Derived from 43_scalar_ops.md R230 and R231.) -/
def Obligations.BranchRedirectsFetchOrFaults : Prop :=
  ∀ (s : State) (r : Record) (off : Int), s.dl = some r → r.instr = .b off →
    ((0 ≤ (r.p : Int) + off ∧ (r.p : Int) + off ≤ 65536) →
      exec (.b off) s = .next { s with fl := none, pc := ((r.p : Int) + off).toNat }) ∧
    (((r.p : Int) + off < 0 ∨ 65536 < (r.p : Int) + off) →
      HaltsWith (exec (.b off) s) s
        { kind := .memoryFault, p := some r.p, toks := none, mnemonic := some .b, addr := some ((r.p : Int) + off),
          lane := none, detail := some .branchTarget })

/-- When DL holds B and the Scalar-Ops queue has room, the cycle after the execute phase does this: a legal target empties
FL and DL, sets pc, appends the entry of B to the Scalar-Ops queue, marks nothing, and goes straight to the end of the
cycle, with no decode and no fetch; an illegal target halts the core with MemoryFault(BranchTarget) and leaves FL, DL,
pc, the queues and everything else but the cycle counter as they were. (R230, R231.) -/
def Obligations.DispatchedBranchSquashesTheFrontEnd : Prop :=
  ∀ (s : State) (r : Record) (off : Int), s.halted = false → s.dl = some r → r.instr = .b off →
    s.qScalar.length < s.cfg.scalarQueueDepth →
    (Mnemonic.all[15]? = some r.instr.mnemonic ∧ r.instr.mnemonic.format = .br) ∧
    ((0 ≤ (r.p : Int) + off ∧ (r.p : Int) + off ≤ 65536) →
      afterExecute s = .next (endCycle none
        { s with
          fl := none, pc := ((r.p : Int) + off).toNat, dl := none
          qScalar := s.qScalar ++ [{ record := r, elapsed := 0, snapVL := none, snapVLR := none, snapMask := none }] })) ∧
    (((r.p : Int) + off < 0 ∨ 65536 < (r.p : Int) + off) →
      afterExecute s = .next
        { s with
          cycle := s.cycle + 1, status := .haltedError
          err := some
            { kind := .memoryFault, p := some r.p, toks := none, mnemonic := some .b, addr := some ((r.p : Int) + off),
              lane := none, detail := some .branchTarget } })

/-- When DL holds a record and a register of its check set is busy, or none is and its queue is full, the cycle after the
execute phase leaves DL, FL, pc, the queues, the scoreboard and everything else but the counter, the status and the
error record unchanged; unless the cycle limit is reached, the status is Stalled with reason RegisterBusy in the first
case and QueueFull in the second, and there is no new error. (Derived from 40_dispatch_scoreboard.md R126, R128 and
R129.) -/
def Obligations.StallHoldsTheFrontEnd : Prop :=
  ∀ (s : State) (r : Record) (reason : StallReason), s.halted = false → s.dl = some r →
    ((reason = .registerBusy ∧ ∃ x ∈ checkSet r.instr, s.busy.get x = true) ∨
      (reason = .queueFull ∧ (∀ x ∈ checkSet r.instr, s.busy.get x = false) ∧
        s.cap r.instr.queueClass ≤ (s.queue r.instr.queueClass).length)) →
    ∃ t, afterExecute s = .next t ∧
      t = { s with cycle := s.cycle + 1, status := t.status, err := t.err } ∧
      ((∀ n, s.cfg.maxCycles = some n → s.cycle + 1 < n) → t.status = .stalled reason ∧ t.err = s.err)

/-- When DL holds a record that is no B, every register of its check set is free and its queue has room, the dispatch
phase sets the busy bits of exactly its marked set, appends the entry made from the current state to the tail of its
queue, empties DL, and changes nothing else. (Derived from 40_dispatch_scoreboard.md R121 and R128.) -/
def Obligations.DispatchMarksSnapshotsAndEnqueues : Prop :=
  ∀ (s : State) (r : Record), s.dl = some r → r.instr.mnemonic ≠ .b →
    (∀ x ∈ checkSet r.instr, s.busy.get x = false) →
    (s.queue r.instr.queueClass).length < s.cap r.instr.queueClass →
    ∃ t, dispatchPhase s = .next { state := t, stalled := none, squashed := false } ∧
      t = { s with qCompute := t.qCompute, qData := t.qData, qScalar := t.qScalar, busy := t.busy, dl := none } ∧
      t.queue r.instr.queueClass = s.queue r.instr.queueClass ++ [s.newEntry r] ∧
      (∀ c, c ≠ r.instr.queueClass → t.queue c = s.queue c) ∧
      ∀ x, t.busy.get x = true ↔ x ∈ markSet r.instr ∨ s.busy.get x = true

/-- An entry made at dispatch holds the clamped VLR and the truth of VMR for a vector instruction, the raw VLR for MFCL,
the truth of VMR for POP, and nothing for MTCL and B, with its timer at 0; the snapshot sources are in the check set
and not in the marked set. (Derived from 40_dispatch_scoreboard.md R125.) -/
def Obligations.DispatchSnapshotsByClass : Prop :=
  ∀ (s : State) (r : Record),
    (s.newEntry r).record = r ∧ (s.newEntry r).elapsed = 0 ∧
    ((r.instr.queueClass = .vectorCompute ∨ r.instr.queueClass = .vectorData) →
      (s.newEntry r).snapVL = some (min (max s.vlr.toInt 0) 64).toNat ∧ (s.newEntry r).snapVLR = none ∧
      (s.newEntry r).snapMask = some (truthMask s.vmr) ∧ snapSet r.instr = [.length, .mask]) ∧
    (r.instr.mnemonic = .mfcl →
      (s.newEntry r).snapVL = none ∧ (s.newEntry r).snapVLR = some s.vlr ∧ (s.newEntry r).snapMask = none ∧
      snapSet r.instr = [.length]) ∧
    (r.instr.mnemonic = .pop →
      (s.newEntry r).snapVL = none ∧ (s.newEntry r).snapVLR = none ∧
      (s.newEntry r).snapMask = some (truthMask s.vmr) ∧ snapSet r.instr = [.mask]) ∧
    ((r.instr.mnemonic = .mtcl ∨ r.instr.mnemonic = .b) →
      (s.newEntry r).snapVL = none ∧ (s.newEntry r).snapVLR = none ∧ (s.newEntry r).snapMask = none ∧
      snapSet r.instr = []) ∧
    (∀ l : Fin 64, (truthMask s.vmr)[l.val] = true ↔ s.vmr[l.val].toInt ≠ 0) ∧
    ∀ x ∈ snapSet r.instr, x ∈ checkSet r.instr ∧ x ∉ markSet r.instr

/-- Every Vector-Compute and Vector-Data instruction has the length and mask registers in its check set; the length
register is in the marked set of MTCL and of no other instruction, and the mask register in no marked set; so two
vector instructions whose explicit registers are disjoint do not block one another: the second's check set meets no
register of the first's marked set. A marked set names each register once. (Derived from 70_reset_and_hazards.md R318;
40_dispatch_scoreboard.md R123 to R126.) -/
def Obligations.ImplicitOperandsAreMarkedByMtclOnly : Prop :=
  (∀ i : Instr, i.queueClass ≠ .scalarOps → .length ∈ checkSet i ∧ .mask ∈ checkSet i) ∧
  (∀ i : Instr, .length ∈ markSet i ↔ i.mnemonic = .mtcl) ∧ (∀ i : Instr, .mask ∉ markSet i) ∧
  (∀ i : Instr, (markSet i).Nodup) ∧
  ∀ i j : Instr, i.queueClass ≠ .scalarOps → j.queueClass ≠ .scalarOps → (∀ x ∈ refSet i, x ∉ refSet j) →
    ∀ x ∈ checkSet j, x ∉ markSet i

/-- For a core that is not halted, one unit's share of the execute phase is this: an empty queue changes nothing; a head
whose count does not reach its latency only counts one more; a head that reaches it runs its instruction on the
counted state (or nothing for B), and then, unless that raised, frees exactly the busy bits of its marked set and
leaves its queue, everything else being as the instruction left it. (R122.) -/
def Obligations.HeadTimerCompletesAndRetires : Prop :=
  ∀ (s : State) (c : QueueClass), s.halted = false →
    (s.queue c = [] → advanceUnit c s = .next s) ∧
    ∀ (e : Entry) (rest : List Entry), s.queue c = e :: rest →
      (e.elapsed + 1 ≠ e.record.cycleLatency →
        advanceUnit c s = .next (s.setQueue c ({ e with elapsed := e.elapsed + 1 } :: rest))) ∧
      (e.elapsed + 1 = e.record.cycleLatency → e.record.instr.mnemonic = .b →
        advanceUnit c s = .next (s.setQueue c rest)) ∧
      (e.elapsed + 1 = e.record.cycleLatency → e.record.instr.mnemonic ≠ .b →
        ∀ t, exec e.record.instr (s.setQueue c ({ e with elapsed := e.elapsed + 1 } :: rest)) = .next t →
          (t.halted = true → advanceUnit c s = .next t) ∧
          (t.halted = false → (∀ x ∈ markSet e.record.instr, s.busy.get x = true) →
            ∃ u, advanceUnit c s = .next u ∧ u = { t.setQueue c rest with busy := u.busy } ∧
              ∀ x, u.busy.get x = true ↔ s.busy.get x = true ∧ x ∉ markSet e.record.instr))

/-- For a core that is not halted and has a legal configuration: a raise in the Vector-Compute, Vector-Data or Scalar-Ops
unit ends the cycle with the later phases skipped and only the counter advanced; otherwise the three units advance in
that order, then the dispatch phase runs, then decode and fetch unless dispatch raised, stalled or squashed them, then
the cycle ends. (Derived from 44_pipeline_controller.md R252 and R253.) -/
def Obligations.StepRunsThePhasesInOrder : Prop :=
  ∀ (s : State), s.halted = false → legalConfig s.cfg = true →
    ∀ s1, advanceUnit .vectorCompute s = .next s1 →
      (s1.halted = true → step s = .next { s1 with cycle := s1.cycle + 1 }) ∧
      (s1.halted = false → ∀ s2, advanceUnit .vectorData s1 = .next s2 →
        (s2.halted = true → step s = .next { s2 with cycle := s2.cycle + 1 }) ∧
        (s2.halted = false → ∀ s3, advanceUnit .scalarOps s2 = .next s3 →
          (s3.halted = true → step s = .next { s3 with cycle := s3.cycle + 1 }) ∧
          (s3.halted = false → ∀ f, dispatchPhase s3 = .next f →
            (f.state.halted = true → step s = .next { f.state with cycle := f.state.cycle + 1 }) ∧
            (f.state.halted = false →
              (f.stalled.isSome = true ∨ f.squashed = true → step s = .next (endCycle f.stalled f.state)) ∧
              (f.stalled = none → f.squashed = false → step s = .next (endCycle none (frontEnd f.state)))))))

/-- When a line given as bits decodes to instruction i and is placed where the next cycle runs it (the model's own
convention, log 6 and log 8), that step is exec of i: for B at the dispatch phase, followed by its enqueueing and the
end of the cycle; for every other instruction at its unit, followed by its retirement, the front end and the end of
the cycle; when exec raised, by the end of the cycle alone. (Derived from 44_pipeline_controller.md R252;
40_dispatch_scoreboard.md R132; 43_scalar_ops.md R230.) -/
def Obligations.StepRunsThePlacedInstruction : Prop :=
  ∀ (s : State) (nbits w : Nat) (i : Instr) (t : State), legalConfig s.cfg = true → decodeTableWord nbits w = some i →
    (i.mnemonic ≠ .b → exec i ((s.withFetchWord nbits w).tickHead i.queueClass) = .next t →
      (t.halted = true → step (s.withFetchWord nbits w) = .next (endCycle none t)) ∧
      (t.halted = false → step (s.withFetchWord nbits w) = .next (endCycle none (frontEnd
        (t.retireHead i.queueClass (makeRecord (s.withFetchWord nbits w).cfg s.pc i)))))) ∧
    (i.mnemonic = .b → exec i (s.withFetchWord nbits w) = .next t →
      (t.halted = true → step (s.withFetchWord nbits w) = .next (endCycle none t)) ∧
      (t.halted = false → step (s.withFetchWord nbits w) = .next (endCycle none
        (t.enqueue (makeRecord (s.withFetchWord nbits w).cfg s.pc i)))))

/-- From any idle running core whose next line is the last of its program and decodes to an instruction i that is no B and
raises nothing, with no cycle limit: one step fetches the line into FL, the next decodes it into DL, the third
dispatches it into its queue, its latency then counts, and after LAT(i) + 3 steps the core has halted normally in the
state exec i gives, with pc one higher and cycle higher by LAT(i) + 3. The state exec i gives is that of exec at an
empty queue, which takes the snapshots and the index from the idle state: that reading is the model's, log 7. (Derived
from 44_pipeline_controller.md R264.) -/
def Obligations.OneInstructionRunTakesLatencyPlusThree : Prop :=
  ∀ (s t : State) (toks : Line) (i : Instr), Idle s → legalConfig s.cfg = true → s.cfg.maxCycles = none →
    s.pc + 1 = s.progLen → Memory.lookup s.imem s.pc = some toks → decodeLine s.cfg.vdataExt toks = .ok i →
    i.mnemonic ≠ .b → exec i s = .next t → t.halted = false →
    (∃ u, run 1 s = .next u ∧ u.fl = some { p := s.pc, toks := toks } ∧ u.pc = s.pc + 1) ∧
    (∃ u, run 2 s = .next u ∧ u.fl = none ∧ u.dl = some (makeRecord s.cfg s.pc i)) ∧
    (∃ u, run 3 s = .next u ∧ u.dl = none ∧ u.queue i.queueClass = [s.newEntry (makeRecord s.cfg s.pc i)]) ∧
    (∀ n, n < s.cfg.latency i.mnemonic + 3 → ∃ u, run n s = .next u ∧ u.halted = false) ∧
    run (s.cfg.latency i.mnemonic + 3) s = .next
      { t with
        pc := s.pc + 1
        cycle := s.cycle + (s.cfg.latency i.mnemonic + 3)
        status := .haltedNormal }

/-- When the status is Halted(normal) or Halted(error), a step answers the same state. (R250.) -/
def Obligations.HaltedStatesAreAbsorbing : Prop :=
  ∀ s : State, (s.status = .haltedNormal ∨ s.status = .haltedError) → step s = .next s

/-- From every state with a legal configuration a step answers a next state, and only one; it never faults and is never
refused. (R10.) -/
def Obligations.EveryLegalStepAnswersOneState : Prop :=
  ∀ s : State, legalConfig s.cfg = true → ∃ t, step s = .next t ∧ ∀ u, step s = .next u → u = t

/-- A step of a core that is not halted increases cycle by exactly 1, whether it stalls or halts in that cycle; a step of
a halted core leaves it alone. (R32.) -/
def Obligations.EveryRunningCycleIsCounted : Prop :=
  ∀ s t : State, step s = .next t →
    (s.halted = false → t.cycle = s.cycle + 1) ∧ (s.halted = true → t.cycle = s.cycle)

/-- Whatever a step runs, the parameters, the instruction memory, the scalar data memory and the mask register are
afterwards what they were before. (Derived from 00_scope.md R8; 10_state.md R25; 20_memory.md R61 and R66.) -/
def Obligations.NoInstructionWritesMaskProgramOrParameters : Prop :=
  ∀ s t : State, step s = .next t → t.cfg = s.cfg ∧ t.imem = s.imem ∧ t.sdm = s.sdm ∧ t.vmr = s.vmr

/-- A step leaves pc unchanged, or increases it by exactly 1 and puts the line that was at pc into FL, or sets it to the
target p + off of a B that was in DL. When it leaves FL holding an entry that FL did not hold before, fetch has read
the line at pc: the entry has that index and line, and pc has increased by exactly 1. (R31.) -/
def Obligations.PcChangesByFetchOrBranchOnly : Prop :=
  ∀ s t : State, step s = .next t →
    (t.pc = s.pc ∨
    (t.pc = s.pc + 1 ∧ ∃ toks, Memory.lookup s.imem s.pc = some toks ∧ t.fl = some { p := s.pc, toks := toks }) ∨
    ∃ r off, s.dl = some r ∧ r.instr = .b off ∧ (t.pc : Int) = (r.p : Int) + off) ∧
    ∀ f, t.fl = some f → s.fl ≠ some f → f.p = s.pc ∧ Memory.lookup s.imem s.pc = some f.toks ∧ t.pc = s.pc + 1

/-- In a state whose queues hold entries of their own class, if a step changes S[i], then the head of the Scalar-Ops queue
completes in that step and is POP or MFCL with destination i. (Derived from 10_state.md R21.) -/
def Obligations.ScalarRegistersChangeByPopAndMfclOnly : Prop :=
  ∀ (s t : State) (i : SReg), ClassesMatch s → step s = .next t → t.readS i ≠ s.readS i →
    ∃ e, HeadDue s .scalarOps e ∧ (e.record.instr = .pop i ∨ e.record.instr = .mfcl i)

/-- In a state whose queues hold entries of their own class, if a step changes VLR, then the head of the Scalar-Ops queue
completes in that step, is MTCL, and VLR takes the value of its scalar register. The active length is min(max(VLR, 0),
64). (Derived from 10_state.md R26.) -/
def Obligations.LengthRegisterChangesByMtclOnly : Prop :=
  (∀ s t : State, ClassesMatch s → step s = .next t → t.vlr ≠ s.vlr →
    ∃ e r, HeadDue s .scalarOps e ∧ e.record.instr = .mtcl r ∧ t.vlr = s.readS r) ∧
  ∀ v : Word, (activeLength v : Int) = min (max v.toInt 0) 64

/-- In a state whose queues hold entries of their own class, if a step changes lane l of V[r], then in that step the head
of the Vector-Compute or Vector-Data queue completes, its first vector operand is r, it is no store, and lane l is
active for it. (Derived from 10_state.md R23.) -/
def Obligations.VectorLanesChangeWhenActiveOnly : Prop :=
  ∀ (s t : State) (r : VReg) (l : Fin 64), ClassesMatch s → step s = .next t → t.lane r l ≠ s.lane r l →
    ∃ c e, c ≠ .scalarOps ∧ HeadDue s c e ∧ e.record.instr.vectorRegs.head? = some r ∧
      e.record.instr.mnemonic ≠ .sv ∧ e.record.instr.mnemonic ≠ .svws ∧ s.active c l = true

/-- In a state whose queues hold entries of their own class, if a step changes a word of VDM, the head of the Vector-Data
queue completes in that step and is SV or SVWS. With the extension off, a Vector-Data queue that is empty stays empty
and VDM is unchanged by every step, given that the latches hold lines of the program. (Derived from 20_memory.md R69
and R73; 42_vector_data.md R191.) -/
def Obligations.DataMemoryChangesByStoresOnly : Prop :=
  (∀ (s t : State) (a : Nat), ClassesMatch s → step s = .next t → Memory.read t.vdm a ≠ Memory.read s.vdm a →
    ∃ e, HeadDue s .vectorData e ∧ (e.record.instr.mnemonic = .sv ∨ e.record.instr.mnemonic = .svws)) ∧
  ∀ s t : State, ClassesMatch s → LatchesOrdered s → s.cfg.vdataExt = false → s.qData = [] → step s = .next t →
    t.qData = [] ∧ t.vdm = s.vdm

/-- In a state whose scoreboard is exact, a step that does not complete entry e leaves every register of e's marked set as
it was: no other instruction in flight writes it. (Derived from 40_dispatch_scoreboard.md R137.) -/
def Obligations.HeldOperandsStayUnchanged : Prop :=
  ∀ (s t : State) (c : QueueClass) (e : Entry), ScoreboardExact s → step s = .next t →
    (e ∈ (s.queue c).tail ∨ ((s.queue c).head? = some e ∧ e.elapsed + 1 ≠ e.record.cycleLatency)) →
    ∀ x ∈ markSet e.record.instr, hostRead x t = hostRead x s

/-- If in a state each register is busy exactly when one entry in flight holds it, and free when none does, then so it is
after every step, a halting one included. (Derived from 40_dispatch_scoreboard.md R134.) -/
def Obligations.ScoreboardStaysExact : Prop :=
  ∀ s t : State, ScoreboardExact s → step s = .next t → ScoreboardExact t

/-- In a state whose scoreboard is exact and that records no HazardViolation, a step records none: the check of R135 is in
dispatch and in retire and never fires. The check itself raises: a dispatch that would mark a busy register, or a
completion that does not itself raise, of an entry that does not hold its registers, halts the core with kind
HazardViolation, whose code is 2. After any number of cycles from any launch that is not refused, no HazardViolation
is recorded. (R135, R285.) -/
def Obligations.HazardViolationIsNeverRaised : Prop :=
  (∀ s t : State, ScoreboardExact s → step s = .next t →
    (∀ info, s.err = some info → info.kind ≠ .hazardViolation) → ∀ info, t.err = some info → info.kind ≠ .hazardViolation) ∧
  (∀ (s : State) (r : Record), (∃ x ∈ markSet r.instr, s.busy.get x = true) →
    (s.enqueue r).status = .haltedError ∧ (s.enqueue r).err.map ErrorRecord.kind = some .hazardViolation) ∧
  (∀ (s : State) (c : QueueClass) (e : Entry) (rest : List Entry), s.halted = false → s.queue c = e :: rest →
    e.elapsed + 1 = e.record.cycleLatency → (∃ x ∈ markSet e.record.instr, s.busy.get x = false) →
    (∀ u, exec e.record.instr (s.setQueue c ({ e with elapsed := e.elapsed + 1 } :: rest)) = .next u → u.halted = false) →
    ∃ t, advanceUnit c s = .next t ∧ t.status = .haltedError ∧ t.err.map ErrorRecord.kind = some .hazardViolation) ∧
  errorCode .hazardViolation = 2 ∧
  ∀ (l : Launch) (s t : State) (n : Nat), boot l = .next s → run n s = .next t →
    ∀ info, t.err = some info → info.kind ≠ .hazardViolation

/-- If no queue holds more entries than its configured capacity, then so it is after every step. (Derived from 10_state.md
R36.) -/
def Obligations.QueuesStayWithinCapacity : Prop :=
  ∀ s t : State, QueuesBounded s → step s = .next t → QueuesBounded t

/-- With a legal configuration, a step keeps these: FL holds the program's line just before pc, DL the decoded record of
the line before FL's (or before pc); each queue holds entries of its own class, each from the program and with exactly
the snapshots of its class; only a head's timer has run, and while the core runs it is below its latency. (Derived
from 10_state.md R34 to R37; 40_dispatch_scoreboard.md R131 and R132; 43_scalar_ops.md R232.) -/
def Obligations.LatchesEntriesAndTimersStayConsistent : Prop :=
  ∀ s t : State, legalConfig s.cfg = true → ClassesMatch s → LatchesOrdered s → EntriesOk s → TimersOk s →
    step s = .next t → ClassesMatch t ∧ LatchesOrdered t ∧ EntriesOk t ∧ TimersOk t

/-- A step keeps these: the error record is there exactly when the status is Halted(error); pc is in [0, 65536]; a core
that halted normally has drained; each memory lists rising indices inside its size, and no data memory lists a word
equal to the unlisted one. That form of the memories (rising indices, no word 0 listed) is the model's choice, log 4
and log 5. (Derived from 10_state.md R30 and R39; 44_pipeline_controller.md R260; 20_memory.md R64.) -/
def Obligations.StatusErrorPcAndMemoriesStayConsistent : Prop :=
  ∀ s t : State, step s = .next t →
    (ErrorMatchesStatus s → ErrorMatchesStatus t) ∧ (PcInRange s → PcInRange t) ∧
    (NormalHaltDrained s → NormalHaltDrained t) ∧ (MemoriesOk s → MemoriesOk t)

/-- The state after every launch that is not refused meets the invariant: legal configuration, exact scoreboard, bounded
queues, matching classes, ordered latches, good entries and timers, no error record, pc in range, and memories with no
index outside them in the canonical form, which is the model's choice, log 4 and log 5. (Derived from
70_reset_and_hazards.md R310 to R313; 10_state.md R41.) -/
def Obligations.LaunchedCoresMeetTheInvariant : Prop :=
  ∀ (l : Launch) (s : State), boot l = .next s → Inv s

/-- At the end of a cycle the counter advances; a raise keeps Halted(error) and its record; else a drained core is
Halted(normal); else a core whose counter has reached P_MAX_CYCLES is Halted(error) with a record of kind
CycleLimitExceeded and nothing more; else a stalled core is Stalled with its reason and any other Running. Drained
means pc at or past the program, both latches and all three queues empty. (R259, R261.) -/
def Obligations.CycleEndsByRaiseDrainLimitOrStall : Prop :=
  (∀ (stalled : Option StallReason) (s : State),
    (s.halted = true → endCycle stalled s = { s with cycle := s.cycle + 1 }) ∧
    (s.halted = false → s.drained = true →
      endCycle stalled s = { s with cycle := s.cycle + 1, status := .haltedNormal }) ∧
    (s.halted = false → s.drained = false → (∃ n, s.cfg.maxCycles = some n ∧ n ≤ s.cycle + 1) →
      endCycle stalled s = { s with
        cycle := s.cycle + 1
        status := .haltedError
        err := some { kind := .cycleLimitExceeded, p := none, toks := none, mnemonic := none, addr := none, lane := none,
                      detail := none } }) ∧
    (s.halted = false → s.drained = false → (∀ n, s.cfg.maxCycles = some n → s.cycle + 1 < n) →
      endCycle stalled s = { s with
        cycle := s.cycle + 1
        status := (match stalled with | some reason => .stalled reason | none => .running) })) ∧
  ∀ s : State, s.drained = true ↔
    s.progLen ≤ s.pc ∧ s.fl = none ∧ s.dl = none ∧ s.qCompute = [] ∧ s.qData = [] ∧ s.qScalar = []

/-- Every entry below progLen is a line; progLen is at most 65536, and when it is less, its entry is the sentinel. The
fetch phase reads the line at pc into FL and advances pc by one when pc is below progLen, and otherwise changes
nothing. (R62, R63.) -/
def Obligations.ProgramLengthIsTheFirstSentinel : Prop :=
  ∀ s : State, s.progLen ≤ 65536 ∧ (∀ k, k < s.progLen → ∃ toks, Memory.lookup s.imem k = some toks) ∧
    (s.progLen < 65536 → Memory.lookup s.imem s.progLen = none) ∧
    (s.pc < s.progLen → ∃ toks, Memory.lookup s.imem s.pc = some toks ∧
      fetchPhase s = { s with fl := some { p := s.pc, toks := toks }, pc := s.pc + 1 }) ∧
    (s.progLen ≤ s.pc → fetchPhase s = s)

/-- When dispatch has neither raised, stalled nor squashed, and FL then holds a line the decoder rejects, the cycle ends
in Halted(error) with kind DecodeError, the line's index and tokens and the decoder's detail, UnknownMnemonic or
MalformedOperand, and nothing but the counter, the status and the record has changed since dispatch: no register,
memory or scoreboard bit. (R281.) -/
def Obligations.DecodeErrorHaltsWithLineAndIndex : Prop :=
  ∀ (s u : State) (f : Fetched) (d : Detail), s.halted = false →
    dispatchPhase s = .next { state := u, stalled := none, squashed := false } → u.halted = false → u.fl = some f →
    decodeLine u.cfg.vdataExt f.toks = .error d →
    (d = .unknownMnemonic ∨ d = .malformedOperand) ∧
    afterExecute s = .next { u with
      cycle := u.cycle + 1
      status := .haltedError
      err := some { kind := .decodeError, p := some f.p, toks := some f.toks, mnemonic := none, addr := none, lane := none,
                    detail := some d } }

/-- Reading after a write gives the value written at its index and the old value everywhere else; and two data memories in
canonical form that read alike at every index are the same list (the canonical form is the model's choice, log 4).
(Derived from 20_memory.md R69.) -/
def Obligations.WordWritesChangeOneWord : Prop :=
  (∀ (m : Memory) (a b : Nat) (v : Word),
    Memory.read (Memory.write m a v) b = if b = a then v else Memory.read m b) ∧
  ∀ m n : Memory, Memory.wf m → Memory.wf n → (∀ a, Memory.read m a = Memory.read n a) → m = n

/-- Asserting reset in any state gives S and V all 0, VMR all 1, VLR 64, pc and cycle 0, status Running, latches, queues
and error record empty, every register free, and leaves the three memories as they were. (R41.) -/
def Obligations.ResetGivesTheTableOfReset : Prop :=
  ∀ s : State,
    (∀ i, (s.assertReset.readS i).toInt = 0) ∧ (∀ r l, (s.assertReset.lane r l).toInt = 0) ∧
    (∀ l : Fin 64, s.assertReset.vmr[l.val].toInt = 1) ∧ s.assertReset.vlr.toInt = 64 ∧
    s.assertReset.pc = 0 ∧ s.assertReset.cycle = 0 ∧ s.assertReset.status = .running ∧
    s.assertReset.fl = none ∧ s.assertReset.dl = none ∧ (∀ c, s.assertReset.queue c = []) ∧
    (∀ x, s.assertReset.busy.get x = false) ∧ s.assertReset.err = none ∧
    s.assertReset.imem = s.imem ∧ s.assertReset.vdm = s.vdm ∧ s.assertReset.sdm = s.sdm

/-- A launch that is not refused starts with exactly the host's values in S, V, VMR and VLR, and with pc, cycle, latches,
queues, scoreboard, status and error record at their reset values; with the default register values these are those of
R41; and every in-range choice of register values is accepted, with any legal configuration and any legal images.
(R312.) -/
def Obligations.LaunchValuesOverrideReset : Prop :=
  (∀ (l : Launch) (s : State), boot l = .next s →
    (∀ i : SReg, (s.readS i).toInt = l.sreg[i.val]) ∧
    (∀ (r : VReg) (k : Fin 64), (s.lane r k).toInt = (l.vreg[r.val])[k.val]) ∧
    (∀ k : Fin 64, s.vmr[k.val].toInt = l.vmr[k.val]) ∧ s.vlr.toInt = l.vlr ∧
    s.pc = 0 ∧ s.cycle = 0 ∧ s.status = .running ∧ s.fl = none ∧ s.dl = none ∧ (∀ c, s.queue c = []) ∧
    (∀ x, s.busy.get x = false) ∧ s.err = none ∧ s.cfg = l.cfg) ∧
  (∀ c : Config, legalConfig c = true → boot { cfg := c } = .next { State.reset with cfg := c }) ∧
  ∀ l : Launch, legalConfig l.cfg = true → legalProgram l.imem = true →
    legalImage l.cfg.vdmSize l.vdm = true → legalImage l.cfg.sdmSize l.sdm = true →
    (∀ i : SReg, inRange32 l.sreg[i.val] = true) → (∀ (r : VReg) (k : Fin 64), inRange32 (l.vreg[r.val])[k.val] = true) →
    (∀ k : Fin 64, inRange32 l.vmr[k.val] = true) → inRange32 l.vlr = true → ∃ s, boot l = .next s

/-- A depth of 0, a latency of 0, a memory size of 0 or a cycle limit of 0 makes boot and a step of a core that is not
halted answer the refusal of an illegal configuration; with a legal configuration, a loaded word or register value
outside 32 bits, or an index outside its memory, makes boot refuse the launch. That a limit of 0 is illegal, that step
refuses too, and that an index outside its memory is refused, is read from R7, R72 and R313 by inference, log 12.
(Derived from 70_reset_and_hazards.md R313 and R314; 00_scope.md R7; 20_memory.md R72.) -/
def Obligations.IllegalLaunchesAreRefused : Prop :=
  (∀ c : Config,
    (c.computeQueueDepth = 0 ∨ c.dataQueueDepth = 0 ∨ c.scalarQueueDepth = 0 ∨ (∃ m, c.latency m = 0) ∨
      c.vdmSize = 0 ∨ c.sdmSize = 0 ∨ c.maxCycles = some 0) →
    (∀ l : Launch, l.cfg = c → boot l = .refused .illegalConfiguration) ∧
    ∀ s : State, s.cfg = c → s.halted = false → step s = .refused .illegalConfiguration) ∧
  ∀ l : Launch, legalConfig l.cfg = true →
    ((∃ x ∈ l.vdm, inRange32 x.2 = false ∨ l.cfg.vdmSize ≤ x.1) ∨
      (∃ x ∈ l.sdm, inRange32 x.2 = false ∨ l.cfg.sdmSize ≤ x.1) ∨ (∃ x ∈ l.imem, 65536 ≤ x.1) ∨
      (∃ i : SReg, inRange32 l.sreg[i.val] = false) ∨
      (∃ (r : VReg) (k : Fin 64), inRange32 (l.vreg[r.val])[k.val] = false) ∨
      (∃ k : Fin 64, inRange32 l.vmr[k.val] = false) ∨ inRange32 l.vlr = false) →
    boot l = .refused .illegalLaunch

/-- A write through the port is accepted exactly when it gives one in-range value for each lane of the register; then
reading that register gives those values, every other register reads as before, and nothing but the register has
changed. (Derived from 20_memory.md R78.) -/
def Obligations.HostPortReadsBackWhatItWrote : Prop :=
  ∀ (s : State) (x : RegName) (vals : List Int),
    ((hostWrite x vals s).isSome = true ↔
      vals.length = (hostRead x s).length ∧ ∀ v ∈ vals, inRange32 v = true) ∧
    ∀ t, hostWrite x vals s = some t →
      hostRead x t = vals ∧ (∀ y, y ≠ x → hostRead y t = hostRead y s) ∧
        t = { s with sreg := t.sreg, vreg := t.vreg, vmr := t.vmr, vlr := t.vlr }

/-- The five statuses have the codes 0 to 4 and the five error kinds the codes 1 to 5; the exit status is zero for
Halted(normal), not zero for Halted(error), and there is none before a halt; two states with the same host view agree
in every register, both data memories, status, error record, cycle and pc. (Derived from 10_state.md R33 and R42;
60_exceptions.md R280 and R288.) -/
def Obligations.HostReadsCodesAndExitStatus : Prop :=
  [Status.running, .stalled .registerBusy, .stalled .queueFull, .haltedNormal, .haltedError].map statusCode =
    [0, 1, 2, 3, 4] ∧
  [ErrorKind.decodeError, .hazardViolation, .memoryFault, .arithmeticFault, .cycleLimitExceeded].map errorCode =
    [1, 2, 3, 4, 5] ∧
  (∀ s : State, (exitsZero s.status).isSome = s.halted ∧ (exitsZero s.status = some true ↔ s.status = .haltedNormal)) ∧
  ∀ s t : State, hostView s = hostView t → (∀ x, hostRead x s = hostRead x t) ∧ s.vdm = t.vdm ∧ s.sdm = t.sdm ∧
    s.status = t.status ∧ s.err = t.err ∧ s.cycle = t.cycle ∧ s.pc = t.pc

/-- For every launch that is not refused, with any parameters: if the pipelined core halts normally after some number of
cycles, then the sequential semantics SEQ from the same launch state also ends normally, and the final S, V, VMR, VLR,
VDM and SDM of the two are equal. (R322.) -/
def Obligations.NormalRunsMatchSequentialSemantics : Prop :=
  ∀ (l : Launch) (s t : State) (n : Nat), boot l = .next s → run n s = .next t → t.status = .haltedNormal →
    ∃ (m : Nat) (u : State), seqRun m s = .next u ∧ u.status = .haltedNormal ∧
      u.sreg = t.sreg ∧ u.vreg = t.vreg ∧ u.vmr = t.vmr ∧ u.vlr = t.vlr ∧ u.vdm = t.vdm ∧ u.sdm = t.sdm

/-- State.reset has no instruction line, no data word and the reference configuration, and asserting reset leaves it as it
is; and any core in which reset is asserted, with nothing loaded and that configuration, is State.reset. The empty
memories and the configuration are the model's choice (log 1, log 4, log 5); the other fields are those of R41.
(Derived from 10_state.md R41.) -/
def Obligations.ResetStateHasNothingLoaded : Prop :=
  State.reset.imem = [] ∧ State.reset.vdm = [] ∧ State.reset.sdm = [] ∧ State.reset.cfg = Config.reference ∧
  State.reset.assertReset = State.reset ∧
  ∀ s : State, s.imem = [] → s.vdm = [] → s.sdm = [] → s.cfg = Config.reference → s.assertReset = State.reset

/-- After a launch that is not refused, an index of IMEM holds the line the host's image gives it, and is the end-of-
program sentinel when the image does not name it; a word of VDM or SDM holds the value its image gives it, and 0 when
the image does not name it. Of two entries for one index the later stands (log 15); the sentinel and the 0 of an index
not named are the model's choice (log 4, log 5). With a legal configuration, every launch whose lines stand at indices
below 65536 and have tokens that are not empty and hold no whitespace (log 6), whose words have in-range values at
indices below the size of their memory, and whose register values are in range, is accepted. (Derived from 00_scope.md
R11; 20_memory.md R60, R62 and R72; 70_reset_and_hazards.md R313.) -/
def Obligations.LaunchLoadsTheImages : Prop :=
  (∀ (l : Launch) (s : State), boot l = .next s →
    (∀ a, Memory.lookup s.imem a = (lastEntry l.imem a)) ∧
    (∀ a, (Memory.read s.vdm a).toInt = (lastEntry l.vdm a).getD 0) ∧
    ∀ a, (Memory.read s.sdm a).toInt = (lastEntry l.sdm a).getD 0) ∧
  ∀ l : Launch, legalConfig l.cfg = true →
    (∀ x ∈ l.imem, x.1 < 65536 ∧ ∀ tok ∈ x.2, tok ≠ [] ∧ ∀ c ∈ tok, c.isWhitespace = false) →
    (∀ x ∈ l.vdm, x.1 < l.cfg.vdmSize ∧ inRange32 x.2 = true) →
    (∀ x ∈ l.sdm, x.1 < l.cfg.sdmSize ∧ inRange32 x.2 = true) →
    (∀ i : SReg, inRange32 l.sreg[i.val] = true) → (∀ (r : VReg) (k : Fin 64), inRange32 (l.vreg[r.val])[k.val] = true) →
    (∀ k : Fin 64, inRange32 l.vmr[k.val] = true) → inRange32 l.vlr = true → ∃ s, boot l = .next s
end

