-- ==== Sys2Proof/Laws/State.lean ====
section
/-! SUPPORT. One lemma per field per named update of the state, so that no proof unfolds a record update. -/

namespace Sys2Proof.Machine

/-! ### `raise` -/

@[simp] theorem State.raise_cfg (s : State) (info : ErrorRecord) : (s.raise info).cfg = s.cfg := rfl
@[simp] theorem State.raise_imem (s : State) (info : ErrorRecord) : (s.raise info).imem = s.imem := rfl
@[simp] theorem State.raise_vdm (s : State) (info : ErrorRecord) : (s.raise info).vdm = s.vdm := rfl
@[simp] theorem State.raise_sdm (s : State) (info : ErrorRecord) : (s.raise info).sdm = s.sdm := rfl
@[simp] theorem State.raise_sreg (s : State) (info : ErrorRecord) : (s.raise info).sreg = s.sreg := rfl
@[simp] theorem State.raise_vreg (s : State) (info : ErrorRecord) : (s.raise info).vreg = s.vreg := rfl
@[simp] theorem State.raise_vmr (s : State) (info : ErrorRecord) : (s.raise info).vmr = s.vmr := rfl
@[simp] theorem State.raise_vlr (s : State) (info : ErrorRecord) : (s.raise info).vlr = s.vlr := rfl
@[simp] theorem State.raise_pc (s : State) (info : ErrorRecord) : (s.raise info).pc = s.pc := rfl
@[simp] theorem State.raise_cycle (s : State) (info : ErrorRecord) : (s.raise info).cycle = s.cycle := rfl
@[simp] theorem State.raise_status (s : State) (info : ErrorRecord) : (s.raise info).status = .haltedError := rfl
@[simp] theorem State.raise_fl (s : State) (info : ErrorRecord) : (s.raise info).fl = s.fl := rfl
@[simp] theorem State.raise_dl (s : State) (info : ErrorRecord) : (s.raise info).dl = s.dl := rfl
@[simp] theorem State.raise_qCompute (s : State) (info : ErrorRecord) : (s.raise info).qCompute = s.qCompute := rfl
@[simp] theorem State.raise_qData (s : State) (info : ErrorRecord) : (s.raise info).qData = s.qData := rfl
@[simp] theorem State.raise_qScalar (s : State) (info : ErrorRecord) : (s.raise info).qScalar = s.qScalar := rfl
@[simp] theorem State.raise_busy (s : State) (info : ErrorRecord) : (s.raise info).busy = s.busy := rfl
@[simp] theorem State.raise_err (s : State) (info : ErrorRecord) : (s.raise info).err = some info := rfl

/-! ### `S[i] <- v` -/

@[simp] theorem State.writeS_cfg (s : State) (i : SReg) (v : Word) : (s.writeS i v).cfg = s.cfg := rfl
@[simp] theorem State.writeS_imem (s : State) (i : SReg) (v : Word) : (s.writeS i v).imem = s.imem := rfl
@[simp] theorem State.writeS_vdm (s : State) (i : SReg) (v : Word) : (s.writeS i v).vdm = s.vdm := rfl
@[simp] theorem State.writeS_sdm (s : State) (i : SReg) (v : Word) : (s.writeS i v).sdm = s.sdm := rfl
@[simp] theorem State.writeS_sreg (s : State) (i : SReg) (v : Word) : (s.writeS i v).sreg = s.sreg.set i.val v := rfl
@[simp] theorem State.writeS_vreg (s : State) (i : SReg) (v : Word) : (s.writeS i v).vreg = s.vreg := rfl
@[simp] theorem State.writeS_vmr (s : State) (i : SReg) (v : Word) : (s.writeS i v).vmr = s.vmr := rfl
@[simp] theorem State.writeS_vlr (s : State) (i : SReg) (v : Word) : (s.writeS i v).vlr = s.vlr := rfl
@[simp] theorem State.writeS_pc (s : State) (i : SReg) (v : Word) : (s.writeS i v).pc = s.pc := rfl
@[simp] theorem State.writeS_cycle (s : State) (i : SReg) (v : Word) : (s.writeS i v).cycle = s.cycle := rfl
@[simp] theorem State.writeS_status (s : State) (i : SReg) (v : Word) : (s.writeS i v).status = s.status := rfl
@[simp] theorem State.writeS_fl (s : State) (i : SReg) (v : Word) : (s.writeS i v).fl = s.fl := rfl
@[simp] theorem State.writeS_dl (s : State) (i : SReg) (v : Word) : (s.writeS i v).dl = s.dl := rfl
@[simp] theorem State.writeS_qCompute (s : State) (i : SReg) (v : Word) : (s.writeS i v).qCompute = s.qCompute := rfl
@[simp] theorem State.writeS_qData (s : State) (i : SReg) (v : Word) : (s.writeS i v).qData = s.qData := rfl
@[simp] theorem State.writeS_qScalar (s : State) (i : SReg) (v : Word) : (s.writeS i v).qScalar = s.qScalar := rfl
@[simp] theorem State.writeS_busy (s : State) (i : SReg) (v : Word) : (s.writeS i v).busy = s.busy := rfl
@[simp] theorem State.writeS_err (s : State) (i : SReg) (v : Word) : (s.writeS i v).err = s.err := rfl

/-! ### `V[i] <- v` -/

@[simp] theorem State.writeV_cfg (s : State) (i : VReg) (v : Lanes) : (s.writeV i v).cfg = s.cfg := rfl
@[simp] theorem State.writeV_imem (s : State) (i : VReg) (v : Lanes) : (s.writeV i v).imem = s.imem := rfl
@[simp] theorem State.writeV_vdm (s : State) (i : VReg) (v : Lanes) : (s.writeV i v).vdm = s.vdm := rfl
@[simp] theorem State.writeV_sdm (s : State) (i : VReg) (v : Lanes) : (s.writeV i v).sdm = s.sdm := rfl
@[simp] theorem State.writeV_sreg (s : State) (i : VReg) (v : Lanes) : (s.writeV i v).sreg = s.sreg := rfl
@[simp] theorem State.writeV_vreg (s : State) (i : VReg) (v : Lanes) : (s.writeV i v).vreg = s.vreg.set i.val v := rfl
@[simp] theorem State.writeV_vmr (s : State) (i : VReg) (v : Lanes) : (s.writeV i v).vmr = s.vmr := rfl
@[simp] theorem State.writeV_vlr (s : State) (i : VReg) (v : Lanes) : (s.writeV i v).vlr = s.vlr := rfl
@[simp] theorem State.writeV_pc (s : State) (i : VReg) (v : Lanes) : (s.writeV i v).pc = s.pc := rfl
@[simp] theorem State.writeV_cycle (s : State) (i : VReg) (v : Lanes) : (s.writeV i v).cycle = s.cycle := rfl
@[simp] theorem State.writeV_status (s : State) (i : VReg) (v : Lanes) : (s.writeV i v).status = s.status := rfl
@[simp] theorem State.writeV_fl (s : State) (i : VReg) (v : Lanes) : (s.writeV i v).fl = s.fl := rfl
@[simp] theorem State.writeV_dl (s : State) (i : VReg) (v : Lanes) : (s.writeV i v).dl = s.dl := rfl
@[simp] theorem State.writeV_qCompute (s : State) (i : VReg) (v : Lanes) : (s.writeV i v).qCompute = s.qCompute := rfl
@[simp] theorem State.writeV_qData (s : State) (i : VReg) (v : Lanes) : (s.writeV i v).qData = s.qData := rfl
@[simp] theorem State.writeV_qScalar (s : State) (i : VReg) (v : Lanes) : (s.writeV i v).qScalar = s.qScalar := rfl
@[simp] theorem State.writeV_busy (s : State) (i : VReg) (v : Lanes) : (s.writeV i v).busy = s.busy := rfl
@[simp] theorem State.writeV_err (s : State) (i : VReg) (v : Lanes) : (s.writeV i v).err = s.err := rfl

/-! ### `VLR <- v` -/

@[simp] theorem State.writeVlr_cfg (s : State) (v : Word) : (s.writeVlr v).cfg = s.cfg := rfl
@[simp] theorem State.writeVlr_imem (s : State) (v : Word) : (s.writeVlr v).imem = s.imem := rfl
@[simp] theorem State.writeVlr_vdm (s : State) (v : Word) : (s.writeVlr v).vdm = s.vdm := rfl
@[simp] theorem State.writeVlr_sdm (s : State) (v : Word) : (s.writeVlr v).sdm = s.sdm := rfl
@[simp] theorem State.writeVlr_sreg (s : State) (v : Word) : (s.writeVlr v).sreg = s.sreg := rfl
@[simp] theorem State.writeVlr_vreg (s : State) (v : Word) : (s.writeVlr v).vreg = s.vreg := rfl
@[simp] theorem State.writeVlr_vmr (s : State) (v : Word) : (s.writeVlr v).vmr = s.vmr := rfl
@[simp] theorem State.writeVlr_vlr (s : State) (v : Word) : (s.writeVlr v).vlr = v := rfl
@[simp] theorem State.writeVlr_pc (s : State) (v : Word) : (s.writeVlr v).pc = s.pc := rfl
@[simp] theorem State.writeVlr_cycle (s : State) (v : Word) : (s.writeVlr v).cycle = s.cycle := rfl
@[simp] theorem State.writeVlr_status (s : State) (v : Word) : (s.writeVlr v).status = s.status := rfl
@[simp] theorem State.writeVlr_fl (s : State) (v : Word) : (s.writeVlr v).fl = s.fl := rfl
@[simp] theorem State.writeVlr_dl (s : State) (v : Word) : (s.writeVlr v).dl = s.dl := rfl
@[simp] theorem State.writeVlr_qCompute (s : State) (v : Word) : (s.writeVlr v).qCompute = s.qCompute := rfl
@[simp] theorem State.writeVlr_qData (s : State) (v : Word) : (s.writeVlr v).qData = s.qData := rfl
@[simp] theorem State.writeVlr_qScalar (s : State) (v : Word) : (s.writeVlr v).qScalar = s.qScalar := rfl
@[simp] theorem State.writeVlr_busy (s : State) (v : Word) : (s.writeVlr v).busy = s.busy := rfl
@[simp] theorem State.writeVlr_err (s : State) (v : Word) : (s.writeVlr v).err = s.err := rfl

/-! ### `Q[c] <- q` -/

@[simp] theorem State.setQueue_cfg (s : State) (c : QueueClass) (q : List Entry) : (s.setQueue c q).cfg = s.cfg := by
  cases c <;> rfl
@[simp] theorem State.setQueue_imem (s : State) (c : QueueClass) (q : List Entry) : (s.setQueue c q).imem = s.imem := by
  cases c <;> rfl
@[simp] theorem State.setQueue_vdm (s : State) (c : QueueClass) (q : List Entry) : (s.setQueue c q).vdm = s.vdm := by
  cases c <;> rfl
@[simp] theorem State.setQueue_sdm (s : State) (c : QueueClass) (q : List Entry) : (s.setQueue c q).sdm = s.sdm := by
  cases c <;> rfl
@[simp] theorem State.setQueue_sreg (s : State) (c : QueueClass) (q : List Entry) : (s.setQueue c q).sreg = s.sreg := by
  cases c <;> rfl
@[simp] theorem State.setQueue_vreg (s : State) (c : QueueClass) (q : List Entry) : (s.setQueue c q).vreg = s.vreg := by
  cases c <;> rfl
@[simp] theorem State.setQueue_vmr (s : State) (c : QueueClass) (q : List Entry) : (s.setQueue c q).vmr = s.vmr := by
  cases c <;> rfl
@[simp] theorem State.setQueue_vlr (s : State) (c : QueueClass) (q : List Entry) : (s.setQueue c q).vlr = s.vlr := by
  cases c <;> rfl
@[simp] theorem State.setQueue_pc (s : State) (c : QueueClass) (q : List Entry) : (s.setQueue c q).pc = s.pc := by
  cases c <;> rfl
@[simp] theorem State.setQueue_cycle (s : State) (c : QueueClass) (q : List Entry) : (s.setQueue c q).cycle = s.cycle := by
  cases c <;> rfl
@[simp] theorem State.setQueue_status (s : State) (c : QueueClass) (q : List Entry) : (s.setQueue c q).status = s.status := by
  cases c <;> rfl
@[simp] theorem State.setQueue_fl (s : State) (c : QueueClass) (q : List Entry) : (s.setQueue c q).fl = s.fl := by
  cases c <;> rfl
@[simp] theorem State.setQueue_dl (s : State) (c : QueueClass) (q : List Entry) : (s.setQueue c q).dl = s.dl := by
  cases c <;> rfl
@[simp] theorem State.setQueue_busy (s : State) (c : QueueClass) (q : List Entry) : (s.setQueue c q).busy = s.busy := by
  cases c <;> rfl
@[simp] theorem State.setQueue_err (s : State) (c : QueueClass) (q : List Entry) : (s.setQueue c q).err = s.err := by
  cases c <;> rfl
@[simp] theorem State.setQueue_queue_same (s : State) (c : QueueClass) (q : List Entry) : (s.setQueue c q).queue c = q := by
  cases c <;> rfl
theorem State.setQueue_queue_other (s : State) (c c' : QueueClass) (q : List Entry) (h : c' ≠ c) :
    (s.setQueue c q).queue c' = s.queue c' := by
  cases c <;> cases c' <;> first | rfl | exact absurd rfl h
@[simp] theorem State.queue_vectorCompute (s : State) : s.queue .vectorCompute = s.qCompute := rfl
@[simp] theorem State.queue_vectorData (s : State) : s.queue .vectorData = s.qData := rfl
@[simp] theorem State.queue_scalarOps (s : State) : s.queue .scalarOps = s.qScalar := rfl

/-! ### One unit's retirement: `retireHead` -/

@[simp] theorem State.retireHead_cfg (s : State) (c : QueueClass) (r : Record) : (s.retireHead c r).cfg = s.cfg := by
  cases c <;> rfl
@[simp] theorem State.retireHead_imem (s : State) (c : QueueClass) (r : Record) : (s.retireHead c r).imem = s.imem := by
  cases c <;> rfl
@[simp] theorem State.retireHead_vdm (s : State) (c : QueueClass) (r : Record) : (s.retireHead c r).vdm = s.vdm := by
  cases c <;> rfl
@[simp] theorem State.retireHead_sdm (s : State) (c : QueueClass) (r : Record) : (s.retireHead c r).sdm = s.sdm := by
  cases c <;> rfl
@[simp] theorem State.retireHead_sreg (s : State) (c : QueueClass) (r : Record) : (s.retireHead c r).sreg = s.sreg := by
  cases c <;> rfl
@[simp] theorem State.retireHead_vreg (s : State) (c : QueueClass) (r : Record) : (s.retireHead c r).vreg = s.vreg := by
  cases c <;> rfl
@[simp] theorem State.retireHead_vmr (s : State) (c : QueueClass) (r : Record) : (s.retireHead c r).vmr = s.vmr := by
  cases c <;> rfl
@[simp] theorem State.retireHead_vlr (s : State) (c : QueueClass) (r : Record) : (s.retireHead c r).vlr = s.vlr := by
  cases c <;> rfl
@[simp] theorem State.retireHead_pc (s : State) (c : QueueClass) (r : Record) : (s.retireHead c r).pc = s.pc := by
  cases c <;> rfl
@[simp] theorem State.retireHead_cycle (s : State) (c : QueueClass) (r : Record) : (s.retireHead c r).cycle = s.cycle := by
  cases c <;> rfl
@[simp] theorem State.retireHead_status (s : State) (c : QueueClass) (r : Record) : (s.retireHead c r).status = s.status := by
  cases c <;> rfl
@[simp] theorem State.retireHead_fl (s : State) (c : QueueClass) (r : Record) : (s.retireHead c r).fl = s.fl := by
  cases c <;> rfl
@[simp] theorem State.retireHead_dl (s : State) (c : QueueClass) (r : Record) : (s.retireHead c r).dl = s.dl := by
  cases c <;> rfl
@[simp] theorem State.retireHead_busy (s : State) (c : QueueClass) (r : Record) : (s.retireHead c r).busy = s.busy.putAll (markSet r.instr) false := by
  cases c <;> rfl
@[simp] theorem State.retireHead_err (s : State) (c : QueueClass) (r : Record) : (s.retireHead c r).err = s.err := by
  cases c <;> rfl
@[simp] theorem State.retireHead_queue_same (s : State) (c : QueueClass) (r : Record) :
    (s.retireHead c r).queue c = (s.queue c).tail := by
  cases c <;> rfl
theorem State.retireHead_queue_other (s : State) (c c' : QueueClass) (r : Record) (h : c' ≠ c) :
    (s.retireHead c r).queue c' = s.queue c' := by
  cases c <;> cases c' <;> first | rfl | exact absurd rfl h

/-! ### The latency timer: `tickHead` -/

@[simp] theorem State.tickHead_cfg (s : State) (c : QueueClass) : (s.tickHead c).cfg = s.cfg := by
  unfold State.tickHead; split <;> simp
@[simp] theorem State.tickHead_imem (s : State) (c : QueueClass) : (s.tickHead c).imem = s.imem := by
  unfold State.tickHead; split <;> simp
@[simp] theorem State.tickHead_vdm (s : State) (c : QueueClass) : (s.tickHead c).vdm = s.vdm := by
  unfold State.tickHead; split <;> simp
@[simp] theorem State.tickHead_sdm (s : State) (c : QueueClass) : (s.tickHead c).sdm = s.sdm := by
  unfold State.tickHead; split <;> simp
@[simp] theorem State.tickHead_sreg (s : State) (c : QueueClass) : (s.tickHead c).sreg = s.sreg := by
  unfold State.tickHead; split <;> simp
@[simp] theorem State.tickHead_vreg (s : State) (c : QueueClass) : (s.tickHead c).vreg = s.vreg := by
  unfold State.tickHead; split <;> simp
@[simp] theorem State.tickHead_vmr (s : State) (c : QueueClass) : (s.tickHead c).vmr = s.vmr := by
  unfold State.tickHead; split <;> simp
@[simp] theorem State.tickHead_vlr (s : State) (c : QueueClass) : (s.tickHead c).vlr = s.vlr := by
  unfold State.tickHead; split <;> simp
@[simp] theorem State.tickHead_pc (s : State) (c : QueueClass) : (s.tickHead c).pc = s.pc := by
  unfold State.tickHead; split <;> simp
@[simp] theorem State.tickHead_cycle (s : State) (c : QueueClass) : (s.tickHead c).cycle = s.cycle := by
  unfold State.tickHead; split <;> simp
@[simp] theorem State.tickHead_status (s : State) (c : QueueClass) : (s.tickHead c).status = s.status := by
  unfold State.tickHead; split <;> simp
@[simp] theorem State.tickHead_fl (s : State) (c : QueueClass) : (s.tickHead c).fl = s.fl := by
  unfold State.tickHead; split <;> simp
@[simp] theorem State.tickHead_dl (s : State) (c : QueueClass) : (s.tickHead c).dl = s.dl := by
  unfold State.tickHead; split <;> simp
@[simp] theorem State.tickHead_busy (s : State) (c : QueueClass) : (s.tickHead c).busy = s.busy := by
  unfold State.tickHead; split <;> simp
@[simp] theorem State.tickHead_err (s : State) (c : QueueClass) : (s.tickHead c).err = s.err := by
  unfold State.tickHead; split <;> simp
theorem State.tickHead_queue_same (s : State) (c : QueueClass) (e : Entry) (rest : List Entry) (h : s.queue c = e :: rest) :
    (s.tickHead c).queue c = { e with elapsed := e.elapsed + 1 } :: rest := by
  simp [State.tickHead, h]
theorem State.tickHead_of_empty (s : State) (c : QueueClass) (h : s.queue c = []) : s.tickHead c = s := by
  simp [State.tickHead, h]
theorem State.tickHead_queue_other (s : State) (c c' : QueueClass) (h : c' ≠ c) :
    (s.tickHead c).queue c' = s.queue c' := by
  unfold State.tickHead; split
  · rfl
  · exact State.setQueue_queue_other s c c' _ h

/-! ### Registers -/

@[simp] theorem State.readS_writeS_same (s : State) (i : SReg) (v : Word) : (s.writeS i v).readS i = v := by
  simp [State.readS]
theorem State.readS_writeS_other (s : State) (i j : SReg) (v : Word) (h : j ≠ i) : (s.writeS i v).readS j = s.readS j := by
  have : i.val ≠ j.val := fun e => h (Fin.ext e.symm)
  simp [State.readS, Vector.getElem_set_ne, this]
@[simp] theorem State.readV_writeV_same (s : State) (i : VReg) (v : Lanes) : (s.writeV i v).readV i = v := by
  simp [State.readV]
theorem State.readV_writeV_other (s : State) (i j : VReg) (v : Lanes) (h : j ≠ i) : (s.writeV i v).readV j = s.readV j := by
  have : i.val ≠ j.val := fun e => h (Fin.ext e.symm)
  simp [State.readV, Vector.getElem_set_ne, this]

/-! ### The halted states -/

@[simp] theorem State.raise_halted (s : State) (info : ErrorRecord) : (s.raise info).halted = true := rfl
@[simp] theorem State.writeS_halted (s : State) (i : SReg) (v : Word) : (s.writeS i v).halted = s.halted := rfl
@[simp] theorem State.writeV_halted (s : State) (i : VReg) (v : Lanes) : (s.writeV i v).halted = s.halted := rfl
@[simp] theorem State.writeVlr_halted (s : State) (v : Word) : (s.writeVlr v).halted = s.halted := rfl
@[simp] theorem State.setQueue_halted (s : State) (c : QueueClass) (q : List Entry) : (s.setQueue c q).halted = s.halted := by
  cases c <;> rfl
@[simp] theorem State.retireHead_halted (s : State) (c : QueueClass) (r : Record) : (s.retireHead c r).halted = s.halted := by
  cases c <;> rfl
@[simp] theorem State.tickHead_halted (s : State) (c : QueueClass) : (s.tickHead c).halted = s.halted := by
  simp [State.halted]
theorem State.halted_iff (s : State) : s.halted = true ↔ s.status = .haltedNormal ∨ s.status = .haltedError := by
  unfold State.halted; split <;> simp_all

/-! ### Sequencing -/

@[simp] theorem andThen_next {σ τ : Type} (s : σ) (f : σ → Host.Outcome τ Fault Refusal) : andThen (.next s) f = f s := rfl
@[simp] theorem andThen_refused {σ τ : Type} (r : Refusal) (f : σ → Host.Outcome τ Fault Refusal) :
    andThen (.refused r) f = .refused r := rfl
/-- A next state out of a sequence comes through a next state of its first part. -/
theorem andThen_eq_next {σ τ : Type} {o : Host.Outcome σ Fault Refusal} {f : σ → Host.Outcome τ Fault Refusal} {t : τ}
    (h : andThen o f = .next t) : ∃ s, o = .next s ∧ f s = .next t := by
  cases o with
  | next s => exact ⟨s, rfl, h⟩
  | fault r => cases r
  | refused r => simp at h

end Sys2Proof.Machine
end

