-- ==== Sys2Proof/Laws/Memory.lean ====
section
/-! SUPPORT. What the memory operations do: read after write, nothing else changed, canonical form kept. -/

namespace Sys2Proof.Machine

variable {α : Type}

@[simp] theorem Memory.lookup_insert_same (m : List (Nat × α)) (a : Nat) (v : α) :
    Memory.lookup (Memory.insert m a v) a = some v := by
  induction m with
  | nil => simp [Memory.insert, Memory.lookup]
  | cons x rest ih =>
    obtain ⟨k, w⟩ := x
    unfold Memory.insert
    split
    · simp [Memory.lookup]
    · split
      · simp [Memory.lookup]
      · next h1 h2 => simp [Memory.lookup, ih, Ne.symm h2]

theorem Memory.lookup_insert_other (m : List (Nat × α)) (a b : Nat) (v : α) (h : b ≠ a) :
    Memory.lookup (Memory.insert m a v) b = Memory.lookup m b := by
  induction m with
  | nil => simp [Memory.insert, Memory.lookup, Ne.symm h]
  | cons x rest ih =>
    obtain ⟨k, w⟩ := x
    unfold Memory.insert
    split
    · simp [Memory.lookup, Ne.symm h]
    · split
      · next h1 h2 => subst h2; simp [Memory.lookup, Ne.symm h]
      · simp [Memory.lookup, ih]

@[simp] theorem Memory.lookup_erase_same (m : List (Nat × α)) (a : Nat) : Memory.lookup (Memory.erase m a) a = none := by
  induction m with
  | nil => rfl
  | cons x rest ih =>
    obtain ⟨k, w⟩ := x
    unfold Memory.erase
    split
    · exact ih
    · next h => simp [Memory.lookup, h, ih]

theorem Memory.lookup_erase_other (m : List (Nat × α)) (a b : Nat) (h : b ≠ a) :
    Memory.lookup (Memory.erase m a) b = Memory.lookup m b := by
  induction m with
  | nil => rfl
  | cons x rest ih =>
    obtain ⟨k, w⟩ := x
    unfold Memory.erase
    split
    · next h1 => subst h1; simp [Memory.lookup, ih, Ne.symm h]
    · simp [Memory.lookup, ih]

/-- Reading a word just written gives the value written (R69). -/
@[simp] theorem Memory.read_write_same (m : Memory) (a : Nat) (v : Word) : Memory.read (Memory.write m a v) a = v := by
  unfold Memory.write Memory.read
  split
  · next h => simp [h]
  · simp

/-- A write changes exactly the one word it names (R69). -/
theorem Memory.read_write_other (m : Memory) (a b : Nat) (v : Word) (h : b ≠ a) :
    Memory.read (Memory.write m a v) b = Memory.read m b := by
  unfold Memory.write Memory.read
  split
  · rw [Memory.lookup_erase_other m a b h]
  · rw [Memory.lookup_insert_other m a b v h]

theorem Memory.mem_insert {m : List (Nat × α)} {a : Nat} {v : α} {x : Nat × α} (h : x ∈ Memory.insert m a v) :
    x = (a, v) ∨ x ∈ m := by
  induction m with
  | nil => simpa [Memory.insert] using h
  | cons y rest ih =>
    obtain ⟨k, w⟩ := y
    unfold Memory.insert at h
    split at h
    · simpa using h
    · split at h
      · rcases List.mem_cons.1 h with h | h
        · exact .inl h
        · exact .inr (List.mem_cons_of_mem _ h)
      · rcases List.mem_cons.1 h with h | h
        · exact .inr (h ▸ List.mem_cons_self)
        · exact (ih h).imp id (List.mem_cons_of_mem _)

theorem Memory.mem_erase {m : List (Nat × α)} {a : Nat} {x : Nat × α} (h : x ∈ Memory.erase m a) : x ∈ m := by
  induction m with
  | nil => exact h
  | cons y rest ih =>
    obtain ⟨k, w⟩ := y
    unfold Memory.erase at h
    split at h
    · exact List.mem_cons_of_mem _ (ih h)
    · rcases List.mem_cons.1 h with h | h
      · exact h ▸ List.mem_cons_self
      · exact List.mem_cons_of_mem _ (ih h)

theorem Memory.insert_sorted {m : List (Nat × α)} (a : Nat) (v : α) (h : m.Pairwise fun x y => x.1 < y.1) :
    (Memory.insert m a v).Pairwise fun x y => x.1 < y.1 := by
  induction m with
  | nil => simp [Memory.insert]
  | cons y rest ih =>
    obtain ⟨k, w⟩ := y
    obtain ⟨hk, hr⟩ := List.pairwise_cons.1 h
    unfold Memory.insert
    split
    · next h1 =>
      refine List.pairwise_cons.2 ⟨fun x hx => ?_, h⟩
      rcases List.mem_cons.1 hx with rfl | hx
      · exact h1
      · exact h1.trans (hk x hx)
    · split
      · next h1 h2 => subst h2; exact List.pairwise_cons.2 ⟨hk, hr⟩
      · next h1 h2 =>
        refine List.pairwise_cons.2 ⟨fun x hx => ?_, ih hr⟩
        rcases Memory.mem_insert hx with rfl | hx
        · exact Nat.lt_of_le_of_ne (Nat.le_of_not_lt h1) (Ne.symm h2)
        · exact hk x hx

theorem Memory.erase_sorted {m : List (Nat × α)} (a : Nat) (h : m.Pairwise fun x y => x.1 < y.1) :
    (Memory.erase m a).Pairwise fun x y => x.1 < y.1 := by
  induction m with
  | nil => exact h
  | cons y rest ih =>
    obtain ⟨k, w⟩ := y
    obtain ⟨hk, hr⟩ := List.pairwise_cons.1 h
    unfold Memory.erase
    split
    · exact ih hr
    · exact List.pairwise_cons.2 ⟨fun x hx => hk x (Memory.mem_erase hx), ih hr⟩

/-- A write keeps the canonical form (log 4). -/
theorem Memory.write_wf {m : Memory} (a : Nat) (v : Word) (h : Memory.wf m) : Memory.wf (Memory.write m a v) := by
  unfold Memory.write
  split
  · exact ⟨Memory.erase_sorted a h.1, fun c hc => h.2 c (Memory.mem_erase hc)⟩
  · next hv =>
    refine ⟨Memory.insert_sorted a v h.1, fun c hc => ?_⟩
    rcases Memory.mem_insert hc with rfl | hc
    · exact hv
    · exact h.2 c hc

/-- A write lists no index but its own anew. -/
theorem Memory.mem_write {m : Memory} {a : Nat} {v : Word} {x : Nat × Word} (h : x ∈ Memory.write m a v) :
    x = (a, v) ∨ x ∈ m := by
  unfold Memory.write at h
  split at h
  · exact .inr (Memory.mem_erase h)
  · exact Memory.mem_insert h

/-- In a sorted memory a listed pair is what the index reads as. -/
theorem Memory.lookup_eq_some_of_mem {m : List (Nat × α)} (h : m.Pairwise fun x y => x.1 < y.1) {a : Nat} {v : α}
    (hm : (a, v) ∈ m) : Memory.lookup m a = some v := by
  induction m with
  | nil => simp at hm
  | cons y rest ih =>
    obtain ⟨k, w⟩ := y
    obtain ⟨hk, hr⟩ := List.pairwise_cons.1 h
    rcases List.mem_cons.1 hm with e | hm
    · cases e; simp [Memory.lookup]
    · have := hk (a, v) hm
      simp only [Memory.lookup]
      rw [if_neg (by intro e; simp [e] at this)]
      exact ih hr hm

/-- A fold of writes keeps the canonical form: stores of many lanes, and the loading of an image. -/
theorem Memory.foldl_wf {β : Type} (f : Memory → β → Memory) (hf : ∀ m x, Memory.wf m → Memory.wf (f m x)) (xs : List β) :
    ∀ m : Memory, Memory.wf m → Memory.wf (xs.foldl f m) := by
  induction xs with
  | nil => exact fun m h => h
  | cons x xs ih => exact fun m h => ih _ (hf m x h)

/-- The memories of `State.reset` are in canonical form. -/
theorem State.reset_memories_wf : Memory.wf State.reset.vdm ∧ Memory.wf State.reset.sdm ∧ InstrMemory.wf State.reset.imem := by
  decide

end Sys2Proof.Machine
end

