-- ==== Sys2Proof/Laws/Boot.lean ====
section
/-! SUPPORT. What a memory holds after its image is loaded, entry by entry (`70_reset_and_hazards.md` R313; log 15). -/

namespace Sys2Proof.Machine

@[simp] theorem lastEntry_nil {α : Type} (a : Nat) : lastEntry ([] : List (Nat × α)) a = none := rfl

theorem lastEntry_cons {α : Type} (x : Nat × α) (img : List (Nat × α)) (a : Nat) :
    lastEntry (x :: img) a = (lastEntry img a).or (if x.1 = a then some x.2 else none) := by
  simp only [lastEntry, List.reverse_cons, List.find?_append]
  cases List.find? (fun x => decide (x.1 = a)) img.reverse <;> by_cases hx : x.1 = a <;> simp [hx]

/-- Inserting an image's lines into `m`: its last entry for an index stands, and `m` keeps the others. -/
theorem lookup_foldl_insert (img : List (Nat × Line)) (a : Nat) : ∀ m : InstrMemory,
    Memory.lookup (img.foldl (fun m x => Memory.insert m x.1 x.2) m) a = (lastEntry img a).or (Memory.lookup m a) := by
  induction img with
  | nil => intro m; simp
  | cons x img ih =>
    intro m
    rw [List.foldl_cons, ih, lastEntry_cons]
    by_cases hx : x.1 = a
    · subst hx
      cases lastEntry img x.1 <;> simp
    · rw [Memory.lookup_insert_other _ _ _ _ (Ne.symm hx)]
      cases lastEntry img a <;> simp [hx]

/-- Writing an image's words into `m`: its last entry for an index stands, and `m` keeps the others. -/
theorem read_foldl_write (img : List (Nat × Int)) (a : Nat) : ∀ m : Memory,
    Memory.read (img.foldl (fun m x => Memory.write m x.1 (BitVec.ofInt 32 x.2)) m) a =
      ((lastEntry img a).map (BitVec.ofInt 32)).getD (Memory.read m a) := by
  induction img with
  | nil => intro m; simp
  | cons x img ih =>
    intro m
    rw [List.foldl_cons, ih, lastEntry_cons]
    by_cases hx : x.1 = a
    · subst hx
      cases lastEntry img x.1 <;> simp
    · rw [Memory.read_write_other _ _ _ _ (Ne.symm hx)]
      cases lastEntry img a <;> simp [hx]

end Sys2Proof.Machine
end

