-- ==== Sys2Proof/Laws/Decode.lean ====
section
/-! SUPPORT. The opcode map is unambiguous, and a decimal number reads back what the encoder wrote (`30_encoding.md`). -/

namespace Sys2Proof

/-- No two rows of the opcode map share a spelling, so each mnemonic reads back as itself (R81, R82). -/
theorem Mnemonic.ofToken_token (m : Mnemonic) : Mnemonic.ofToken m.token = some m := by
  cases m <;> decide

/-- A spelling that reads as `m` is exactly `m`'s (R81). -/
theorem Mnemonic.ofToken_eq_some {t : Token} {m : Mnemonic} (h : Mnemonic.ofToken t = some m) : m.token = t := by
  unfold Mnemonic.ofToken at h
  simpa using List.find?_some h

theorem Mnemonic.mem_all (m : Mnemonic) : m ∈ Mnemonic.all := by cases m <;> decide

/-- A spelling no row has reads as nothing (R81). -/
theorem Mnemonic.ofToken_eq_none {t : Token} : Mnemonic.ofToken t = none ↔ ∀ m : Mnemonic, m.token ≠ t := by
  unfold Mnemonic.ofToken
  rw [List.find?_eq_none]
  constructor
  · intro h m
    simpa using h m (Mnemonic.mem_all m)
  · intro h m _
    simpa using h m

theorem digitValue_digitChar (d : Nat) (h : d < 10) : digitValue (digitChar d) = some d := by
  interval_cases d <;> decide

theorem parseDigits_append (xs ys : List Char) : ∀ acc, parseDigits acc (xs ++ ys) =
    (parseDigits acc xs).bind fun a => parseDigits a ys := by
  induction xs with
  | nil => intro acc; rfl
  | cons x xs ih =>
    intro acc
    simp only [List.cons_append, parseDigits]
    cases digitValue x with
    | none => rfl
    | some d => exact ih _

/-- Reading the digits of `n` onto 0 gives `n`. -/
theorem parseDigits_digitsUpTo (fuel : Nat) : ∀ n, n < 10 ^ fuel → 0 < fuel →
    parseDigits 0 (digitsUpTo fuel n) = some n := by
  induction fuel with
  | zero => intro n _ h; exact absurd h (lt_irrefl 0)
  | succ fuel ih =>
    intro n hn _
    unfold digitsUpTo
    split
    · next h => simp [parseDigits, digitValue_digitChar n h]
    · next h =>
      have hf : 0 < fuel := by
        rcases Nat.eq_zero_or_pos fuel with rfl | hf
        · exact absurd hn (by simpa using Nat.le_of_not_lt h)
        · exact hf
      have hdiv : n / 10 < 10 ^ fuel := by
        rw [Nat.div_lt_iff_lt_mul (by decide)]
        rw [pow_succ] at hn
        exact hn
      rw [parseDigits_append, ih _ hdiv hf]
      simp [parseDigits, digitValue_digitChar (n % 10) (Nat.mod_lt n (by decide)), Nat.div_add_mod]

theorem digitsUpTo_ne_nil (fuel n : Nat) (h : 0 < fuel) : digitsUpTo fuel n ≠ [] := by
  cases fuel with
  | zero => exact absurd h (lt_irrefl 0)
  | succ fuel => unfold digitsUpTo; split <;> simp

/-- A number below 10^10 reads back from its encoding (R84, R86). -/
theorem parseNat_encodeNat (n : Nat) (h : n < 10 ^ 10) : parseNat (encodeNat n) = some n := by
  have hp : parseDigits 0 (encodeNat n) = some n := parseDigits_digitsUpTo 10 n h (by decide)
  have hne : encodeNat n ≠ [] := digitsUpTo_ne_nil 10 n (by decide)
  cases hd : encodeNat n with
  | nil => exact absurd hd hne
  | cons c cs => rw [hd] at hp; exact hp

end Sys2Proof
end

