-- ==== Sys2Proof/Laws/Lanes.lean ====
section
/-! SUPPORT. Everything the lane-wise completion procedures can do (`41_vector_compute.md` R150, `42_vector_data.md` R193). -/

namespace Sys2Proof.Machine

/-- The first hit of a search over the 64 lanes is the lowest lane that hits. -/
theorem findSome_finRange_eq_some {β : Type} {n : Nat} (f : Fin n → Option β) (y : β) :
    (List.finRange n).findSome? f = some y ↔ ∃ l, f l = some y ∧ ∀ k, k < l → f k = none := by
  have gen : ∀ xs : List (Fin n), xs.Pairwise (· < ·) →
      (xs.findSome? f = some y ↔ ∃ l ∈ xs, f l = some y ∧ ∀ k ∈ xs, k < l → f k = none) := by
    intro xs
    induction xs with
    | nil => simp
    | cons x xs ih =>
      intro hp
      obtain ⟨hx, hr⟩ := List.pairwise_cons.1 hp
      rw [List.findSome?_cons]
      cases hfx : f x with
      | some z =>
        constructor
        · intro h
          refine ⟨x, List.mem_cons_self, by rw [hfx]; exact h, fun k hk hlt => ?_⟩
          rcases List.mem_cons.1 hk with rfl | hk
          · exact absurd hlt (lt_irrefl _)
          · exact absurd (hlt.trans (hx k hk)) (lt_irrefl _)
        · rintro ⟨l, hl, hfl, hmin⟩
          rcases List.mem_cons.1 hl with rfl | hl
          · rw [hfx] at hfl; exact hfl
          · have := hmin x List.mem_cons_self (hx l hl); rw [hfx] at this; cases this
      | none =>
        rw [ih hr]
        constructor
        · rintro ⟨l, hl, hfl, hmin⟩
          refine ⟨l, List.mem_cons_of_mem _ hl, hfl, fun k hk hlt => ?_⟩
          rcases List.mem_cons.1 hk with rfl | hk
          · exact hfx
          · exact hmin k hk hlt
        · rintro ⟨l, hl, hfl, hmin⟩
          rcases List.mem_cons.1 hl with rfl | hl
          · rw [hfx] at hfl; cases hfl
          · exact ⟨l, hl, hfl, fun k hk => hmin k (List.mem_cons_of_mem _ hk)⟩
  simpa using gen (List.finRange n) (List.pairwise_lt_finRange n)

/-- No active lane faults (R150). -/
theorem firstFault_eq_none (act : Fin 64 → Bool) (op : Fin 64 → LaneResult) :
    firstFault act op = none ↔ ∀ l, act l = true → ∃ w, op l = .value w := by
  rw [firstFault, List.findSome?_eq_none_iff]
  constructor
  · intro h l hl
    have := h l (List.mem_finRange l)
    rw [if_pos hl] at this
    cases hop : op l with
    | value w => exact ⟨w, rfl⟩
    | fault d => rw [hop] at this; cases this
  · intro h l _
    split
    · next hl => obtain ⟨w, hw⟩ := h l hl; simp [hw]
    · rfl

/-- Lane `l` is the lowest active lane that faults, with detail `d` (R150). -/
theorem firstFault_eq_some (act : Fin 64 → Bool) (op : Fin 64 → LaneResult) (l : Fin 64) (d : Detail) :
    firstFault act op = some (l, d) ↔
      act l = true ∧ op l = .fault d ∧ ∀ k, k < l → act k = true → ∃ w, op k = .value w := by
  have key : ∀ k, (if act k = true then (match op k with | .fault d => some (k, d) | .value _ => none) else none) =
      none ↔ (act k = true → ∃ w, op k = .value w) := by
    intro k
    by_cases hk : act k = true
    · cases hop : op k <;> simp [hk]
    · simp [hk]
  rw [firstFault, findSome_finRange_eq_some]
  constructor
  · rintro ⟨k, hk, hmin⟩
    by_cases hact : act k = true
    · rw [if_pos hact] at hk
      cases hop : op k with
      | value w => rw [hop] at hk; cases hk
      | fault d' =>
        rw [hop] at hk
        cases hk
        exact ⟨hact, hop, fun j hj => (key j).1 (hmin j hj)⟩
    · rw [if_neg hact] at hk; cases hk
  · rintro ⟨hact, hop, hmin⟩
    exact ⟨l, by simp [hact, hop], fun k hk => (key k).2 (hmin k hk)⟩

/-- A lane of the written register after `writeLanes`: the new value where active, else the old one (R150, R151). -/
theorem State.lane_writeLanes_same (s : State) (i : VReg) (act : Fin 64 → Bool) (f : Fin 64 → Word) (l : Fin 64) :
    (s.writeLanes i act f).lane i l = if act l then f l else s.lane i l := by
  simp [State.lane, State.writeLanes]

theorem State.readV_writeLanes_other (s : State) (i j : VReg) (act : Fin 64 → Bool) (f : Fin 64 → Word) (h : j ≠ i) :
    (s.writeLanes i act f).readV j = s.readV j := State.readV_writeV_other s i j _ h

/-- Writing no lane is no change. -/
theorem State.writeLanes_none (s : State) (i : VReg) (act : Fin 64 → Bool) (f : Fin 64 → Word)
    (h : ∀ l, act l = false) : s.writeLanes i act f = s := by
  have hv : s.vreg.set i.val (Vector.ofFn fun l => if act l then f l else s.lane i l) = s.vreg := by
    apply Vector.ext
    intro j hj
    by_cases e : i.val = j
    · subst e
      rw [Vector.getElem_set_self]
      apply Vector.ext
      intro k hk
      simp [h, State.lane, State.readV]
    · rw [Vector.getElem_set_ne (h := e)]
  unfold State.writeLanes State.writeV
  rw [hv]

/-- Everything `computeLanes` can do: raise the lowest active fault, or write the active lanes (R150). -/
theorem computeLanes_cases (m : Mnemonic) (d : VReg) (op : Fin 64 → LaneResult) (s : State) :
    (∃ l det, firstFault (s.active .vectorCompute) op = some (l, det) ∧
        computeLanes m d op s = .next (s.raise (arithmeticFault (s.headIndex .vectorCompute) m l det))) ∨
      (firstFault (s.active .vectorCompute) op = none ∧
        computeLanes m d op s = .next (s.writeLanes d (s.active .vectorCompute) fun l => (op l).word)) := by
  unfold computeLanes
  cases h : firstFault (s.active .vectorCompute) op with
  | none => exact .inr ⟨rfl, rfl⟩
  | some x => exact .inl ⟨x.1, x.2, rfl, rfl⟩

/-- No active lane's address is out of bounds (R193). -/
theorem State.firstBadAddress_eq_none (s : State) (addr : Fin 64 → Int) :
    s.firstBadAddress addr = none ↔ ∀ l, s.active .vectorData l = true → s.inVdm (addr l) = true := by
  rw [State.firstBadAddress, List.findSome?_eq_none_iff]
  constructor
  · intro h l hl
    have := h l (List.mem_finRange l)
    cases hb : s.inVdm (addr l) with
    | true => rfl
    | false => simp [hl, hb] at this
  · intro h l _
    by_cases hl : s.active .vectorData l = true
    · simp [hl, h l hl]
    · simp [hl]

/-- Lane `l` is the lowest active lane whose address is out of bounds (R194). -/
theorem State.firstBadAddress_eq_some (s : State) (addr : Fin 64 → Int) (l : Fin 64) (a : Int) :
    s.firstBadAddress addr = some (l, a) ↔ s.active .vectorData l = true ∧ s.inVdm (addr l) = false ∧ a = addr l ∧
      ∀ k, k < l → s.active .vectorData k = true → s.inVdm (addr k) = true := by
  rw [State.firstBadAddress, findSome_finRange_eq_some]
  constructor
  · rintro ⟨k, hk, hmin⟩
    by_cases hc : (s.active .vectorData k && !s.inVdm (addr k)) = true
    · rw [if_pos hc] at hk
      cases hk
      simp only [Bool.and_eq_true, Bool.not_eq_true'] at hc
      refine ⟨hc.1, hc.2, rfl, fun j hj hact => ?_⟩
      have := hmin j hj
      cases hb : s.inVdm (addr j) with
      | true => rfl
      | false => simp [hact, hb] at this
    · rw [if_neg hc] at hk; cases hk
  · rintro ⟨h1, h2, rfl, h3⟩
    refine ⟨l, by simp [h1, h2], fun k hk => ?_⟩
    by_cases hact : s.active .vectorData k = true
    · simp [hact, h3 k hk hact]
    · simp [hact]

/-- Everything `loadLanes` can do (R193). -/
theorem loadLanes_cases (m : Mnemonic) (d : VReg) (addr : Fin 64 → Int) (s : State) :
    (∃ l a, s.firstBadAddress addr = some (l, a) ∧
        loadLanes m d addr s = .next (s.raise (dataAddressFault (s.headIndex .vectorData) m l a))) ∨
      (s.firstBadAddress addr = none ∧
        loadLanes m d addr s =
          .next (s.writeLanes d (s.active .vectorData) fun l => Memory.read s.vdm (addr l).toNat)) := by
  unfold loadLanes
  cases h : s.firstBadAddress addr with
  | none => exact .inr ⟨rfl, rfl⟩
  | some x => exact .inl ⟨x.1, x.2, rfl, rfl⟩

/-- Everything `storeLanes` can do (R193). -/
theorem storeLanes_cases (m : Mnemonic) (v : VReg) (addr : Fin 64 → Int) (s : State) :
    (∃ l a, s.firstBadAddress addr = some (l, a) ∧
        storeLanes m v addr s = .next (s.raise (dataAddressFault (s.headIndex .vectorData) m l a))) ∨
      (s.firstBadAddress addr = none ∧
        storeLanes m v addr s =
          .next { s with vdm := storeActive (s.active .vectorData) addr (s.lane v) s.vdm }) := by
  unfold storeLanes
  cases h : s.firstBadAddress addr with
  | none => exact .inr ⟨rfl, rfl⟩
  | some x => exact .inl ⟨x.1, x.2, rfl, rfl⟩

/-- A store keeps the canonical form of the memory (log 4). -/
theorem storeActive_wf (act : Fin 64 → Bool) (addr : Fin 64 → Int) (val : Fin 64 → Word) (m : Memory) (h : Memory.wf m) :
    Memory.wf (storeActive act addr val m) := by
  refine Memory.foldl_wf _ (fun m l hm => ?_) _ m h
  split
  · exact Memory.write_wf _ _ hm
  · exact hm

/-- A word no active lane addresses keeps its value through a store (R69, R195). -/
theorem read_storeActive_other (act : Fin 64 → Bool) (addr : Fin 64 → Int) (val : Fin 64 → Word) (m : Memory) (a : Nat)
    (h : ∀ l, act l = true → (addr l).toNat ≠ a) : Memory.read (storeActive act addr val m) a = Memory.read m a := by
  unfold storeActive
  suffices gen : ∀ (xs : List (Fin 64)) (m : Memory),
      Memory.read (xs.foldl (fun m l => if act l then Memory.write m (addr l).toNat (val l) else m) m) a =
        Memory.read m a from gen _ m
  intro xs
  induction xs with
  | nil => intro m; rfl
  | cons x xs ih =>
    intro m
    rw [List.foldl_cons, ih]
    split
    · next hx => exact Memory.read_write_other m _ _ _ (fun e => h x hx e.symm)
    · rfl

/-- The word of a lane that no higher active lane addresses holds that lane's value after a store (R195). -/
theorem read_storeActive_last (act : Fin 64 → Bool) (addr : Fin 64 → Int) (val : Fin 64 → Word) (m : Memory) (l : Fin 64)
    (hl : act l = true) (hlast : ∀ k, l < k → act k = true → (addr k).toNat ≠ (addr l).toNat) :
    Memory.read (storeActive act addr val m) (addr l).toNat = val l := by
  unfold storeActive
  suffices gen : ∀ (xs : List (Fin 64)) (m : Memory), xs.Pairwise (· < ·) → l ∈ xs →
      Memory.read (xs.foldl (fun m l => if act l then Memory.write m (addr l).toNat (val l) else m) m) (addr l).toNat =
        val l from gen _ m (List.pairwise_lt_finRange 64) (List.mem_finRange l)
  have after : ∀ (xs : List (Fin 64)) (m : Memory), (∀ k ∈ xs, l < k) →
      Memory.read (xs.foldl (fun m l => if act l then Memory.write m (addr l).toNat (val l) else m) m) (addr l).toNat =
        Memory.read m (addr l).toNat := by
    intro xs
    induction xs with
    | nil => intro m _; rfl
    | cons x xs ih =>
      intro m hk
      rw [List.foldl_cons, ih _ fun k h => hk k (List.mem_cons_of_mem _ h)]
      split
      · next hx => exact Memory.read_write_other m _ _ _ (Ne.symm (hlast x (hk x List.mem_cons_self) hx))
      · rfl
  intro xs
  induction xs with
  | nil => intro m _ h; cases h
  | cons x xs ih =>
    intro m hp hmem
    obtain ⟨hx, hr⟩ := List.pairwise_cons.1 hp
    rw [List.foldl_cons]
    rcases List.mem_cons.1 hmem with rfl | hmem
    · rw [after xs _ hx, if_pos hl, Memory.read_write_same]
    · exact ih _ hr hmem

end Sys2Proof.Machine
end

