-- ==== Sys2Proof/Laws/PerInstr.lean ====
section
/-! SUPPORT. Statements about an instruction as syntax, one lemma per constructor. `TokenCount`: the line of an instruction
has exactly the token count of its format (`30_encoding.md` R82, R83). -/

namespace Sys2Proof.Laws

/-- The encoded line has the token count of the instruction's format, and starts with its mnemonic (R82, R83). -/
def TokenCount.Statement (i : Instr) : Prop :=
  (encode i).length = i.mnemonic.format.tokenCount ∧ (encode i).head? = some i.mnemonic.token

theorem TokenCount.addvv (a b c : VReg) : TokenCount.Statement (.addvv a b c) := ⟨rfl, rfl⟩
theorem TokenCount.subvv (a b c : VReg) : TokenCount.Statement (.subvv a b c) := ⟨rfl, rfl⟩
theorem TokenCount.mulvv (a b c : VReg) : TokenCount.Statement (.mulvv a b c) := ⟨rfl, rfl⟩
theorem TokenCount.divvv (a b c : VReg) : TokenCount.Statement (.divvv a b c) := ⟨rfl, rfl⟩
theorem TokenCount.unpacklo (a b c : VReg) : TokenCount.Statement (.unpacklo a b c) := ⟨rfl, rfl⟩
theorem TokenCount.unpackhi (a b c : VReg) : TokenCount.Statement (.unpackhi a b c) := ⟨rfl, rfl⟩
theorem TokenCount.packlo (a b c : VReg) : TokenCount.Statement (.packlo a b c) := ⟨rfl, rfl⟩
theorem TokenCount.packhi (a b c : VReg) : TokenCount.Statement (.packhi a b c) := ⟨rfl, rfl⟩
theorem TokenCount.addvs (a b : VReg) (c : SReg) : TokenCount.Statement (.addvs a b c) := ⟨rfl, rfl⟩
theorem TokenCount.subvs (a b : VReg) (c : SReg) : TokenCount.Statement (.subvs a b c) := ⟨rfl, rfl⟩
theorem TokenCount.mulvs (a b : VReg) (c : SReg) : TokenCount.Statement (.mulvs a b c) := ⟨rfl, rfl⟩
theorem TokenCount.divvs (a b : VReg) (c : SReg) : TokenCount.Statement (.divvs a b c) := ⟨rfl, rfl⟩
theorem TokenCount.pop (a : SReg) : TokenCount.Statement (.pop a) := ⟨rfl, rfl⟩
theorem TokenCount.mtcl (a : SReg) : TokenCount.Statement (.mtcl a) := ⟨rfl, rfl⟩
theorem TokenCount.mfcl (a : SReg) : TokenCount.Statement (.mfcl a) := ⟨rfl, rfl⟩
theorem TokenCount.b (a : Int) : TokenCount.Statement (.b a) := ⟨rfl, rfl⟩
theorem TokenCount.lv (a : VReg) (b : SReg) : TokenCount.Statement (.lv a b) := ⟨rfl, rfl⟩
theorem TokenCount.sv (a : VReg) (b : SReg) : TokenCount.Statement (.sv a b) := ⟨rfl, rfl⟩
theorem TokenCount.lvws (a : VReg) (b c : SReg) : TokenCount.Statement (.lvws a b c) := ⟨rfl, rfl⟩
theorem TokenCount.svws (a : VReg) (b c : SReg) : TokenCount.Statement (.svws a b c) := ⟨rfl, rfl⟩

end Sys2Proof.Laws
end

