-- ==== Sys2Proof/Laws/Scoreboard.lean ====
section
/-! SUPPORT. The scoreboard's bits after one update and after many (`10_state.md` R38). -/

namespace Sys2Proof.Machine

@[simp] theorem Scoreboard.get_put_same (b : Scoreboard) (x : RegName) (v : Bool) : (b.put x v).get x = v := by
  cases x <;> simp [Scoreboard.get, Scoreboard.put]

theorem Scoreboard.get_put_other (b : Scoreboard) (x y : RegName) (v : Bool) (h : y ≠ x) : (b.put x v).get y = b.get y := by
  cases x with
  | scalar i =>
    cases y with
    | scalar j =>
      have : i.val ≠ j.val := fun e => h (by rw [Fin.ext e])
      simp [Scoreboard.get, Scoreboard.put, Vector.getElem_set_ne, this]
    | vector j => rfl
    | mask => rfl
    | length => rfl
  | vector i =>
    cases y with
    | vector j =>
      have : i.val ≠ j.val := fun e => h (by rw [Fin.ext e])
      simp [Scoreboard.get, Scoreboard.put, Vector.getElem_set_ne, this]
    | scalar j => rfl
    | mask => rfl
    | length => rfl
  | mask => cases y <;> first | rfl | exact absurd rfl h
  | length => cases y <;> first | rfl | exact absurd rfl h

/-- The bits after `busy[x] <- v` for every `x` of a list. -/
theorem Scoreboard.get_putAll (xs : List RegName) (v : Bool) (y : RegName) :
    ∀ b : Scoreboard, (b.putAll xs v).get y = if y ∈ xs then v else b.get y := by
  induction xs with
  | nil => intro b; simp [Scoreboard.putAll]
  | cons x xs ih =>
    intro b
    have step : (b.putAll (x :: xs) v) = (b.put x v).putAll xs v := rfl
    rw [step, ih]
    by_cases h1 : y ∈ xs
    · simp [h1]
    · by_cases h2 : y = x
      · subst h2; simp
      · simp [h1, h2, Scoreboard.get_put_other b x y v h2]

@[simp] theorem Scoreboard.get_free (x : RegName) : Scoreboard.free.get x = false := by
  cases x <;> simp [Scoreboard.get, Scoreboard.free]

/-- Two scoreboards with the same bits are the same. -/
theorem Scoreboard.ext_get (a b : Scoreboard) (h : ∀ x, a.get x = b.get x) : a = b := by
  obtain ⟨as, av, am, al⟩ := a
  obtain ⟨bs, bv, bm, bl⟩ := b
  have hs : as = bs := Vector.ext fun i hi => h (.scalar ⟨i, hi⟩)
  have hv : av = bv := Vector.ext fun i hi => h (.vector ⟨i, hi⟩)
  have hm : am = bm := h .mask
  have hl : al = bl := h .length
  simp [hs, hv, hm, hl]

/-- `anyBusy` says that some register of the list is busy. -/
theorem State.anyBusy_eq_false (s : State) (xs : List RegName) : s.anyBusy xs = false ↔ ∀ x ∈ xs, s.busy.get x = false := by
  simp [State.anyBusy]

/-- `holdsAll` says that every register of the list is busy. -/
theorem State.holdsAll_eq_true (s : State) (xs : List RegName) : s.holdsAll xs = true ↔ ∀ x ∈ xs, s.busy.get x = true := by
  simp [State.holdsAll]

/-- The marked set, name by name (R123, R124). -/
theorem mem_markSet (i : Instr) (x : RegName) :
    x ∈ markSet i ↔ (∃ v ∈ i.vectorRegs, x = .vector v) ∨ (∃ r ∈ i.scalarRegs, x = .scalar r) ∨
      (x = .length ∧ i.mnemonic = .mtcl) := by
  have himp : x ∈ implicitDest i ↔ x = .length ∧ i.mnemonic = .mtcl := by
    cases i <;> simp [implicitDest, Instr.mnemonic]
  simp only [markSet, refSet, List.mem_append, List.mem_dedup, List.mem_map, himp]
  constructor
  · rintro ((⟨v, hv, rfl⟩ | ⟨r, hr, rfl⟩) | h)
    · exact .inl ⟨v, hv, rfl⟩
    · exact .inr (.inl ⟨r, hr, rfl⟩)
    · exact .inr (.inr h)
  · rintro (⟨v, hv, rfl⟩ | ⟨r, hr, rfl⟩ | h)
    · exact .inl (.inl ⟨v, hv, rfl⟩)
    · exact .inl (.inr ⟨r, hr, rfl⟩)
    · exact .inr h

end Sys2Proof.Machine
end

