-- ==== Sys2Proof/Laws/Pipeline.lean ====
section
/-! SUPPORT. Everything a meaning, a unit, the dispatcher, the front end and the end of a cycle can do: one inversion lemma
for each, which later proofs cite. -/

namespace Sys2Proof.Machine

/-- The four ways a meaning changes the state, and the error it may raise instead. -/
inductive Effect where
  | lanes (d : VReg)
  | store
  | scalar (d : SReg)
  | length
  | branch
  | error
  deriving DecidableEq, Repr

/-- State `t` comes from `s` by one effect, and by nothing else. -/
def Effect.holds (e : Effect) (s t : State) : Prop :=
  match e with
  | .lanes d => ∃ act f, t = s.writeLanes d act f
  | .store => ∃ act addr val, t = { s with vdm := storeActive act addr val s.vdm }
  | .scalar d => ∃ v, t = s.writeS d v
  | .length => ∃ v, t = s.writeVlr v
  | .branch => ∃ pc, t = { s with fl := none, pc := pc }
  | .error => ∃ info, t = s.raise info ∧ info.kind ≠ .hazardViolation

/-- The effect an instruction has when it raises nothing. -/
def effectOf : Instr → Effect
  | .addvv d _ _ | .subvv d _ _ | .mulvv d _ _ | .divvv d _ _ => .lanes d
  | .unpacklo d _ _ | .unpackhi d _ _ | .packlo d _ _ | .packhi d _ _ => .lanes d
  | .addvs d _ _ | .subvs d _ _ | .mulvs d _ _ | .divvs d _ _ => .lanes d
  | .pop d | .mfcl d => .scalar d
  | .mtcl _ => .length
  | .b _ => .branch
  | .lv d _ | .lvws d _ _ => .lanes d
  | .sv _ _ | .svws _ _ _ => .store

theorem computeLanes_effect (m : Mnemonic) (d : VReg) (op : Fin 64 → LaneResult) (s : State) :
    ∃ t, computeLanes m d op s = .next t ∧ (Effect.holds (.lanes d) s t ∨ Effect.holds .error s t) := by
  rcases computeLanes_cases m d op s with ⟨l, det, -, h⟩ | ⟨-, h⟩
  · exact ⟨_, h, .inr ⟨_, rfl, by simp [arithmeticFault]⟩⟩
  · exact ⟨_, h, .inl ⟨_, _, rfl⟩⟩

theorem loadLanes_effect (m : Mnemonic) (d : VReg) (addr : Fin 64 → Int) (s : State) :
    ∃ t, loadLanes m d addr s = .next t ∧ (Effect.holds (.lanes d) s t ∨ Effect.holds .error s t) := by
  rcases loadLanes_cases m d addr s with ⟨l, a, -, h⟩ | ⟨-, h⟩
  · exact ⟨_, h, .inr ⟨_, rfl, by simp [dataAddressFault]⟩⟩
  · exact ⟨_, h, .inl ⟨_, _, rfl⟩⟩

theorem storeLanes_effect (m : Mnemonic) (v : VReg) (addr : Fin 64 → Int) (s : State) :
    ∃ t, storeLanes m v addr s = .next t ∧ (Effect.holds .store s t ∨ Effect.holds .error s t) := by
  rcases storeLanes_cases m v addr s with ⟨l, a, -, h⟩ | ⟨-, h⟩
  · exact ⟨_, h, .inr ⟨_, rfl, by simp [dataAddressFault]⟩⟩
  · exact ⟨_, h, .inl ⟨_, _, _, rfl⟩⟩

theorem execB_effect (off : Int) (s : State) :
    ∃ t, execB off s = .next t ∧ (Effect.holds .branch s t ∨ Effect.holds .error s t) := by
  unfold execB
  split
  · exact ⟨_, rfl, .inl ⟨_, rfl⟩⟩
  · exact ⟨_, rfl, .inr ⟨_, rfl, by simp [branchTargetFault]⟩⟩

/-- Every meaning answers a next state, by the effect of its instruction or by raising an error. -/
theorem exec_effect (i : Instr) (s : State) :
    ∃ t, exec i s = .next t ∧ ((effectOf i).holds s t ∨ Effect.holds .error s t) := by
  cases i with
  | addvv d s1 s2 => exact computeLanes_effect _ _ _ _
  | subvv d s1 s2 => exact computeLanes_effect _ _ _ _
  | mulvv d s1 s2 => exact computeLanes_effect _ _ _ _
  | divvv d s1 s2 => exact computeLanes_effect _ _ _ _
  | unpacklo d s1 s2 => exact computeLanes_effect _ _ _ _
  | unpackhi d s1 s2 => exact computeLanes_effect _ _ _ _
  | packlo d s1 s2 => exact computeLanes_effect _ _ _ _
  | packhi d s1 s2 => exact computeLanes_effect _ _ _ _
  | addvs d v t => exact computeLanes_effect _ _ _ _
  | subvs d v t => exact computeLanes_effect _ _ _ _
  | mulvs d v t => exact computeLanes_effect _ _ _ _
  | divvs d v t => exact computeLanes_effect _ _ _ _
  | pop d => exact ⟨_, rfl, .inl ⟨_, rfl⟩⟩
  | mtcl r => exact ⟨_, rfl, .inl ⟨_, rfl⟩⟩
  | mfcl d => exact ⟨_, rfl, .inl ⟨_, rfl⟩⟩
  | b off => exact execB_effect off s
  | lv d base => exact loadLanes_effect _ _ _ _
  | sv v base => exact storeLanes_effect _ _ _ _
  | lvws d base stride => exact loadLanes_effect _ _ _ _
  | svws v base stride => exact storeLanes_effect _ _ _ _

/-- What no effect touches. -/
structure SameControl (s t : State) : Prop where
  cfg : t.cfg = s.cfg
  imem : t.imem = s.imem
  sdm : t.sdm = s.sdm
  vmr : t.vmr = s.vmr
  cycle : t.cycle = s.cycle
  dl : t.dl = s.dl
  qCompute : t.qCompute = s.qCompute
  qData : t.qData = s.qData
  qScalar : t.qScalar = s.qScalar
  busy : t.busy = s.busy

theorem Effect.sameControl {e : Effect} {s t : State} (h : e.holds s t) : SameControl s t := by
  cases e with
  | lanes d => obtain ⟨act, f, rfl⟩ := h; exact ⟨rfl, rfl, rfl, rfl, rfl, rfl, rfl, rfl, rfl, rfl⟩
  | store => obtain ⟨act, addr, val, rfl⟩ := h; exact ⟨rfl, rfl, rfl, rfl, rfl, rfl, rfl, rfl, rfl, rfl⟩
  | scalar d => obtain ⟨v, rfl⟩ := h; exact ⟨rfl, rfl, rfl, rfl, rfl, rfl, rfl, rfl, rfl, rfl⟩
  | length => obtain ⟨v, rfl⟩ := h; exact ⟨rfl, rfl, rfl, rfl, rfl, rfl, rfl, rfl, rfl, rfl⟩
  | branch => obtain ⟨pc, rfl⟩ := h; exact ⟨rfl, rfl, rfl, rfl, rfl, rfl, rfl, rfl, rfl, rfl⟩
  | error => obtain ⟨info, rfl, -⟩ := h; exact ⟨rfl, rfl, rfl, rfl, rfl, rfl, rfl, rfl, rfl, rfl⟩

/-- An effect that is no error leaves the status and the error record alone. -/
theorem Effect.sameStatus {e : Effect} {s t : State} (h : e.holds s t) (he : e ≠ .error) :
    t.status = s.status ∧ t.err = s.err := by
  cases e with
  | lanes d => obtain ⟨act, f, rfl⟩ := h; exact ⟨rfl, rfl⟩
  | store => obtain ⟨act, addr, val, rfl⟩ := h; exact ⟨rfl, rfl⟩
  | scalar d => obtain ⟨v, rfl⟩ := h; exact ⟨rfl, rfl⟩
  | length => obtain ⟨v, rfl⟩ := h; exact ⟨rfl, rfl⟩
  | branch => obtain ⟨pc, rfl⟩ := h; exact ⟨rfl, rfl⟩
  | error => exact absurd rfl he

theorem effectOf_ne_error (i : Instr) : effectOf i ≠ .error := by
  cases i <;> simp [effectOf]

/-- A completion answers a next state: the instruction's effect, an error, or for `B` no change (R220, R224). -/
theorem completeEntry_effect (e : Entry) (s : State) :
    ∃ t, completeEntry e s = .next t ∧
      ((e.record.instr.mnemonic ≠ .b ∧ (effectOf e.record.instr).holds s t) ∨ (e.record.instr.mnemonic = .b ∧ t = s) ∨
        Effect.holds .error s t) := by
  unfold completeEntry
  split
  · next h => exact ⟨s, rfl, .inr (.inl ⟨h, rfl⟩)⟩
  · next h =>
    obtain ⟨t, ht, he⟩ := exec_effect e.record.instr s
    exact ⟨t, ht, he.elim (fun h' => .inl ⟨h, h'⟩) (fun h' => .inr (.inr h'))⟩

/-- Everything one unit's share of the execute phase can do to a core that is not halted (R132, R135): nothing, a tick, a
raise, or a completion that retires the head. -/
theorem advanceUnit_cases (c : QueueClass) (s : State) (hs : s.halted = false) :
    (s.queue c = [] ∧ advanceUnit c s = .next s) ∨
      ∃ e rest, s.queue c = e :: rest ∧
        ((e.elapsed + 1 ≠ e.record.cycleLatency ∧ advanceUnit c s = .next (s.tickHead c)) ∨
          (e.elapsed + 1 = e.record.cycleLatency ∧
            ((∃ t, Effect.holds .error (s.tickHead c) t ∧ advanceUnit c s = .next t) ∨
              (s.holdsAll (markSet e.record.instr) = false ∧
                advanceUnit c s = .next ((s.tickHead c).raise (hazardViolation e.record))) ∨
              ∃ t, ((e.record.instr.mnemonic ≠ .b ∧ (effectOf e.record.instr).holds (s.tickHead c) t) ∨
                  (e.record.instr.mnemonic = .b ∧ t = s.tickHead c)) ∧ t.halted = false ∧
                s.holdsAll (markSet e.record.instr) = true ∧
                advanceUnit c s = .next (t.retireHead c e.record)))) := by
  cases hq : s.queue c with
  | nil =>
    refine .inl ⟨rfl, ?_⟩
    unfold advanceUnit
    rw [State.tickHead_of_empty s c hq, hq]
  | cons e rest =>
    refine .inr ⟨e, rest, rfl, ?_⟩
    have htq := State.tickHead_queue_same s c e rest hq
    by_cases hdue : e.elapsed + 1 = e.record.cycleLatency
    · refine .inr ⟨hdue, ?_⟩
      have hadv : advanceUnit c s = (s.tickHead c).finishHead c { e with elapsed := e.elapsed + 1 } := by
        unfold advanceUnit
        rw [htq]
        simp [Entry.due, hdue]
      have hmark : (s.tickHead c).holdsAll (markSet e.record.instr) = s.holdsAll (markSet e.record.instr) := by
        simp [State.holdsAll]
      have hth : (s.tickHead c).halted = false := by simpa using hs
      obtain ⟨t, ht, he⟩ := completeEntry_effect { e with elapsed := e.elapsed + 1 } (s.tickHead c)
      have hfin : advanceUnit c s =
          if t.halted then .next t
          else if s.holdsAll (markSet e.record.instr) then .next (t.retireHead c e.record)
          else .next ((s.tickHead c).raise (hazardViolation e.record)) := by
        rw [hadv, State.finishHead, ht, andThen_next, hmark]
      have good : (e.record.instr.mnemonic ≠ .b ∧ (effectOf e.record.instr).holds (s.tickHead c) t) ∨
            (e.record.instr.mnemonic = .b ∧ t = s.tickHead c) → t.halted = false := by
        rintro (⟨-, h⟩ | ⟨-, rfl⟩)
        · have := (Effect.sameStatus h (effectOf_ne_error _)).1
          simpa [State.halted, this] using hth
        · exact hth
      rcases he with he | he | he
      · have hh := good (.inl he)
        rw [hh] at hfin
        cases hm : s.holdsAll (markSet e.record.instr) with
        | true => exact .inr (.inr ⟨t, .inl he, hh, rfl, by simpa [hm] using hfin⟩)
        | false => exact .inr (.inl ⟨rfl, by simpa [hm] using hfin⟩)
      · have hh := good (.inr he)
        rw [hh] at hfin
        cases hm : s.holdsAll (markSet e.record.instr) with
        | true => exact .inr (.inr ⟨t, .inr he, hh, rfl, by simpa [hm] using hfin⟩)
        | false => exact .inr (.inl ⟨rfl, by simpa [hm] using hfin⟩)
      · refine .inl ⟨t, he, ?_⟩
        obtain ⟨info, rfl, -⟩ := he
        simpa using hfin
    · refine .inl ⟨hdue, ?_⟩
      unfold advanceUnit
      rw [htq]
      simp [Entry.due, hdue]

/-- A unit always answers a next state. -/
theorem advanceUnit_next (c : QueueClass) (s : State) : ∃ t, advanceUnit c s = .next t := by
  unfold advanceUnit
  split
  · exact ⟨_, rfl⟩
  · next e rest _ =>
    split
    · unfold State.finishHead
      obtain ⟨t, ht, -⟩ := completeEntry_effect e (s.tickHead c)
      rw [ht, andThen_next]
      split
      · exact ⟨_, rfl⟩
      · split <;> exact ⟨_, rfl⟩
    · exact ⟨_, rfl⟩

/-- The execute phase always answers a next state. -/
theorem executePhase_next (s : State) : ∃ t, executePhase s = .next t := by
  have hunless : ∀ c s, ∃ t, unlessHalted (advanceUnit c) s = .next t := by
    intro c s
    unfold unlessHalted
    split
    · exact ⟨_, rfl⟩
    · exact advanceUnit_next c s
  obtain ⟨s1, h1⟩ := advanceUnit_next .vectorCompute s
  obtain ⟨s2, h2⟩ := hunless .vectorData s1
  obtain ⟨s3, h3⟩ := hunless .scalarOps s2
  exact ⟨s3, by rw [executePhase, h1, andThen_next, h2, andThen_next, h3]⟩

/-- When dispatch of a record stalls, and why (R126, R128). -/
theorem State.stallReason_cases (s : State) (r : Record) :
    (s.stallReason r = some .registerBusy ∧ ∃ x ∈ checkSet r.instr, s.busy.get x = true) ∨
      (s.stallReason r = some .queueFull ∧ (∀ x ∈ checkSet r.instr, s.busy.get x = false) ∧
        s.cap r.instr.queueClass ≤ (s.queue r.instr.queueClass).length) ∨
      (s.stallReason r = none ∧ (∀ x ∈ checkSet r.instr, s.busy.get x = false) ∧
        (s.queue r.instr.queueClass).length < s.cap r.instr.queueClass) := by
  unfold State.stallReason
  by_cases h : s.anyBusy (checkSet r.instr) = true
  · refine .inl ⟨by simp [h], ?_⟩
    simpa [State.anyBusy] using h
  · have hf : s.anyBusy (checkSet r.instr) = false := by simpa using h
    have hall := (State.anyBusy_eq_false s _).1 hf
    by_cases hc : s.cap r.instr.queueClass ≤ (s.queue r.instr.queueClass).length
    · exact .inr (.inl ⟨by simp [hf, hc], hall, hc⟩)
    · exact .inr (.inr ⟨by simp [hf, hc], hall, Nat.lt_of_not_le hc⟩)

/-- An accepted dispatch finds its marked registers free, so the check of R135 does not fire (R121, R126). -/
theorem State.enqueue_of_free (s : State) (r : Record) (h : ∀ x ∈ markSet r.instr, s.busy.get x = false) :
    s.enqueue r =
      { s.setQueue r.instr.queueClass (s.queue r.instr.queueClass ++ [s.newEntry r]) with
        busy := s.busy.putAll (markSet r.instr) true
        dl := none } := by
  unfold State.enqueue
  rw [if_neg]
  simpa [State.anyBusy] using h

/-- Everything the dispatch phase can do (R128, R254). -/
theorem dispatchPhase_cases (s : State) :
    (s.dl = none ∧ dispatchPhase s = .next { state := s, stalled := none, squashed := false }) ∨
      ∃ r, s.dl = some r ∧
        ((∃ reason, s.stallReason r = some reason ∧
            dispatchPhase s = .next { state := s, stalled := some reason, squashed := false }) ∨
          (s.stallReason r = none ∧ r.instr.mnemonic ≠ .b ∧
            dispatchPhase s = .next { state := s.enqueue r, stalled := none, squashed := false }) ∨
          (s.stallReason r = none ∧ r.instr.mnemonic = .b ∧
            ((∃ t, Effect.holds .error s t ∧
                dispatchPhase s = .next { state := t, stalled := none, squashed := false }) ∨
              ∃ t, Effect.holds .branch s t ∧
                dispatchPhase s = if t.halted then .next { state := t, stalled := none, squashed := false }
                  else .next { state := t.enqueue r, stalled := none, squashed := true }))) := by
  cases hd : s.dl with
  | none => exact .inl ⟨rfl, by simp [dispatchPhase, hd]⟩
  | some r =>
    refine .inr ⟨r, rfl, ?_⟩
    cases hst : s.stallReason r with
    | some reason => exact .inl ⟨reason, rfl, by simp [dispatchPhase, hd, hst]⟩
    | none =>
      have hp : dispatchPhase s = s.dispatchRecord r := by simp [dispatchPhase, hd, hst]
      by_cases hb : r.instr.mnemonic = .b
      · refine .inr (.inr ⟨rfl, hb, ?_⟩)
        have heff : effectOf r.instr = .branch := by
          cases hi : r.instr <;> simp [hi, Instr.mnemonic, effectOf] at hb ⊢
        obtain ⟨t, ht, he⟩ := exec_effect r.instr s
        have hp' : dispatchPhase s = if t.halted then .next { state := t, stalled := none, squashed := false }
            else .next { state := t.enqueue r, stalled := none, squashed := true } := by
          rw [hp, State.dispatchRecord, if_pos hb, ht, andThen_next]
        rw [heff] at he
        rcases he with he | he
        · exact .inr ⟨t, he, hp'⟩
        · refine .inl ⟨t, he, ?_⟩
          obtain ⟨info, rfl, -⟩ := he
          simpa using hp'
      · exact .inr (.inl ⟨rfl, hb, by rw [hp, State.dispatchRecord, if_neg hb]⟩)

/-- The dispatch phase always answers a next flow. -/
theorem dispatchPhase_next (s : State) : ∃ f, dispatchPhase s = .next f := by
  rcases dispatchPhase_cases s with ⟨-, h⟩ | ⟨r, -, ⟨reason, -, h⟩ | ⟨-, -, h⟩ | ⟨-, -, ⟨t, -, h⟩ | ⟨t, -, h⟩⟩⟩
  · exact ⟨_, h⟩
  · exact ⟨_, h⟩
  · exact ⟨_, h⟩
  · exact ⟨_, h⟩
  · cases ht : t.halted with
    | true => exact ⟨_, by simpa [ht] using h⟩
    | false => exact ⟨_, by simpa [ht] using h⟩

/-- The end of a cycle changes the counter, the status and the error record only (R259). -/
theorem endCycle_frame (stalled : Option StallReason) (s : State) :
    endCycle stalled s = { s with
      cycle := s.cycle + 1, status := (endCycle stalled s).status, err := (endCycle stalled s).err } := by
  unfold endCycle
  simp only
  split
  · rfl
  · split
    · rfl
    · split
      · rfl
      · cases stalled <;> rfl

@[simp] theorem endCycle_cycle (stalled : Option StallReason) (s : State) : (endCycle stalled s).cycle = s.cycle + 1 := by
  rw [endCycle_frame]

/-- A step of a core that is not halted, with a legal configuration, is one cycle (R252). -/
theorem step_running (s : State) (h : s.halted = false) (hc : legalConfig s.cfg = true) : step s = runCycle s := by
  simp [step, h, hc]

/-- A halted core does not change (R250). -/
theorem step_halted (s : State) (h : s.halted = true) : step s = .next s := by simp [step, h]

end Sys2Proof.Machine
end

