-- ==== Sys2Proof/Tests/Slice0.lean ====
section
/-! SUPPORT. The model's own tests. Expected values come from `95_test_vectors.md`, from the worked lines of
`30_encoding.md`, or from a rule by hand; each test names its source. Then, for every obligation with hypotheses, a
theorem that shows a state and operands that meet them. -/

namespace Sys2Proof.Tests

open Sys2Proof Sys2Proof.Machine

/-! ## Helpers -/

/-- A vector register that holds `xs` in its first lanes and `rest` in the others. -/
def vec (xs : List Int) (rest : Int) : Lanes := Vector.ofFn fun l => BitVec.ofInt 32 (xs.getD l.val rest)

/-- Lane `l` holds `first + l`. -/
def ramp (first : Int) : Lanes := Vector.ofFn fun l => BitVec.ofInt 32 (first + (l.val : Int))

/-- Reset with `V1`, `V2` and VLR set. -/
def withVectors (a b : Lanes) (vl : Int) : State :=
  { State.reset with vreg := (State.reset.vreg.set 1 a).set 2 b, vlr := BitVec.ofInt 32 vl }

/-- The same with `S0` set to `x` and `S1` to `y`. -/
def withScalars (a b : Lanes) (vl x y : Int) : State :=
  { withVectors a b vl with sreg := (State.reset.sreg.set 0 (BitVec.ofInt 32 x)).set 1 (BitVec.ofInt 32 y) }

/-- Whether an outcome is a next state. -/
def isNext (o : Host.Outcome State Fault Refusal) : Bool :=
  match o with
  | .next _ => true
  | .fault _ => false
  | .refused _ => false

/-- The next state of an outcome that has one. -/
def after (o : Host.Outcome State Fault Refusal) : State :=
  match o with
  | .next t => t
  | .fault _ => State.reset
  | .refused _ => State.reset

theorem eq_next_after {o : Host.Outcome State Fault Refusal} (h : isNext o = true) : o = .next (after o) := by
  cases o with
  | next t => rfl
  | fault f => cases h
  | refused r => cases h

theorem forall_next {o : Host.Outcome State Fault Refusal} {P : State → Prop} (h : P (after o)) :
    ∀ t, o = .next t → P t := by
  rintro t rfl
  exact h

theorem forall_regName {P : RegName → Prop} (hs : ∀ i : Fin 8, P (.scalar i)) (hv : ∀ i : Fin 8, P (.vector i))
    (hm : P .mask) (hl : P .length) : ∀ x, P x := by
  intro x
  cases x with
  | scalar i => exact hs i
  | vector i => exact hv i
  | mask => exact hm
  | length => exact hl

/-- Lane `l` of `V[r]` after an outcome that is a next state and has not halted. -/
def laneAfter (o : Host.Outcome State Fault Refusal) (r : VReg) (l : Fin 64) : Option Int :=
  match o with
  | .next t => if t.halted then none else some (t.lane r l).toInt
  | .fault _ => none
  | .refused _ => none

/-- `S[r]` after an outcome that is a next state and has not halted. -/
def scalarAfter (o : Host.Outcome State Fault Refusal) (r : SReg) : Option Int :=
  match o with
  | .next t => if t.halted then none else some (t.readS r).toInt
  | .fault _ => none
  | .refused _ => none

/-- Kind, lane, detail and address of the error record after an outcome. -/
def errorAfter (o : Host.Outcome State Fault Refusal) :
    Option (ErrorKind × Option Nat × Option Detail × Option Int) :=
  match o with
  | .next t => t.err.map fun e => (e.kind, e.lane, e.detail, e.addr)
  | .fault _ => none
  | .refused _ => none

/-- Text as bits: the first character in the lowest byte (log 6). -/
def wordOf (cs : List Char) : Nat := cs.foldr (fun c n => c.toNat + 256 * n) 0

/-! ## Ill-formed terms are refused by WellFormed (R81, R86) -/

theorem test_wf_refuses_offset_above_range : Instr.wf (.b 2147483648) = false := by decide
theorem test_wf_refuses_offset_below_range : Instr.wf (.b (-2147483649)) = false := by decide
theorem test_enabled_refuses_lv_without_extension : Instr.enabled false (.lv 1 0) = false := by decide
theorem test_enabled_refuses_sv_without_extension : Instr.enabled false (.sv 1 0) = false := by decide
theorem test_enabled_refuses_lvws_without_extension : Instr.enabled false (.lvws 1 0 1) = false := by decide
theorem test_enabled_refuses_svws_without_extension : Instr.enabled false (.svws 1 0 1) = false := by decide
theorem test_wellFormed_refuses_far_branch : Instr.wellFormed true (.b 2147483648) = false := by decide
theorem test_wellFormed_refuses_disabled_load : Instr.wellFormed false (.lv 1 0) = false := by decide

/-! ## Decoding: one line of every mnemonic, written out from R82, R84 and R86 -/

theorem test_decode_addvv :
    decodeLine false [['A', 'D', 'D', 'V', 'V'], ['V', 'R', '0'], ['V', 'R', '1'], ['V', 'R', '2']] =
      .ok (.addvv 0 1 2) := by decide
theorem test_decode_subvv :
    decodeLine false [['S', 'U', 'B', 'V', 'V'], ['V', 'R', '6'], ['V', 'R', '7'], ['V', 'R', '5']] =
      .ok (.subvv 6 7 5) := by decide
theorem test_decode_mulvv :
    decodeLine false [['M', 'U', 'L', 'V', 'V'], ['V', 'R', '3'], ['V', 'R', '0'], ['V', 'R', '1']] =
      .ok (.mulvv 3 0 1) := by decide
theorem test_decode_divvv :
    decodeLine false [['D', 'I', 'V', 'V', 'V'], ['V', 'R', '3'], ['V', 'R', '1'], ['V', 'R', '4']] =
      .ok (.divvv 3 1 4) := by decide
theorem test_decode_unpacklo :
    decodeLine false [['U', 'N', 'P', 'A', 'C', 'K', 'L', 'O'], ['V', 'R', '1'], ['V', 'R', '1'], ['V', 'R', '2']] =
      .ok (.unpacklo 1 1 2) := by decide
theorem test_decode_unpackhi :
    decodeLine false [['U', 'N', 'P', 'A', 'C', 'K', 'H', 'I'], ['V', 'R', '7'], ['V', 'R', '7'], ['V', 'R', '7']] =
      .ok (.unpackhi 7 7 7) := by decide
theorem test_decode_packlo :
    decodeLine false [['P', 'A', 'C', 'K', 'L', 'O'], ['V', 'R', '0'], ['V', 'R', '1'], ['V', 'R', '2']] =
      .ok (.packlo 0 1 2) := by decide
theorem test_decode_packhi :
    decodeLine false [['P', 'A', 'C', 'K', 'H', 'I'], ['V', 'R', '4'], ['V', 'R', '5'], ['V', 'R', '6']] =
      .ok (.packhi 4 5 6) := by decide
theorem test_decode_addvs :
    decodeLine false [['A', 'D', 'D', 'V', 'S'], ['V', 'R', '0'], ['V', 'R', '1'], ['S', 'R', '2']] =
      .ok (.addvs 0 1 2) := by decide
theorem test_decode_subvs :
    decodeLine false [['S', 'U', 'B', 'V', 'S'], ['V', 'R', '4'], ['V', 'R', '1'], ['S', 'R', '0']] =
      .ok (.subvs 4 1 0) := by decide
theorem test_decode_mulvs :
    decodeLine false [['M', 'U', 'L', 'V', 'S'], ['V', 'R', '2'], ['V', 'R', '3'], ['S', 'R', '4']] =
      .ok (.mulvs 2 3 4) := by decide
theorem test_decode_divvs :
    decodeLine false [['D', 'I', 'V', 'V', 'S'], ['V', 'R', '7'], ['V', 'R', '0'], ['S', 'R', '7']] =
      .ok (.divvs 7 0 7) := by decide
theorem test_decode_pop :
    decodeLine false [['P', 'O', 'P'], ['S', 'R', '3']] =
      .ok (.pop 3) := by decide
theorem test_decode_mtcl :
    decodeLine false [['M', 'T', 'C', 'L'], ['S', 'R', '0']] =
      .ok (.mtcl 0) := by decide
theorem test_decode_mfcl :
    decodeLine false [['M', 'F', 'C', 'L'], ['S', 'R', '7']] =
      .ok (.mfcl 7) := by decide
theorem test_decode_b :
    decodeLine false [['B'], ['-', '2']] =
      .ok (.b (-2)) := by decide
theorem test_decode_lv :
    decodeLine true [['L', 'V'], ['V', 'R', '1'], ['S', 'R', '0']] =
      .ok (.lv 1 0) := by decide
theorem test_decode_sv :
    decodeLine true [['S', 'V'], ['V', 'R', '3'], ['S', 'R', '2']] =
      .ok (.sv 3 2) := by decide
theorem test_decode_lvws :
    decodeLine true [['L', 'V', 'W', 'S'], ['V', 'R', '2'], ['S', 'R', '1'], ['S', 'R', '3']] =
      .ok (.lvws 2 1 3) := by decide
theorem test_decode_svws :
    decodeLine true [['S', 'V', 'W', 'S'], ['V', 'R', '1'], ['S', 'R', '0'], ['S', 'R', '1']] =
      .ok (.svws 1 0 1) := by decide

/-- `30_encoding.md` R86 and V-DE4: a sign and leading zeros. -/
theorem test_decode_offset_spellings :
    decodeLine false [['B'], ['-', '0']] = .ok (.b 0) ∧ decodeLine false [['B'], ['+', '0', '0', '7']] = .ok (.b 7) ∧
    decodeLine false [['B'], ['-', '2', '1', '4', '7', '4', '8', '3', '6', '4', '8']] = .ok (.b (-2147483648)) := by
  decide

/-- V-DE1, V-DE2, V-DE3, V-DE7, V-VD1 and E4. -/
theorem test_decode_rejects :
    decodeLine false [['M', 'T', 'C', 'L'], ['V', 'R', '0']] = .error .malformedOperand ∧
    decodeLine false [['P', 'O', 'P']] = .error .malformedOperand ∧
    decodeLine false [['B']] = .error .malformedOperand ∧
    decodeLine false [['A', 'D', 'D', 'V', 'V'], ['v', 'r', '0'], ['V', 'R', '1'], ['V', 'R', '2']] = .error .malformedOperand ∧
    decodeLine false [['L', 'V'], ['V', 'R', '1'], ['S', 'R', '0']] = .error .unknownMnemonic ∧
    decodeLine false [['F', 'O', 'O'], ['V', '1'], ['V', '2']] = .error .unknownMnemonic := by decide

/-! ## A line as bits, and one step of it (log 6, log 8) -/

theorem test_table_word_addvv :
    decodeTableWord 136 (wordOf ['A', 'D', 'D', 'V', 'V', ' ', 'V', 'R', '0', ' ', 'V', 'R', '1', ' ', 'V', 'R', '2']) =
      some (.addvv 0 1 2) := by decide
theorem test_table_word_lv :
    decodeTableWord 80 (wordOf ['L', 'V', ' ', 'V', 'R', '1', ' ', 'S', 'R', '0']) =
      some (.lv 1 0) := by decide
theorem test_table_word_b :
    decodeTableWord 24 (wordOf ['B', ' ', '2']) =
      some (.b 2) := by decide
theorem test_table_word_rejects : decodeTableWord 24 (wordOf ['F', 'O', 'O']) = none := by decide

/-- V-SO1: `POP` at reset counts 64, in the very next step. -/
theorem test_step_runs_placed_pop :
    scalarAfter (step (State.reset.withFetchWord 56 (wordOf ['P', 'O', 'P', ' ', 'S', 'R', '0']))) 0 = none ∧
    (after (step (State.reset.withFetchWord 56 (wordOf ['P', 'O', 'P', ' ', 'S', 'R', '0'])))).readS 0 = 64 := by decide

/-- R230: the very next step of a placed `B 2` at index 0 sets `pc` to 2. -/
theorem test_step_runs_placed_branch :
    (after (step (State.reset.withFetchWord 24 (wordOf ['B', ' ', '2'])))).pc = 2 := by decide

/-- V-VC2, by a step: overflow in lane 0. -/
theorem test_step_runs_placed_add :
    errorAfter (step ((withVectors (vec [] 2147483647) (vec [] 1) 64).withFetchWord
      136 (wordOf ['A', 'D', 'D', 'V', 'V', ' ', 'V', 'R', '0', ' ', 'V', 'R', '1', ' ', 'V', 'R', '2']))) =
      some (.arithmeticFault, some 0, some .overflow, none) := by decide

/-- V-VC9 and V-VC10, with `P_DIV_ROUND = Floor`. -/
def floorState : State :=
  { withVectors (vec [7, -7] 0) (vec [-2, 2] 5) 64 with cfg := { Config.reference with divRound := .floor } }

/-- E1. -/
def maskedState : State := { withVectors (vec [] 1) (vec [] 2) 4 with vmr := vec [1, 0] 1 }

/-- V-VD4. -/
def maskedLoadState : State :=
  { withScalars (vec [] 9) (vec [] 0) 4 1022 0 with
    vdm := [(1022, 22), (1023, 23)]
    vmr := vec [1, 1, 0, 0] 1 }

/-- P4 before line 1: base 100, stride 2. -/
def strideState : State :=
  { withScalars (vec [] 0) (vec [] 0) 4 100 2 with vdm := [(100, 100), (102, 102), (106, 106)] }

/-! ## Results (95_test_vectors.md section 2) -/

/-- V-VC1, V-VC3. -/
theorem test_addvv_wraps_nothing :
    laneAfter (exec (.addvv 0 1 2) (withVectors (vec [2147483647, 2147483647] 0) (vec [0, -2147483648] 0) 64)) 0 0 = some (2147483647) ∧
    laneAfter (exec (.addvv 0 1 2) (withVectors (vec [2147483647, 2147483647] 0) (vec [0, -2147483648] 0) 64)) 0 1 = some (-1) := by decide
/-- V-VC19. -/
theorem test_addvv_lowest_fault :
    errorAfter (exec (.addvv 0 1 2) (withVectors (vec [] 2147483647) (vec [0] 1) 64)) = some (.arithmeticFault, some 1, some .overflow, none) := by decide
/-- V-VC5, and a minus b in that order. -/
theorem test_subvv_edges :
    laneAfter (exec (.subvv 0 1 2) (withVectors (vec [-1, 5] 0) (vec [2147483647, 7] 0) 64)) 0 0 = some (-2147483648) ∧
    laneAfter (exec (.subvv 0 1 2) (withVectors (vec [-1, 5] 0) (vec [2147483647, 7] 0) 64)) 0 1 = some (-2) := by decide
/-- V-VC4. -/
theorem test_subvv_overflow :
    errorAfter (exec (.subvv 0 1 2) (withVectors (vec [0] 0) (vec [-2147483648] 0) 64)) = some (.arithmeticFault, some 0, some .overflow, none) := by decide
/-- V-VC7. -/
theorem test_mulvv_edges :
    laneAfter (exec (.mulvv 0 1 2) (withVectors (vec [-65536] 0) (vec [32768] 0) 64)) 0 0 = some (-2147483648) := by decide
/-- V-VC6. -/
theorem test_mulvv_overflow :
    errorAfter (exec (.mulvv 0 1 2) (withVectors (vec [65536] 0) (vec [32768] 0) 64)) = some (.arithmeticFault, some 0, some .overflow, none) := by decide
/-- V-VC9 to V-VC12, V-VC15, and V-VC20 with `VLR = 4`, `TowardZero`. -/
theorem test_divvv_toward_zero :
    laneAfter (exec (.divvv 0 1 2) (withVectors (vec [7, -7, -7, 7, -2147483648] 0) (vec [-2, 2, -2, 2, -1] 5) 4)) 0 0 = some (-3) ∧
    laneAfter (exec (.divvv 0 1 2) (withVectors (vec [7, -7, -7, 7, -2147483648] 0) (vec [-2, 2, -2, 2, -1] 5) 4)) 0 1 = some (-3) ∧
    laneAfter (exec (.divvv 0 1 2) (withVectors (vec [7, -7, -7, 7, -2147483648] 0) (vec [-2, 2, -2, 2, -1] 5) 4)) 0 2 = some (3) ∧
    laneAfter (exec (.divvv 0 1 2) (withVectors (vec [7, -7, -7, 7, -2147483648] 0) (vec [-2, 2, -2, 2, -1] 5) 4)) 0 3 = some (3) ∧
    laneAfter (exec (.divvv 0 1 2) (withVectors (vec [7, -7, -7, 7, -2147483648] 0) (vec [-2, 2, -2, 2, -1] 5) 4)) 0 4 = some (0) := by decide
/-- V-VC9 and V-VC10, with `Floor`. -/
theorem test_divvv_floor :
    [(0 : Fin 64), 1].map (laneAfter (exec (.divvv 0 1 2) floorState) 0) = [some (-4), some (-4)] := by decide
/-- V-VC20 with `VLR = 6`, and V-VC14. -/
theorem test_divvv_faults :
    errorAfter (exec (.divvv 0 1 2) (withVectors (vec [7, -7, -7, 7, -2147483648] 0) (vec [-2, 2, -2, 2, -1] 5) 6)) =
      some (.arithmeticFault, some 4, some .overflow, none) ∧
    errorAfter (exec (.divvv 0 1 2) (withVectors (vec [] 5) (vec [] 0) 6)) =
      some (.arithmeticFault, some 0, some .divideByZero, none) := ⟨by decide, by decide⟩
/-- V-PM1. -/
theorem test_unpacklo_full_length :
    laneAfter (exec (.unpacklo 0 1 2) (withVectors (ramp 0) (ramp 100) 64)) 0 0 = some (0) ∧
    laneAfter (exec (.unpacklo 0 1 2) (withVectors (ramp 0) (ramp 100) 64)) 0 1 = some (100) ∧
    laneAfter (exec (.unpacklo 0 1 2) (withVectors (ramp 0) (ramp 100) 64)) 0 30 = some (15) ∧
    laneAfter (exec (.unpacklo 0 1 2) (withVectors (ramp 0) (ramp 100) 64)) 0 31 = some (115) ∧
    laneAfter (exec (.unpacklo 0 1 2) (withVectors (ramp 0) (ramp 100) 64)) 0 63 = some (131) := by decide
/-- V-PM5. -/
theorem test_unpacklo_reads_old_source :
    laneAfter (exec (.unpacklo 1 1 2) (withVectors (ramp 0) (ramp 100) 64)) 1 2 = some (1) ∧
    laneAfter (exec (.unpacklo 1 1 2) (withVectors (ramp 0) (ramp 100) 64)) 1 3 = some (101) ∧
    laneAfter (exec (.unpacklo 1 1 2) (withVectors (ramp 0) (ramp 100) 64)) 1 4 = some (2) ∧
    laneAfter (exec (.unpacklo 1 1 2) (withVectors (ramp 0) (ramp 100) 64)) 1 5 = some (102) := by decide
/-- V-PM2. -/
theorem test_unpackhi_full_length :
    laneAfter (exec (.unpackhi 0 1 2) (withVectors (ramp 0) (ramp 100) 64)) 0 0 = some (32) ∧
    laneAfter (exec (.unpackhi 0 1 2) (withVectors (ramp 0) (ramp 100) 64)) 0 1 = some (132) ∧
    laneAfter (exec (.unpackhi 0 1 2) (withVectors (ramp 0) (ramp 100) 64)) 0 30 = some (47) ∧
    laneAfter (exec (.unpackhi 0 1 2) (withVectors (ramp 0) (ramp 100) 64)) 0 31 = some (147) ∧
    laneAfter (exec (.unpackhi 0 1 2) (withVectors (ramp 0) (ramp 100) 64)) 0 63 = some (163) := by decide
/-- V-PM2, `VL = 4`. -/
theorem test_unpackhi_short_length :
    laneAfter (exec (.unpackhi 0 1 2) (withVectors (ramp 0) (ramp 100) 4)) 0 3 = some (133) ∧
    laneAfter (exec (.unpackhi 0 1 2) (withVectors (ramp 0) (ramp 100) 4)) 0 4 = some (0) := by decide
/-- V-PM3. -/
theorem test_packlo_full_length :
    laneAfter (exec (.packlo 0 1 2) (withVectors (ramp 0) (ramp 100) 64)) 0 0 = some (0) ∧
    laneAfter (exec (.packlo 0 1 2) (withVectors (ramp 0) (ramp 100) 64)) 0 1 = some (2) ∧
    laneAfter (exec (.packlo 0 1 2) (withVectors (ramp 0) (ramp 100) 64)) 0 30 = some (60) ∧
    laneAfter (exec (.packlo 0 1 2) (withVectors (ramp 0) (ramp 100) 64)) 0 31 = some (62) ∧
    laneAfter (exec (.packlo 0 1 2) (withVectors (ramp 0) (ramp 100) 64)) 0 63 = some (162) := by decide
/-- V-PM3, `VL = 4`. -/
theorem test_packlo_short_length :
    laneAfter (exec (.packlo 0 1 2) (withVectors (ramp 0) (ramp 100) 4)) 0 3 = some (6) ∧
    laneAfter (exec (.packlo 0 1 2) (withVectors (ramp 0) (ramp 100) 4)) 0 4 = some (0) := by decide
/-- V-PM4. -/
theorem test_packhi_full_length :
    laneAfter (exec (.packhi 0 1 2) (withVectors (ramp 0) (ramp 100) 64)) 0 0 = some (1) ∧
    laneAfter (exec (.packhi 0 1 2) (withVectors (ramp 0) (ramp 100) 64)) 0 1 = some (3) ∧
    laneAfter (exec (.packhi 0 1 2) (withVectors (ramp 0) (ramp 100) 64)) 0 30 = some (61) ∧
    laneAfter (exec (.packhi 0 1 2) (withVectors (ramp 0) (ramp 100) 64)) 0 31 = some (63) ∧
    laneAfter (exec (.packhi 0 1 2) (withVectors (ramp 0) (ramp 100) 64)) 0 63 = some (163) := by decide
/-- V-PM4, `VL = 4`. -/
theorem test_packhi_short_length :
    laneAfter (exec (.packhi 0 1 2) (withVectors (ramp 0) (ramp 100) 4)) 0 3 = some (7) ∧
    laneAfter (exec (.packhi 0 1 2) (withVectors (ramp 0) (ramp 100) 4)) 0 4 = some (0) := by decide
/-- P2 lines 1: `V1[l] = l`, `S1 = 10`, `VL = 4`. -/
theorem test_addvs_masked :
    laneAfter (exec (.addvs 0 1 1) (withScalars (ramp 0) (vec [] 0) 4 4 10)) 0 0 = some (10) ∧
    laneAfter (exec (.addvs 0 1 1) (withScalars (ramp 0) (vec [] 0) 4 4 10)) 0 3 = some (13) ∧
    laneAfter (exec (.addvs 0 1 1) (withScalars (ramp 0) (vec [] 0) 4 4 10)) 0 4 = some (0) := by decide
/-- R164 on the largest lane and 1. -/
theorem test_addvs_overflow :
    errorAfter (exec (.addvs 0 1 1) (withScalars (vec [0, 2147483647] 0) (vec [] 0) 64 0 1)) = some (.arithmeticFault, some 1, some .overflow, none) := by decide
/-- V-VC16: the lane minus the scalar. -/
theorem test_subvs_order :
    laneAfter (exec (.subvs 0 1 0) (withScalars (vec [3] 0) (vec [] 0) 64 1 0)) 0 0 = some (2) := by decide
/-- V-VC18. -/
theorem test_subvs_overflow :
    errorAfter (exec (.subvs 0 1 0) (withScalars (vec [0] 0) (vec [] 0) 64 (-2147483648) 0)) = some (.arithmeticFault, some 0, some .overflow, none) := by decide
/-- R167 by hand. -/
theorem test_mulvs_value :
    laneAfter (exec (.mulvs 0 1 0) (withScalars (vec [6, -6] 0) (vec [] 0) 64 7 0)) 0 0 = some (42) ∧
    laneAfter (exec (.mulvs 0 1 0) (withScalars (vec [6, -6] 0) (vec [] 0) 64 7 0)) 0 1 = some (-42) := by decide
/-- V-VC8. -/
theorem test_mulvs_overflow :
    errorAfter (exec (.mulvs 0 1 0) (withScalars (vec [-2147483648] 0) (vec [] 0) 64 (-1) 0)) = some (.arithmeticFault, some 0, some .overflow, none) := by decide
/-- V-VC17. -/
theorem test_divvs_toward_zero :
    laneAfter (exec (.divvs 0 1 0) (withScalars (vec [9] 0) (vec [] 0) 64 (-2) 0)) 0 0 = some (-4) := by decide
/-- V-VC21 with `VL = 0`, and R168 with `VL = 1`. -/
theorem test_divvs_zero_length :
    laneAfter (exec (.divvs 0 1 0) (withScalars (vec [9] 0) (vec [] 0) 0 0 0)) 0 0 = some (0) ∧
    errorAfter (exec (.divvs 0 1 0) (withScalars (vec [9] 0) (vec [] 0) 1 0 0)) = some (.arithmeticFault, some 0, some .divideByZero, none) := by decide
/-- E1: VLR 4 and lane 1 masked. -/
theorem test_masked_lanes_keep_their_value :
    [(0 : Fin 64), 1, 3, 4].map (laneAfter (exec (.addvv 0 1 2) maskedState) 0) =
      [some 3, some 0, some 3, some 0] := by decide
/-- V-SO2: one lane 0 in VMR, and `-7` counts as true. -/
theorem test_pop_counts_nonzero_lanes :
    scalarAfter (exec (.pop 3) { State.reset with vmr := vec [-7, 0] 1 }) 3 = some 63 := by decide
/-- R221: VLR does not limit the count. -/
theorem test_pop_ignores_length :
    scalarAfter (exec (.pop 3) { State.reset with vlr := 0 }) 3 = some 64 := by decide
/-- V-SO3: VLR takes -5 as it is. -/
theorem test_mtcl_keeps_negative :
    (after (exec (.mtcl 0) (withScalars (vec [] 0) (vec [] 0) 64 (-5) 0))).vlr.toInt = -5 := by decide
/-- V-SO3: `MFCL` returns -5, not the clamped length. -/
theorem test_mfcl_returns_raw_length :
    scalarAfter (exec (.mfcl 1) (withVectors (vec [] 0) (vec [] 0) (-5))) 1 = some (-5) := by decide
/-- V-BR1 and V-BR2: the two targets just outside. -/
theorem test_b_outside_targets :
    errorAfter (exec (.b (-1)) State.reset) = some (.memoryFault, none, some .branchTarget, some (-1)) ∧
    errorAfter (exec (.b 65537) State.reset) = some (.memoryFault, none, some .branchTarget, some 65537) :=
  ⟨by decide, by decide⟩
/-- V-BR3 and P6: the two targets just inside. -/
theorem test_b_inside_targets :
    (after (exec (.b 65536) State.reset)).pc = 65536 ∧ (after (exec (.b 0) State.reset)).pc = 0 ∧
    (after (exec (.b 0) State.reset)).halted = false := by decide
/-- V-VD2. -/
theorem test_lv_bounds :
    errorAfter (exec (.lv 1 0) (withScalars (vec [] 0) (vec [] 0) 4 1022 0)) =
      some (.memoryFault, some 2, some .dataAddress, some 1024) := by decide
/-- V-VD4: the lanes out of bounds are masked. -/
theorem test_lv_masked :
    [(0 : Fin 64), 1, 2, 3].map (laneAfter (exec (.lv 1 0) maskedLoadState) 1) =
      [some 22, some 23, some 9, some 9] := by decide
/-- P4 line 1: base 100, stride 2. -/
theorem test_lvws_stride :
    [(0 : Fin 64), 1, 3, 4].map (laneAfter (exec (.lvws 2 0 1) strideState) 2) =
      [some 100, some 102, some 106, some 0] := by decide
/-- R192: a negative stride leaves VDM downwards, in lane 1. -/
theorem test_lvws_negative_address :
    errorAfter (exec (.lvws 2 0 1) (withScalars (vec [] 0) (vec [] 0) 4 1 (-2))) =
      some (.memoryFault, some 1, some .dataAddress, some (-1)) := by decide
/-- P4 line 3: a store of four lanes. -/
theorem test_sv_words :
    (after (exec (.sv 1 0) (withScalars (vec [100, 103, 106, 109] 1) (vec [] 0) 4 200 0))).vdm =
      [(200, 100), (201, 103), (202, 106), (203, 109)] := by decide
/-- R194: no access at all when one lane is out of bounds. -/
theorem test_sv_bounds :
    (after (exec (.sv 1 0) (withScalars (ramp 5) (vec [] 0) 4 1022 0))).vdm = [] ∧
    errorAfter (exec (.sv 1 0) (withScalars (ramp 5) (vec [] 0) 4 1022 0)) =
      some (.memoryFault, some 2, some .dataAddress, some 1024) := by decide
/-- V-VD3: zero stride, the highest active lane wins. -/
theorem test_svws_zero_stride :
    (after (exec (.svws 1 0 1) (withScalars (ramp 5) (vec [] 0) 3 10 0))).vdm = [(10, 7)] := by decide
/-- R199: stride 3. -/
theorem test_svws_stride :
    (after (exec (.svws 1 0 1) (withScalars (ramp 5) (vec [] 0) 2 10 3))).vdm = [(10, 5), (13, 6)] := by decide

/-- R33, R280, R288: the codes the host reads, and the exit status. -/
theorem test_host_codes :
    [Status.running, .stalled .registerBusy, .stalled .queueFull, .haltedNormal, .haltedError].map statusCode =
      [0, 1, 2, 3, 4] ∧
    [ErrorKind.decodeError, .hazardViolation, .memoryFault, .arithmeticFault, .cycleLimitExceeded].map errorCode =
      [1, 2, 3, 4, 5] ∧
    exitsZero .haltedNormal = some true ∧ exitsZero .haltedError = some false ∧ exitsZero .running = none := by decide
/-! ## Witnesses: each obligation's hypotheses are met

`witness_<k>…` belongs to obligation `Ok`. -/

/-! ### Decoding -/

theorem witness_3_wrong_counts :
    ((Mnemonic.addvv.isExtension = true → false = true) ∧ ([] : List Token).length + 1 ≠ Mnemonic.addvv.format.tokenCount) ∧
    ((Mnemonic.lv.isExtension = true → true = true) ∧
      ([['V', 'R', '1'], ['S', 'R', '0'], ['S', 'R', '0']] : List Token).length + 1 ≠ Mnemonic.lv.format.tokenCount) := by
  decide

theorem witness_4_a_line_decodes : decodeLine false [['M', 'T', 'C', 'L'], ['S', 'R', '0']] = .ok (.mtcl 0) := by decide

theorem witness_5_accepted_and_rejected_lines :
    decodeLine true [['L', 'V'], ['V', 'R', '7'], ['S', 'R', '7']] = .ok (.lv 7 7) ∧
    decodeLine false [['L', 'V'], ['V', 'R', '7'], ['S', 'R', '7']] = .error .unknownMnemonic ∧
    decodeLine false [['P', 'O', 'P'], ['S', 'R', '8']] = .error .malformedOperand ∧
    decode Config.reference 3 [['M', 'T', 'C', 'L'], ['S', 'R', '0']] =
      .accepted (makeRecord Config.reference 3 (.mtcl 0)) :=
  ⟨by decide, by decide, by decide, by decide⟩

theorem witness_6_register_tokens :
    (parseVector ['V', 'R', '7'] = some 7 ∧ parseVector ['V', 'R', '0'] = some 0 ∧ parseScalar ['S', 'R', '0', '7'] = some 7) ∧
    parseVector ['V', 'R', '8'] = none ∧ parseVector ['S', 'R', '0'] = none ∧ parseScalar ['S', 'R'] = none :=
  ⟨by decide, by decide, by decide, by decide⟩

/-- A bad token in each register format, and a good line of the widest mixed one. -/
theorem witness_6_lines_of_every_register_format :
    (∀ m ∈ [Mnemonic.divvv, .addvs, .mfcl, .sv, .lvws], m ≠ .b ∧ (m.isExtension = true → true = true) ∧
      (List.replicate (vectorPositions m.format) ['V', 'R', '8']).length = vectorPositions m.format ∧
      (List.replicate (scalarPositions m.format) ['V', 'R', '0']).length = scalarPositions m.format) ∧
    (parseVector ['V', 'R', '8'] = none ∧ parseScalar ['V', 'R', '0'] = none) ∧
    ([['V', 'R', '7']].map parseVector = [(7 : VReg)].map some ∧
      [['S', 'R', '0'], ['S', 'R', '7']].map parseScalar = [(0 : SReg), 7].map some) ∧
    decodeLine true [['L', 'V', 'W', 'S'], ['V', 'R', '7'], ['S', 'R', '0'], ['S', 'R', '7']] = .ok (.lvws 7 0 7) ∧
    (Instr.lvws 7 0 7).mnemonic ≠ .b :=
  ⟨by decide, by decide, by decide, by decide, by decide⟩

theorem witness_7_offset_out_of_range :
    (∀ v : Int, decodeLine false [['B'], ['2', '1', '4', '7', '4', '8', '3', '6', '4', '8']] ≠ .ok (.b v)) ∧
    (∀ v : Int, decodeLine false [['B'], ['-', '2', '1', '4', '7', '4', '8', '3', '6', '4', '9']] ≠ .ok (.b v)) ∧
    ∀ v : Int, decodeLine false [['B'], ['-']] ≠ .ok (.b v) := by
  refine ⟨fun v h => ?_, fun v h => ?_, fun v h => ?_⟩
  · rw [show decodeLine false [['B'], ['2', '1', '4', '7', '4', '8', '3', '6', '4', '8']] = .error .malformedOperand from
      by decide] at h
    cases h
  · rw [show decodeLine false [['B'], ['-', '2', '1', '4', '7', '4', '8', '3', '6', '4', '9']] = .error .malformedOperand
      from by decide] at h
    cases h
  · rw [show decodeLine false [['B'], ['-']] = .error .malformedOperand from by decide] at h
    cases h

theorem witness_8_boundary_instructions :
    Instr.wellFormed false (.b (-2147483648)) = true ∧ Instr.wellFormed false (.b 2147483647) = true ∧
    Instr.wellFormed true (.svws 7 7 7) = true ∧ Instr.wellFormed false (.addvv 0 7 0) = true := by decide

/-! ### The vector units -/

theorem witness_9_in_range_and_overflowing :
    (∀ l, State.reset.active .vectorCompute l = true →
      inRange32 ((State.reset.lane 1 l).toInt + (State.reset.lane 2 l).toInt) = true) ∧
    LowestActive (withVectors (vec [0] 2147483647) (vec [0] 1) 64) .vectorCompute (fun k => inRange32
      (((withVectors (vec [0] 2147483647) (vec [0] 1) 64).lane 1 k).toInt +
        ((withVectors (vec [0] 2147483647) (vec [0] 1) 64).lane 2 k).toInt) = false) 1 ∧
    LowestActive (withVectors (vec [] 0) (vec [] (-2147483648)) 64) .vectorCompute (fun k => inRange32
      (((withVectors (vec [] 0) (vec [] (-2147483648)) 64).lane 1 k).toInt -
        ((withVectors (vec [] 0) (vec [] (-2147483648)) 64).lane 2 k).toInt) = false) 0 ∧
    LowestActive (withVectors (vec [] 65536) (vec [] 32768) 64) .vectorCompute (fun k => inRange32
      (((withVectors (vec [] 65536) (vec [] 32768) 64).lane 1 k).toInt *
        ((withVectors (vec [] 65536) (vec [] 32768) 64).lane 2 k).toInt) = false) 0 := by
  unfold LowestActive
  refine ⟨?_, ?_, ?_, ?_⟩ <;> decide

theorem witness_10_divisible_and_faulting :
    (∀ l, (withVectors (vec [] 7) (vec [] (-2)) 64).active .vectorCompute l = true → ¬ DivisionFaults
      ((withVectors (vec [] 7) (vec [] (-2)) 64).lane 1 l).toInt ((withVectors (vec [] 7) (vec [] (-2)) 64).lane 2 l).toInt) ∧
    LowestActive (withVectors (vec [] 5) (vec [1] 0) 64) .vectorCompute (fun k => DivisionFaults
      ((withVectors (vec [] 5) (vec [1] 0) 64).lane 1 k).toInt ((withVectors (vec [] 5) (vec [1] 0) 64).lane 2 k).toInt) 1 ∧
    LowestActive (withVectors (vec [] (-2147483648)) (vec [] (-1)) 64) .vectorCompute (fun k => DivisionFaults
      ((withVectors (vec [] (-2147483648)) (vec [] (-1)) 64).lane 1 k).toInt
      ((withVectors (vec [] (-2147483648)) (vec [] (-1)) 64).lane 2 k).toInt) 0 ∧
    LowestActive State.reset .vectorCompute (fun k => DivisionFaults
      (State.reset.lane 1 k).toInt (State.reset.readS 0).toInt) 0 := by
  unfold LowestActive DivisionFaults
  refine ⟨?_, ?_, ?_, ?_⟩ <;> decide

theorem witness_11_in_range_and_overflowing :
    (∀ l, State.reset.active .vectorCompute l = true →
      inRange32 ((State.reset.lane 1 l).toInt + (State.reset.readS 0).toInt) = true) ∧
    LowestActive (withScalars (vec [] 0) (vec [] 0) 1 (-2147483648) 0) .vectorCompute (fun k => inRange32
      (((withScalars (vec [] 0) (vec [] 0) 1 (-2147483648) 0).lane 1 k).toInt -
        ((withScalars (vec [] 0) (vec [] 0) 1 (-2147483648) 0).readS 0).toInt) = false) 0 ∧
    LowestActive (withScalars (vec [1] 2) (vec [] 0) 64 2147483647 0) .vectorCompute (fun k => inRange32
      (((withScalars (vec [1] 2) (vec [] 0) 64 2147483647 0).lane 1 k).toInt *
        ((withScalars (vec [1] 2) (vec [] 0) 64 2147483647 0).readS 0).toInt) = false) 1 := by
  unfold LowestActive
  refine ⟨?_, ?_, ?_⟩ <;> decide

/-- Two lines of program and `ADDVV VR0 VR1 VR2` just dispatched, `ADDVV VR3 VR1 VR4` stalled behind it (V-DS1 in c3). -/
def midRun : State :=
  { State.reset.enqueue (makeRecord Config.reference 0 (.addvv 0 1 2)) with
    imem :=
      [(0, [['A', 'D', 'D', 'V', 'V'], ['V', 'R', '0'], ['V', 'R', '1'], ['V', 'R', '2']]),
       (1, [['A', 'D', 'D', 'V', 'V'], ['V', 'R', '3'], ['V', 'R', '1'], ['V', 'R', '4']])]
    pc := 2
    cycle := 3
    dl := some (makeRecord Config.reference 1 (.addvv 3 1 4)) }

theorem witness_13_snapshots_and_no_active_lane :
    (State.queue midRun .vectorCompute = [State.reset.newEntry (makeRecord Config.reference 0 (.addvv 0 1 2))] ∧
      (State.reset.newEntry (makeRecord Config.reference 0 (.addvv 0 1 2))).snapVL = some 64 ∧
      (State.reset.newEntry (makeRecord Config.reference 0 (.addvv 0 1 2))).snapMask = some (truthMask State.reset.vmr)) ∧
    capturesVL (.addvv 0 1 2) = true ∧ (Instr.addvv 0 1 2).queueClass = .vectorCompute ∧
    ∀ l, (withVectors (vec [] 0) (vec [] 0) (-5)).active .vectorCompute l = false :=
  ⟨by decide, by decide, by decide, by decide⟩

theorem witness_14_15_inside_and_outside_vdm :
    (∀ l, (withScalars (ramp 0) (ramp 0) 4 1020 0).active .vectorData l = true →
      ¬ OutsideVdm (withScalars (ramp 0) (ramp 0) 4 1020 0)
        (((withScalars (ramp 0) (ramp 0) 4 1020 0).readS 0).toInt + (l.val : Int))) ∧
    LowestActive (withScalars (ramp 0) (ramp 0) 4 1022 0) .vectorData (fun k =>
      OutsideVdm (withScalars (ramp 0) (ramp 0) 4 1022 0)
        (((withScalars (ramp 0) (ramp 0) 4 1022 0).readS 0).toInt + (k.val : Int))) 2 ∧
    LowestActive (withScalars (ramp 0) (ramp 0) 4 1 (-2)) .vectorData (fun k =>
      OutsideVdm (withScalars (ramp 0) (ramp 0) 4 1 (-2))
        (((withScalars (ramp 0) (ramp 0) 4 1 (-2)).readS 0).toInt +
          (k.val : Int) * ((withScalars (ramp 0) (ramp 0) 4 1 (-2)).readS 1).toInt)) 1 := by
  unfold LowestActive OutsideVdm
  refine ⟨?_, ?_, ?_⟩ <;> decide

theorem witness_15_two_lanes_load_one_word :
    exec (.lvws 1 0 1) (withScalars (ramp 0) (ramp 0) 4 10 0) =
      .next (after (exec (.lvws 1 0 1) (withScalars (ramp 0) (ramp 0) 4 10 0))) ∧
    (after (exec (.lvws 1 0 1) (withScalars (ramp 0) (ramp 0) 4 10 0))).halted = false ∧
    (withScalars (ramp 0) (ramp 0) 4 10 0).active .vectorData 0 = true ∧
    (withScalars (ramp 0) (ramp 0) 4 10 0).active .vectorData 3 = true ∧
    ((withScalars (ramp 0) (ramp 0) 4 10 0).readS 0).toInt +
        (((0 : Fin 64).val : Int)) * ((withScalars (ramp 0) (ramp 0) 4 10 0).readS 1).toInt =
      ((withScalars (ramp 0) (ramp 0) 4 10 0).readS 0).toInt +
        (((3 : Fin 64).val : Int)) * ((withScalars (ramp 0) (ramp 0) 4 10 0).readS 1).toInt :=
  ⟨eq_next_after (by decide), by decide, by decide, by decide, by decide⟩

/-! ### The Scalar-Ops unit -/

theorem witness_16_mask_captured_and_now :
    ((State.reset.enqueue (makeRecord Config.reference 0 (.pop 3))).qScalar =
        [State.reset.newEntry (makeRecord Config.reference 0 (.pop 3))] ∧
      (State.reset.newEntry (makeRecord Config.reference 0 (.pop 3))).snapMask = some (truthMask State.reset.vmr)) ∧
    State.reset.snapMask .scalarOps = truthMask State.reset.vmr :=
  ⟨by decide, by decide⟩

/-- V-SO3: `MTCL` with -5, then an `MFCL` and a vector instruction dispatched from what it leaves. -/
theorem witness_17_length_written_then_captured :
    exec (.mtcl 0) (withScalars (ramp 0) (ramp 0) 4 (-5) 0) =
      .next (after (exec (.mtcl 0) (withScalars (ramp 0) (ramp 0) 4 (-5) 0))) ∧
    ((after (exec (.mtcl 0) (withScalars (ramp 0) (ramp 0) 4 (-5) 0))).enqueue
        (makeRecord Config.reference 1 (.mfcl 1))).qScalar =
      [(after (exec (.mtcl 0) (withScalars (ramp 0) (ramp 0) 4 (-5) 0))).newEntry
        (makeRecord Config.reference 1 (.mfcl 1))] ∧
    capturesVL (.addvv 2 3 3) = true :=
  ⟨eq_next_after (by decide), by decide, by decide⟩

theorem witness_18_mfcl_entry :
    (State.reset.enqueue (makeRecord Config.reference 0 (.mfcl 1))).qScalar =
      [State.reset.newEntry (makeRecord Config.reference 0 (.mfcl 1))] ∧
    (State.reset.newEntry (makeRecord Config.reference 0 (.mfcl 1))).snapVLR = some 64 :=
  ⟨by decide, by decide⟩

/-- `B off` of index `p` in DL. -/
def branchInLatch (p : Nat) (off : Int) : State :=
  { State.reset with dl := some (makeRecord Config.reference p (.b off)), pc := p + 1 }

theorem witness_19_20_branch_targets :
    (((branchInLatch 3 (-3)).dl = some (makeRecord Config.reference 3 (.b (-3))) ∧
        (0 ≤ (3 : Int) + (-3) ∧ (3 : Int) + (-3) ≤ 65536)) ∧
      ((branchInLatch 3 65533).dl = some (makeRecord Config.reference 3 (.b 65533)) ∧
        (0 ≤ (3 : Int) + 65533 ∧ (3 : Int) + 65533 ≤ 65536))) ∧
    (((branchInLatch 3 (-4)).dl = some (makeRecord Config.reference 3 (.b (-4))) ∧ (3 : Int) + (-4) < 0) ∧
      ((branchInLatch 3 65534).dl = some (makeRecord Config.reference 3 (.b 65534)) ∧ 65536 < (3 : Int) + 65534)) ∧
    (branchInLatch 3 (-3)).halted = false ∧
    (branchInLatch 3 (-3)).qScalar.length < (branchInLatch 3 (-3)).cfg.scalarQueueDepth := by
  decide

/-! ### Dispatch, stalls and the scoreboard -/

/-- Two independent instructions fill the Vector-Compute queue; a third, independent too, is in DL. -/
def fullQueue : State :=
  { (State.reset.enqueue (makeRecord Config.reference 0 (.addvv 0 1 2))).enqueue
      (makeRecord Config.reference 1 (.addvv 3 4 5)) with
    pc := 3
    cycle := 4
    dl := some (makeRecord Config.reference 2 (.subvv 6 7 7)) }

theorem witness_21_stalls :
    (midRun.halted = false ∧ midRun.dl = some (makeRecord Config.reference 1 (.addvv 3 1 4)) ∧
      (∃ x ∈ checkSet (.addvv 3 1 4), midRun.busy.get x = true) ∧ midRun.cfg.maxCycles = none) ∧
    fullQueue.halted = false ∧ fullQueue.dl = some (makeRecord Config.reference 2 (.subvv 6 7 7)) ∧
    (∀ x ∈ checkSet (.subvv 6 7 7), fullQueue.busy.get x = false) ∧
    fullQueue.cap .vectorCompute ≤ (fullQueue.queue .vectorCompute).length ∧ fullQueue.cfg.maxCycles = none :=
  ⟨by decide, by decide, by decide, by decide, by decide, by decide⟩

/-- The third instruction is about to dispatch into a queue with room. -/
def readyToDispatch : State := { midRun with dl := some (makeRecord Config.reference 1 (.lv 3 0)) }

theorem witness_22_dispatch_accepts :
    readyToDispatch.dl = some (makeRecord Config.reference 1 (.lv 3 0)) ∧ (Instr.lv 3 0).mnemonic ≠ .b ∧
    (∀ x ∈ checkSet (.lv 3 0), readyToDispatch.busy.get x = false) ∧
    (readyToDispatch.queue .vectorData).length < readyToDispatch.cap .vectorData :=
  ⟨by decide, by decide, by decide, by decide⟩

theorem witness_23_every_class :
    ((Instr.addvv 0 1 2).queueClass = .vectorCompute ∧ (Instr.lv 0 1).queueClass = .vectorData) ∧
    (Instr.mfcl 0).mnemonic = .mfcl ∧ (Instr.pop 0).mnemonic = .pop ∧ (Instr.mtcl 0).mnemonic = .mtcl ∧
    (Instr.b 0).mnemonic = .b ∧ RegName.length ∈ snapSet (.mfcl 0) := by decide

theorem witness_24_disjoint_vector_instructions :
    (Instr.addvv 0 1 2).queueClass ≠ .scalarOps ∧ (Instr.lvws 3 0 1).queueClass ≠ .scalarOps ∧
    (∀ x ∈ refSet (.addvv 0 1 2), x ∉ refSet (.lvws 3 0 1)) ∧ RegName.length ∈ checkSet (.lvws 3 0 1) := by decide

/-- `i` at index 0 as the head of its queue, in the cycle before it is due, over `V1 = a`, `V2 = b`, `S0 = x`, `S1 = y`. -/
def due (i : Instr) (a b : Lanes) (vl x y : Int) : State := (withScalars a b vl x y).withInstr i (encode i)

/-- The head of `due`. -/
def dueEntry (i : Instr) (vl : Int) : Entry :=
  { (withVectors (vec [] 0) (vec [] 0) vl).newEntry (makeRecord { Config.reference with vdataExt := i.isExtension } 0 i) with
    elapsed := Config.reference.latency i.mnemonic - 1 }

theorem witness_25_head_timers :
    (midRun.halted = false ∧ midRun.queue .vectorData = []) ∧
    (midRun.queue .vectorCompute = [State.reset.newEntry (makeRecord Config.reference 0 (.addvv 0 1 2))] ∧
      0 + 1 ≠ Config.reference.latency .addvv) ∧
    ((State.reset.enqueue (makeRecord Config.reference 0 (.b 0))).queue .scalarOps =
        [State.reset.newEntry (makeRecord Config.reference 0 (.b 0))] ∧
      0 + 1 = Config.reference.latency .b) ∧
    ((due (.addvv 0 1 2) (ramp 0) (ramp 0) 64 0 0).queue .vectorCompute = [dueEntry (.addvv 0 1 2) 64] ∧
      (dueEntry (.addvv 0 1 2) 64).elapsed + 1 = Config.reference.latency .addvv) ∧
    (isNext (exec (.addvv 0 1 2) ((due (.addvv 0 1 2) (ramp 0) (ramp 0) 64 0 0).tickHead .vectorCompute)) = true ∧
      (after (exec (.addvv 0 1 2) ((due (.addvv 0 1 2) (ramp 0) (ramp 0) 64 0 0).tickHead .vectorCompute))).halted =
        false) ∧
    (∀ x ∈ markSet (.addvv 0 1 2), (due (.addvv 0 1 2) (ramp 0) (ramp 0) 64 0 0).busy.get x = true) ∧
    (isNext (exec (.divvv 0 1 2) ((due (.divvv 0 1 2) (ramp 0) (ramp 0) 64 0 0).tickHead .vectorCompute)) = true ∧
      (after (exec (.divvv 0 1 2) ((due (.divvv 0 1 2) (ramp 0) (ramp 0) 64 0 0).tickHead .vectorCompute))).halted =
        true) :=
  ⟨by decide, by decide, by decide, by decide, by decide, by decide, by decide⟩

/-! ### Steps -/

/-- A line the decoder rejects is in FL. -/
def badLine : State :=
  { State.reset with fl := some { p := 0, toks := [['F', 'O', 'O']] }, pc := 1, imem := [(0, [['F', 'O', 'O']])] }

theorem witness_26_a_unit_raises :
    ((due (.divvv 0 1 2) (ramp 0) (ramp 0) 64 0 0).halted = false ∧
      legalConfig (due (.divvv 0 1 2) (ramp 0) (ramp 0) 64 0 0).cfg = true ∧
      advanceUnit .vectorCompute (due (.divvv 0 1 2) (ramp 0) (ramp 0) 64 0 0) =
        .next (after (advanceUnit .vectorCompute (due (.divvv 0 1 2) (ramp 0) (ramp 0) 64 0 0))) ∧
      (after (advanceUnit .vectorCompute (due (.divvv 0 1 2) (ramp 0) (ramp 0) 64 0 0))).halted = true) ∧
    (advanceUnit .vectorCompute (due (.lv 1 0) (ramp 0) (ramp 0) 64 (-1) 0) =
        .next (due (.lv 1 0) (ramp 0) (ramp 0) 64 (-1) 0) ∧
      advanceUnit .vectorData (due (.lv 1 0) (ramp 0) (ramp 0) 64 (-1) 0) =
        .next (after (advanceUnit .vectorData (due (.lv 1 0) (ramp 0) (ramp 0) 64 (-1) 0))) ∧
      (after (advanceUnit .vectorData (due (.lv 1 0) (ramp 0) (ramp 0) 64 (-1) 0))).halted = true) :=
  ⟨⟨by decide, by decide, eq_next_after (by decide), by decide⟩, rfl, eq_next_after (by decide), by decide⟩

/-- A Scalar-Ops head that is due but does not hold its register: no run reaches it (R134). -/
def lostHold : State := { due (.pop 3) (ramp 0) (ramp 0) 64 0 0 with busy := Scoreboard.free }

theorem witness_26_scalar_unit_raises :
    advanceUnit .vectorCompute lostHold = .next lostHold ∧ advanceUnit .vectorData lostHold = .next lostHold ∧
    advanceUnit .scalarOps lostHold = .next (after (advanceUnit .scalarOps lostHold)) ∧
    (after (advanceUnit .scalarOps lostHold)).halted = true :=
  ⟨rfl, rfl, eq_next_after (by decide), by decide⟩

theorem witness_26_dispatch_raises_stalls_squashes_or_flows :
    (∀ s ∈ [branchInLatch 3 (-4), branchInLatch 3 0, fullQueue, badLine], s.halted = false ∧ legalConfig s.cfg = true) ∧
    ((∃ f, dispatchPhase (branchInLatch 3 (-4)) = .next f ∧ f.state.halted = true) ∧
      (∃ f, dispatchPhase (branchInLatch 3 0) = .next f ∧ f.state.halted = false ∧ f.squashed = true) ∧
      (∃ f, dispatchPhase fullQueue = .next f ∧ f.state.halted = false ∧ f.stalled.isSome = true) ∧
      ∃ f, dispatchPhase badLine = .next f ∧ f.state.halted = false ∧ f.stalled = none ∧ f.squashed = false) ∧
    (advanceUnit .vectorCompute (branchInLatch 3 0) = .next (branchInLatch 3 0) ∧
      advanceUnit .vectorData (branchInLatch 3 0) = .next (branchInLatch 3 0) ∧
      advanceUnit .scalarOps (branchInLatch 3 0) = .next (branchInLatch 3 0)) := by
  refine ⟨by decide, ⟨⟨_, rfl, by decide⟩, ⟨_, rfl, by decide, by decide⟩, ⟨_, rfl, by decide, by decide⟩,
    ⟨_, rfl, by decide, by decide, by decide⟩⟩, rfl, rfl, rfl⟩

theorem witness_27_placed_instructions :
    (legalConfig State.reset.cfg = true ∧ decodeTableWord 56 (wordOf ['P', 'O', 'P', ' ', 'S', 'R', '0']) = some (.pop 0) ∧
      (Instr.pop 0).mnemonic ≠ .b ∧
      isNext (exec (.pop 0) ((State.reset.withFetchWord 56 (wordOf ['P', 'O', 'P', ' ', 'S', 'R', '0'])).tickHead
        .scalarOps)) = true ∧
      (after (exec (.pop 0) ((State.reset.withFetchWord 56 (wordOf ['P', 'O', 'P', ' ', 'S', 'R', '0'])).tickHead
        .scalarOps))).halted = false) ∧
    (decodeTableWord 24 (wordOf ['B', ' ', '1']) = some (.b 1) ∧ (Instr.b 1).mnemonic = .b ∧
      (after (exec (.b 1) (State.reset.withFetchWord 24 (wordOf ['B', ' ', '1'])))).halted = false) ∧
    (decodeTableWord 32 (wordOf ['B', ' ', '-', '1']) = some (.b (-1)) ∧
      (after (exec (.b (-1)) (State.reset.withFetchWord 32 (wordOf ['B', ' ', '-', '1'])))).halted = true) ∧
    (decodeTableWord 80 (wordOf ['L', 'V', ' ', 'V', 'R', '1', ' ', 'S', 'R', '0']) = some (.lv 1 0) ∧
      (after (exec (.lv 1 0) (((withScalars (ramp 0) (ramp 0) 64 (-1) 0).withFetchWord 80
        (wordOf ['L', 'V', ' ', 'V', 'R', '1', ' ', 'S', 'R', '0'])).tickHead .vectorData))).halted = true) :=
  ⟨⟨by decide, by decide, by decide, by decide, by decide⟩, ⟨by decide, by decide, by decide⟩, ⟨by decide, by decide⟩,
    by decide, by decide⟩

/-- E3 at launch, but for the lane values. -/
def oneLine : State :=
  { State.reset with imem := [(0, [['A', 'D', 'D', 'V', 'V'], ['V', 'R', '0'], ['V', 'R', '1'], ['V', 'R', '2']])] }

theorem witness_28_idle_core_with_one_line :
    Idle oneLine ∧ legalConfig oneLine.cfg = true ∧ oneLine.cfg.maxCycles = none ∧ oneLine.pc + 1 = oneLine.progLen ∧
    Memory.lookup oneLine.imem oneLine.pc = some [['A', 'D', 'D', 'V', 'V'], ['V', 'R', '0'], ['V', 'R', '1'], ['V', 'R', '2']] ∧
    decodeLine oneLine.cfg.vdataExt [['A', 'D', 'D', 'V', 'V'], ['V', 'R', '0'], ['V', 'R', '1'], ['V', 'R', '2']] =
      .ok (.addvv 0 1 2) ∧
    (Instr.addvv 0 1 2).mnemonic ≠ .b ∧ exec (.addvv 0 1 2) oneLine = .next (after (exec (.addvv 0 1 2) oneLine)) ∧
    (after (exec (.addvv 0 1 2) oneLine)).halted = false :=
  ⟨⟨rfl, rfl, rfl, rfl, rfl, rfl, rfl, rfl⟩, by decide, by decide, by decide, by decide, by decide, by decide,
    eq_next_after (by decide), by decide⟩

theorem witness_29_halted_states :
    ({ State.reset with status := .haltedNormal } : State).status = .haltedNormal ∧
    (State.reset.raise cycleLimitRecord).status = .haltedError := by decide

/-- O30 to O33, O38 to O43: a step from the middle of a run answers a next state; so does one of a halted core. -/
theorem witness_30_33_a_step_answers :
    legalConfig midRun.cfg = true ∧ midRun.halted = false ∧ step midRun = .next (after (step midRun)) ∧
    (State.reset.raise cycleLimitRecord).halted = true ∧
    step (State.reset.raise cycleLimitRecord) = .next (State.reset.raise cycleLimitRecord) :=
  ⟨by decide, by decide, eq_next_after (by decide), by decide, by rfl⟩

theorem witness_33_a_step_fetches :
    step oneLine = .next (after (step oneLine)) ∧ oneLine.fl = none ∧
    (after (step oneLine)).fl =
      some { p := 0, toks := [['A', 'D', 'D', 'V', 'V'], ['V', 'R', '0'], ['V', 'R', '1'], ['V', 'R', '2']] } :=
  ⟨eq_next_after (by decide), by decide, by decide⟩

theorem classesMatch_due (i : Instr) (a b : Lanes) (vl x y : Int) (hi : i.mnemonic ≠ .b) :
    ClassesMatch (due i a b vl x y) := by
  intro c e he
  cases i <;> cases c <;> first
    | exact absurd rfl hi
    | (have h := List.mem_singleton.mp he; subst h; rfl)
    | cases he

theorem witness_34_pop_changes_a_scalar :
    ClassesMatch (due (.pop 3) (ramp 0) (ramp 0) 64 0 0) ∧
    step (due (.pop 3) (ramp 0) (ramp 0) 64 0 0) = .next (after (step (due (.pop 3) (ramp 0) (ramp 0) 64 0 0))) ∧
    (after (step (due (.pop 3) (ramp 0) (ramp 0) 64 0 0))).readS 3 ≠ (due (.pop 3) (ramp 0) (ramp 0) 64 0 0).readS 3 :=
  ⟨classesMatch_due _ _ _ _ _ _ (by decide), eq_next_after (by decide), by decide⟩

theorem witness_35_mtcl_changes_the_length :
    ClassesMatch (due (.mtcl 0) (ramp 0) (ramp 0) 64 4 0) ∧
    step (due (.mtcl 0) (ramp 0) (ramp 0) 64 4 0) = .next (after (step (due (.mtcl 0) (ramp 0) (ramp 0) 64 4 0))) ∧
    (after (step (due (.mtcl 0) (ramp 0) (ramp 0) 64 4 0))).vlr ≠ (due (.mtcl 0) (ramp 0) (ramp 0) 64 4 0).vlr :=
  ⟨classesMatch_due _ _ _ _ _ _ (by decide), eq_next_after (by decide), by decide⟩

theorem witness_36_addvv_changes_a_lane :
    ClassesMatch (due (.addvv 0 1 2) (ramp 0) (ramp 0) 64 0 0) ∧
    step (due (.addvv 0 1 2) (ramp 0) (ramp 0) 64 0 0) =
      .next (after (step (due (.addvv 0 1 2) (ramp 0) (ramp 0) 64 0 0))) ∧
    (after (step (due (.addvv 0 1 2) (ramp 0) (ramp 0) 64 0 0))).lane 0 63 ≠
      (due (.addvv 0 1 2) (ramp 0) (ramp 0) 64 0 0).lane 0 63 :=
  ⟨classesMatch_due _ _ _ _ _ _ (by decide), eq_next_after (by decide), by decide⟩

theorem witness_37_sv_changes_a_word :
    ClassesMatch (due (.sv 1 0) (ramp 5) (ramp 0) 2 10 0) ∧
    step (due (.sv 1 0) (ramp 5) (ramp 0) 2 10 0) = .next (after (step (due (.sv 1 0) (ramp 5) (ramp 0) 2 10 0))) ∧
    Memory.read (after (step (due (.sv 1 0) (ramp 5) (ramp 0) 2 10 0))).vdm 11 ≠
      Memory.read (due (.sv 1 0) (ramp 5) (ramp 0) 2 10 0).vdm 11 :=
  ⟨classesMatch_due _ _ _ _ _ _ (by decide), eq_next_after (by decide), by decide⟩

/-! ### Invariants -/

theorem inv_midRun : Inv midRun := by
  have hrec : ∀ r ∈ [makeRecord Config.reference 0 (.addvv 0 1 2), makeRecord Config.reference 1 (.addvv 3 1 4)],
      FromProgram midRun r := by
    intro r hr
    simp only [List.mem_cons, List.not_mem_nil, or_false] at hr
    rcases hr with rfl | rfl
    · exact ⟨by decide, _, rfl, by decide⟩
    · exact ⟨by decide, _, rfl, by decide⟩
  refine ⟨by decide, ?_, ?_, ?_, ⟨?_, ?_⟩, ?_, ?_, ?_, by unfold PcInRange; decide, ?_, ?_⟩
  · exact forall_regName (by decide) (by decide) (by decide) (by decide)
  · intro c
    cases c <;> decide
  · intro c e he
    cases c
    · have h := List.mem_singleton.mp he
      subst h
      rfl
    · cases he
    · cases he
  · intro f hf
    cases hf
  · intro r hr
    cases hr
    exact ⟨hrec _ (by decide), by decide⟩
  · intro e he
    have h : e = State.reset.newEntry (makeRecord Config.reference 0 (.addvv 0 1 2)) := List.mem_singleton.mp he
    subst h
    refine ⟨hrec _ (by decide), by decide, by decide, by decide, fun n hn => ?_⟩
    cases hn
    decide
  · intro c
    cases c
    · refine ⟨fun e he => ?_, fun e he => ?_⟩
      · cases he
      · cases he
        decide
    · exact ⟨fun e he => (by cases he), fun e he => (by cases he)⟩
    · exact ⟨fun e he => (by cases he), fun e he => (by cases he)⟩
  · unfold ErrorMatchesStatus
    decide
  · unfold MemoriesOk
    decide
  · intro h
    cases h

/-- O39 to O43: the premises of the invariant statements hold in a state in the middle of a run. -/
theorem witness_38_43_premises :
    ScoreboardExact midRun ∧ QueuesBounded midRun ∧ ClassesMatch midRun ∧ LatchesOrdered midRun ∧ EntriesOk midRun ∧
    TimersOk midRun ∧ ErrorMatchesStatus midRun ∧ PcInRange midRun ∧ NormalHaltDrained midRun ∧ MemoriesOk midRun ∧
    legalConfig midRun.cfg = true ∧ midRun.cfg.vdataExt = false ∧ midRun.qData = [] ∧ midRun.err = none :=
  ⟨inv_midRun.scoreboard, inv_midRun.queues, inv_midRun.classes, inv_midRun.latches, inv_midRun.entries,
    inv_midRun.timers, inv_midRun.error, inv_midRun.pc, inv_midRun.drained, inv_midRun.memories, by decide, by decide,
    by decide, by decide⟩

theorem witness_38_held_operands :
    (ScoreboardExact midRun ∧
      (midRun.queue .vectorCompute).head? = some (State.reset.newEntry (makeRecord Config.reference 0 (.addvv 0 1 2))) ∧
      0 + 1 ≠ Config.reference.latency .addvv ∧ RegName.vector 0 ∈ markSet (.addvv 0 1 2)) ∧
    (ScoreboardExact fullQueue ∧ step fullQueue = .next (after (step fullQueue)) ∧
      (fullQueue.queue .vectorCompute).tail = [State.reset.newEntry (makeRecord Config.reference 1 (.addvv 3 4 5))]) :=
  ⟨⟨inv_midRun.scoreboard, by decide, by decide, by decide⟩,
    forall_regName (by decide) (by decide) (by decide) (by decide), eq_next_after (by decide), by decide⟩

theorem witness_40_the_check_raises :
    (∃ x ∈ markSet (.addvv 3 1 4), midRun.busy.get x = true) ∧
    (lostHold.halted = false ∧ lostHold.queue .scalarOps = [dueEntry (.pop 3) 64] ∧
      (dueEntry (.pop 3) 64).elapsed + 1 = Config.reference.latency .pop ∧
      (∃ x ∈ markSet (.pop 3), lostHold.busy.get x = false) ∧
      ∀ u, exec (.pop 3) (lostHold.tickHead .scalarOps) = .next u → u.halted = false) :=
  ⟨by decide, by decide, by decide, by decide, by decide, forall_next (by decide)⟩

/-! ### Halting, memory, reset and launch -/

/-- A core at the end of its program, with a cycle limit. -/
def atEnd (limit : Option Nat) (pc : Nat) : State :=
  { oneLine with pc := pc, cfg := { Config.reference with maxCycles := limit } }

theorem witness_45_ends_of_a_cycle :
    (State.reset.raise cycleLimitRecord).halted = true ∧
    ((atEnd none 1).halted = false ∧ (atEnd none 1).drained = true) ∧
    ((atEnd (some 1) 0).halted = false ∧ (atEnd (some 1) 0).drained = false ∧ 1 ≤ (atEnd (some 1) 0).cycle + 1) ∧
    ((atEnd (some 2) 0).halted = false ∧ (atEnd (some 2) 0).drained = false ∧ (atEnd (some 2) 0).cycle + 1 < 2) ∧
    (atEnd none 0).drained = false ∧ (atEnd none 0).cfg.maxCycles = none :=
  ⟨by decide, by decide, by decide, by decide, by decide, by decide⟩

theorem witness_46_inside_and_past_the_program :
    (oneLine.progLen < 65536 ∧ 0 < oneLine.progLen) ∧ (atEnd none 0).pc < (atEnd none 0).progLen ∧
    (atEnd none 1).progLen ≤ (atEnd none 1).pc := by decide

theorem witness_47_a_rejected_line :
    badLine.halted = false ∧ dispatchPhase badLine = .next { state := badLine, stalled := none, squashed := false } ∧
    badLine.fl = some { p := 0, toks := [['F', 'O', 'O']] } ∧
    decodeLine badLine.cfg.vdataExt [['F', 'O', 'O']] = .error .unknownMnemonic :=
  ⟨by decide, rfl, by decide, by decide⟩

theorem witness_48_canonical_memories : Memory.wf [(3, 5), (7, 1)] ∧ Memory.wf [] := by
  unfold Memory.wf
  decide

/-- A launch of P4's data with VLR 4. -/
def launchP4 : Launch := { cfg := { Config.reference with vdataExt := true }, vdm := [(0, 0), (1, 1), (2, 2)], vlr := 4 }

theorem witness_44_50_a_launch : boot launchP4 = .next (launchState launchP4) ∧ legalConfig launchP4.cfg = true :=
  ⟨rfl, by decide⟩

theorem witness_51_illegal_configurations :
    ({ Config.reference with computeQueueDepth := 0 } : Config).computeQueueDepth = 0 ∧
    (∃ m, ({ Config.reference with lat := { Config.reference.lat with svws := 0 } } : Config).latency m = 0) ∧
    ({ Config.reference with maxCycles := some 0 } : Config).maxCycles = some 0 ∧
    ({ State.reset with cfg := { Config.reference with maxCycles := some 0 } } : State).halted = false :=
  ⟨rfl, ⟨.svws, rfl⟩, rfl, rfl⟩

theorem witness_51_illegal_launches :
    legalConfig Config.reference = true ∧
    (∃ x ∈ [((0 : Nat), (2147483648 : Int))], inRange32 x.2 = false) ∧ (∃ x ∈ [((1024 : Nat), (0 : Int))],
      Config.reference.vdmSize ≤ x.1) ∧
    (∃ x ∈ [((65536 : Nat), ([['B'], ['0']] : Line))], 65536 ≤ x.1) ∧ inRange32 (-2147483649) = false := by
  decide

theorem witness_52_host_port :
    (∃ t, hostWrite .length [-5] State.reset = some t) ∧ (∃ t, hostWrite (.vector 3) (List.replicate 64 7) State.reset = some t) ∧
    RegName.vector 2 ≠ .vector 3 :=
  ⟨⟨_, rfl⟩, ⟨_, by rfl⟩, by decide⟩

/-- A launch with a program, both data images, two words for one index, and the two extreme register values. -/
def launchLoaded : Launch where
  cfg := Config.reference
  imem := [(65535, [['B'], ['0']]), (0, [['M', 'T', 'C', 'L'], ['S', 'R', '0']])]
  vdm := [(1023, 5), (1023, -2147483648)]
  sdm := [(0, 2147483647)]
  sreg := Vector.replicate 8 2147483647
  vlr := -2147483648

theorem witness_50_56_loaded_launch_is_legal :
    (legalConfig launchLoaded.cfg = true ∧ legalProgram launchLoaded.imem = true ∧
      legalImage launchLoaded.cfg.vdmSize launchLoaded.vdm = true ∧
      legalImage launchLoaded.cfg.sdmSize launchLoaded.sdm = true) ∧
    ((∀ x ∈ launchLoaded.imem, x.1 < 65536 ∧ ∀ tok ∈ x.2, tok ≠ [] ∧ ∀ c ∈ tok, c.isWhitespace = false) ∧
      (∀ x ∈ launchLoaded.vdm, x.1 < launchLoaded.cfg.vdmSize ∧ inRange32 x.2 = true) ∧
      ∀ x ∈ launchLoaded.sdm, x.1 < launchLoaded.cfg.sdmSize ∧ inRange32 x.2 = true) ∧
    (∀ i : Fin 8, inRange32 launchLoaded.sreg[i.val] = true) ∧
    (∀ (r : Fin 8) (k : Fin 64), inRange32 (launchLoaded.vreg[r.val])[k.val] = true) ∧
    (∀ k : Fin 64, inRange32 launchLoaded.vmr[k.val] = true) ∧ inRange32 launchLoaded.vlr = true :=
  ⟨by decide, ⟨by simp [launchLoaded], by decide, by decide⟩, by decide, by decide, by decide, by decide⟩

/-- Log 15: the later of two words for one index stands; log 5: an index not named is the sentinel. -/
theorem witness_56_loaded_launch_boots :
    boot launchLoaded = .next (launchState launchLoaded) ∧ lastEntry launchLoaded.vdm 1023 = some (-2147483648) ∧
    lastEntry launchLoaded.imem 1 = none := by
  refine ⟨?_, by decide, by decide⟩
  unfold boot
  rw [if_neg (by decide), if_neg (by decide)]

theorem witness_55_nothing_loaded :
    ({ State.reset with pc := 7 } : State).imem = [] ∧ ({ State.reset with pc := 7 } : State).cfg = Config.reference :=
  ⟨rfl, rfl⟩

theorem witness_53_equal_views :
    hostView State.reset = hostView { State.reset with busy := Scoreboard.free.put .length true } := rfl

/-- V-PC1, the empty program: one cycle, halted normally. -/
theorem witness_54_a_normal_run :
    boot { cfg := Config.reference } = .next (launchState { cfg := Config.reference }) ∧
    run 1 (launchState { cfg := Config.reference }) = .next (after (run 1 (launchState { cfg := Config.reference }))) ∧
    (after (run 1 (launchState { cfg := Config.reference }))).status = .haltedNormal :=
  ⟨rfl, eq_next_after (by decide), by decide⟩

end Sys2Proof.Tests
end

section
/-! PROOFS. Every step answers exactly one next state, and no step writes the parameters, IMEM, SDM or VMR (`00_scope.md`
R8, R10; `10_state.md` R25; `20_memory.md` R61, R66). -/

namespace Sys2Proof.Machine

/-! ### What the last phases, a cycle and a step can do -/

/-- An outcome is at most one next state (R10). -/
theorem next_unique {σ : Type} {o : Host.Outcome σ Fault Refusal} {t u : σ} (ht : o = .next t) (hu : o = .next u) : t = u :=
  Host.Outcome.next.inj (ht.symm.trans hu)

/-- Everything that follows the execute phase: the end of the cycle at once, after a raise in a unit, or at dispatch when it
raised, stalled or squashed, or else after decode and fetch (R252). -/
theorem afterExecute_cases (s : State) :
    (s.halted = true ∧ afterExecute s = .next (endCycle none s)) ∨
      (s.halted = false ∧ ∃ f, dispatchPhase s = .next f ∧
        (((f.state.halted = true ∨ f.stalled.isSome = true ∨ f.squashed = true) ∧
            afterExecute s = .next (endCycle f.stalled f.state)) ∨
          (f.state.halted = false ∧ f.stalled = none ∧ f.squashed = false ∧
            afterExecute s = .next (endCycle none (frontEnd f.state))))) := by
  cases hs : s.halted with
  | true => exact .inl ⟨rfl, by simp [afterExecute, hs]⟩
  | false =>
    obtain ⟨f, hf⟩ := dispatchPhase_next s
    refine .inr ⟨rfl, f, hf, ?_⟩
    have hafter : afterExecute s =
        if f.state.halted || f.stalled.isSome || f.squashed then .next (endCycle f.stalled f.state)
        else .next (endCycle none (frontEnd f.state)) := by
      simp [afterExecute, hs, hf]
    by_cases hend : (f.state.halted || f.stalled.isSome || f.squashed) = true
    · exact .inl ⟨by simpa [or_assoc] using hend, by rw [hafter, if_pos hend]⟩
    · obtain ⟨⟨hh, hst⟩, hsq⟩ : (f.state.halted = false ∧ f.stalled = none) ∧ f.squashed = false := by simpa using hend
      exact .inr ⟨hh, hst, hsq, by rw [hafter, if_neg hend]⟩

/-- A cycle always answers a next state: no phase faults or refuses. -/
theorem runCycle_next (s : State) : ∃ t, runCycle s = .next t := by
  obtain ⟨s1, h1⟩ := executePhase_next s
  have hrun : runCycle s = afterExecute s1 := by rw [runCycle, h1, andThen_next]
  rcases afterExecute_cases s1 with ⟨-, h⟩ | ⟨-, f, -, ⟨-, h⟩ | ⟨-, -, -, h⟩⟩
  all_goals exact ⟨_, hrun.trans h⟩

/-- A core with a legal configuration always answers a next state, halted or not. -/
theorem step_next (s : State) (hc : legalConfig s.cfg = true) : ∃ t, step s = .next t := by
  cases hs : s.halted with
  | true => exact ⟨s, step_halted s hs⟩
  | false =>
    obtain ⟨t, ht⟩ := runCycle_next s
    exact ⟨t, (step_running s hs hc).trans ht⟩

/-- A step that answers a next state was no step at all, of a halted core, or one cycle of a legally configured one. -/
theorem step_eq_next {s t : State} (h : step s = .next t) :
    (s.halted = true ∧ t = s) ∨ (s.halted = false ∧ legalConfig s.cfg = true ∧ runCycle s = .next t) := by
  cases hs : s.halted with
  | true => exact .inl ⟨rfl, next_unique h (step_halted s hs)⟩
  | false =>
    by_cases hc : legalConfig s.cfg = true
    · exact .inr ⟨rfl, hc, (step_running s hs hc).symm.trans h⟩
    · simp [step, hs, hc] at h

/-- The execute phase is the three units' shares, one after the other (R253). -/
theorem executePhase_eq_next {s t : State} (h : executePhase s = .next t) :
    ∃ s1 s2, advanceUnit .vectorCompute s = .next s1 ∧ unlessHalted (advanceUnit .vectorData) s1 = .next s2 ∧
      unlessHalted (advanceUnit .scalarOps) s2 = .next t := by
  obtain ⟨s1, h1, h⟩ := andThen_eq_next h
  obtain ⟨s2, h2, h3⟩ := andThen_eq_next h
  exact ⟨s1, s2, h1, h2, h3⟩

/-! ### What no phase writes -/

/-- State `t` has the parameters, IMEM, SDM and VMR of `s` (R8, R25, R61, R66). -/
structure SameFixed (s t : State) : Prop where
  cfg : t.cfg = s.cfg
  imem : t.imem = s.imem
  sdm : t.sdm = s.sdm
  vmr : t.vmr = s.vmr

theorem SameFixed.refl (s : State) : SameFixed s s := ⟨rfl, rfl, rfl, rfl⟩

theorem SameFixed.trans {s t u : State} (h : SameFixed s t) (h' : SameFixed t u) : SameFixed s u :=
  ⟨h'.cfg.trans h.cfg, h'.imem.trans h.imem, h'.sdm.trans h.sdm, h'.vmr.trans h.vmr⟩

theorem Effect.sameFixed {e : Effect} {s t : State} (h : e.holds s t) : SameFixed s t :=
  have hc := Effect.sameControl h
  ⟨hc.cfg, hc.imem, hc.sdm, hc.vmr⟩

theorem State.raise_sameFixed (s : State) (info : ErrorRecord) : SameFixed s (s.raise info) := ⟨rfl, rfl, rfl, rfl⟩

theorem State.tickHead_sameFixed (s : State) (c : QueueClass) : SameFixed s (s.tickHead c) :=
  ⟨s.tickHead_cfg c, s.tickHead_imem c, s.tickHead_sdm c, s.tickHead_vmr c⟩

theorem State.retireHead_sameFixed (s : State) (c : QueueClass) (r : Record) : SameFixed s (s.retireHead c r) :=
  ⟨s.retireHead_cfg c r, s.retireHead_imem c r, s.retireHead_sdm c r, s.retireHead_vmr c r⟩

theorem State.enqueue_sameFixed (s : State) (r : Record) : SameFixed s (s.enqueue r) := by
  unfold State.enqueue
  split
  · exact s.raise_sameFixed _
  · exact ⟨State.setQueue_cfg .., State.setQueue_imem .., State.setQueue_sdm .., State.setQueue_vmr ..⟩

theorem advanceUnit_sameFixed {c : QueueClass} {s t : State} (hs : s.halted = false) (h : advanceUnit c s = .next t) :
    SameFixed s t := by
  have htick := s.tickHead_sameFixed c
  rcases advanceUnit_cases c s hs with ⟨-, hu⟩ | ⟨e, rest, -, ⟨-, hu⟩ | ⟨-, ⟨u, he, hu⟩ | ⟨-, hu⟩ | ⟨u, he, -, -, hu⟩⟩⟩
  all_goals obtain rfl := next_unique h hu
  · exact .refl _
  · exact htick
  · exact htick.trans (Effect.sameFixed he)
  · exact htick.trans (State.raise_sameFixed _ _)
  · have heffect : SameFixed (s.tickHead c) u := by
      rcases he with ⟨-, he⟩ | ⟨-, rfl⟩
      · exact Effect.sameFixed he
      · exact .refl _
    exact (htick.trans heffect).trans (u.retireHead_sameFixed c e.record)

theorem unlessHalted_advanceUnit_sameFixed {c : QueueClass} {s t : State}
    (h : unlessHalted (advanceUnit c) s = .next t) : SameFixed s t := by
  cases hs : s.halted with
  | true =>
    obtain rfl : s = t := by simpa [unlessHalted, hs] using h
    exact .refl s
  | false => exact advanceUnit_sameFixed hs (by simpa [unlessHalted, hs] using h)

theorem executePhase_sameFixed {s t : State} (hs : s.halted = false) (h : executePhase s = .next t) : SameFixed s t := by
  obtain ⟨s1, s2, h1, h2, h3⟩ := executePhase_eq_next h
  exact ((advanceUnit_sameFixed hs h1).trans (unlessHalted_advanceUnit_sameFixed h2)).trans
    (unlessHalted_advanceUnit_sameFixed h3)

theorem dispatchPhase_sameFixed {s : State} {f : Flow} (h : dispatchPhase s = .next f) : SameFixed s f.state := by
  rcases dispatchPhase_cases s with
    ⟨-, hg⟩ | ⟨r, -, ⟨reason, -, hg⟩ | ⟨-, -, hg⟩ | ⟨-, -, ⟨t, he, hg⟩ | ⟨t, he, hg⟩⟩⟩
  · obtain rfl := next_unique h hg
    exact .refl _
  · obtain rfl := next_unique h hg
    exact .refl _
  · obtain rfl := next_unique h hg
    exact s.enqueue_sameFixed r
  · obtain rfl := next_unique h hg
    exact Effect.sameFixed he
  · split at hg
    · obtain rfl := next_unique h hg
      exact Effect.sameFixed he
    · obtain rfl := next_unique h hg
      exact (Effect.sameFixed he).trans (t.enqueue_sameFixed r)

theorem decodePhase_sameFixed (s : State) : SameFixed s (decodePhase s) := by
  unfold decodePhase
  split
  · exact .refl s
  · split <;> exact ⟨rfl, rfl, rfl, rfl⟩

theorem fetchPhase_sameFixed (s : State) : SameFixed s (fetchPhase s) := by
  unfold fetchPhase
  split
  · split <;> exact ⟨rfl, rfl, rfl, rfl⟩
  · exact .refl s

theorem frontEnd_sameFixed (s : State) : SameFixed s (frontEnd s) := by
  unfold frontEnd
  split
  · exact decodePhase_sameFixed s
  · exact (decodePhase_sameFixed s).trans (fetchPhase_sameFixed _)

theorem endCycle_sameFixed (stalled : Option StallReason) (s : State) : SameFixed s (endCycle stalled s) := by
  rw [endCycle_frame]
  exact ⟨rfl, rfl, rfl, rfl⟩

theorem afterExecute_sameFixed {s t : State} (h : afterExecute s = .next t) : SameFixed s t := by
  rcases afterExecute_cases s with ⟨-, hu⟩ | ⟨-, f, hf, ⟨-, hu⟩ | ⟨-, -, -, hu⟩⟩
  all_goals obtain rfl := next_unique h hu
  · exact endCycle_sameFixed _ _
  · exact (dispatchPhase_sameFixed hf).trans (endCycle_sameFixed _ _)
  · exact ((dispatchPhase_sameFixed hf).trans (frontEnd_sameFixed _)).trans (endCycle_sameFixed _ _)

theorem step_sameFixed {s t : State} (h : step s = .next t) : SameFixed s t := by
  rcases step_eq_next h with ⟨-, rfl⟩ | ⟨hs, -, hrun⟩
  · exact .refl _
  · obtain ⟨s1, hexec, hafter⟩ := andThen_eq_next hrun
    exact (executePhase_sameFixed hs hexec).trans (afterExecute_sameFixed hafter)

/-- Settles O30: no phase of a cycle faults or refuses, and `step` is a function. -/
theorem everyLegalStepAnswersOneState : Obligations.EveryLegalStepAnswersOneState := by
  intro s hc
  obtain ⟨t, ht⟩ := step_next s hc
  exact ⟨t, ht, fun u hu => next_unique hu ht⟩

/-- Settles O32, phase by phase: each of them keeps the four fields. -/
theorem noInstructionWritesMaskProgramOrParameters : Obligations.NoInstructionWritesMaskProgramOrParameters := by
  intro s t h
  obtain ⟨hcfg, himem, hsdm, hvmr⟩ := step_sameFixed h
  exact ⟨hcfg, himem, hsdm, hvmr⟩

end Sys2Proof.Machine
end

section
/-! PROOFS. Which launches are accepted, and what the memories hold after one (`00_scope.md` R11; `20_memory.md` R60, R62,
R72; `70_reset_and_hazards.md` R312, R313). -/

namespace Sys2Proof

theorem inRange32_iff (v : Int) : inRange32 v = true ↔ -2147483648 ≤ v ∧ v ≤ 2147483647 :=
  decide_eq_true_iff

/-- Narrowing an integer in range to a word loses nothing (R12). -/
theorem toInt_ofInt_of_inRange32 {v : Int} (h : inRange32 v = true) : (BitVec.ofInt 32 v).toInt = v := by
  obtain ⟨hlo, hhi⟩ := (inRange32_iff v).1 h
  exact BitVec.toInt_ofInt_eq_self (by decide) (by omega) (by omega)

end Sys2Proof

namespace Sys2Proof.Machine

/-! ### Which launches are legal -/

theorem legalToken_iff (tok : Token) : legalToken tok = true ↔ tok ≠ [] ∧ ∀ c ∈ tok, c.isWhitespace = false := by
  simp [legalToken]

theorem legalProgram_iff (img : List (Nat × Line)) :
    legalProgram img = true ↔ ∀ x ∈ img, x.1 < imemSize ∧ ∀ tok ∈ x.2, tok ≠ [] ∧ ∀ c ∈ tok, c.isWhitespace = false := by
  simp only [legalProgram, List.all_eq_true, Bool.and_eq_true, decide_eq_true_eq, legalToken_iff]

theorem legalImage_iff (size : Nat) (img : List (Nat × Int)) :
    legalImage size img = true ↔ ∀ x ∈ img, x.1 < size ∧ inRange32 x.2 = true := by
  simp only [legalImage, List.all_eq_true, Bool.and_eq_true, decide_eq_true_eq]

/-- A test of every element of a vector, read index by index. -/
theorem all_toList_iff {α : Type} {n : Nat} (v : Vector α n) (p : α → Bool) :
    v.toList.all p = true ↔ ∀ i : Fin n, p v[i.val] = true := by
  rw [Vector.all_toList, Vector.all_eq_true, Fin.forall_iff]

/-- A launch is legal iff its three images are and its register values are in range (R60, R72, R78). -/
theorem legalLaunch_iff (l : Launch) :
    legalLaunch l = true ↔
      legalProgram l.imem = true ∧ legalImage l.cfg.vdmSize l.vdm = true ∧ legalImage l.cfg.sdmSize l.sdm = true ∧
        (∀ i : SReg, inRange32 l.sreg[i.val] = true) ∧
        (∀ (r : VReg) (k : Fin 64), inRange32 (l.vreg[r.val])[k.val] = true) ∧
        (∀ k : Fin 64, inRange32 l.vmr[k.val] = true) ∧ inRange32 l.vlr = true := by
  simp only [legalLaunch, Bool.and_eq_true, all_toList_iff, and_assoc]

/-- A launch is accepted iff it breaks no rule, and then into the launch state (R310, R313, R314). -/
theorem boot_eq_next_iff (l : Launch) (s : State) :
    boot l = .next s ↔ legalConfig l.cfg = true ∧ legalLaunch l = true ∧ launchState l = s := by
  unfold boot
  cases hc : legalConfig l.cfg <;> cases hl : legalLaunch l <;> simp

/-! ### What the memories hold -/

/-- What an image gives an index is one of its entries. -/
theorem mem_of_lastEntry {α : Type} {img : List (Nat × α)} {a : Nat} {v : α} (h : lastEntry img a = some v) :
    (a, v) ∈ img := by
  obtain ⟨x, hfind, rfl⟩ := Option.map_eq_some_iff.1 h
  obtain rfl : x.1 = a := by simpa using List.find?_some hfind
  exact List.mem_reverse.1 (List.mem_of_find?_eq_some hfind)

/-- IMEM after loading: the last line for an index, and the sentinel where there is none (R60, R62; log 5, log 15). -/
theorem lookup_loadProgram (img : List (Nat × Line)) (a : Nat) : Memory.lookup (loadProgram img) a = lastEntry img a :=
  (lookup_foldl_insert img a []).trans Option.or_none

/-- A data memory after loading a legal image: the last value for an index, and 0 where there is none (R72; log 4,
log 15). -/
theorem toInt_read_loadImage {size : Nat} {img : List (Nat × Int)} (h : legalImage size img = true) (a : Nat) :
    (Memory.read (loadImage img) a).toInt = (lastEntry img a).getD 0 := by
  have hread : Memory.read (loadImage img) a = ((lastEntry img a).map (BitVec.ofInt 32)).getD 0 :=
    read_foldl_write img a []
  rw [hread]
  cases hlast : lastEntry img a with
  | none => rfl
  | some v =>
    obtain ⟨-, hrange⟩ := (legalImage_iff size img).1 h _ (mem_of_lastEntry hlast)
    exact toInt_ofInt_of_inRange32 hrange

/-- Settles O56: the images stand in the launch state, and a launch that meets the rules is accepted. -/
theorem launchLoadsTheImages : Obligations.LaunchLoadsTheImages := by
  refine ⟨fun l s hboot => ?_, fun l hcfg himem hvdm hsdm hsreg hvreg hvmr hvlr => ?_⟩
  · obtain ⟨-, hlegal, rfl⟩ := (boot_eq_next_iff l s).1 hboot
    obtain ⟨-, hvdm, hsdm, -⟩ := (legalLaunch_iff l).1 hlegal
    exact ⟨lookup_loadProgram l.imem, toInt_read_loadImage hvdm, toInt_read_loadImage hsdm⟩
  · have hlegal : legalLaunch l = true :=
      (legalLaunch_iff l).2 ⟨(legalProgram_iff _).2 himem, (legalImage_iff _ _).2 hvdm, (legalImage_iff _ _).2 hsdm,
        hsreg, hvreg, hvmr, hvlr⟩
    exact ⟨launchState l, (boot_eq_next_iff l _).2 ⟨hcfg, hlegal, rfl⟩⟩

end Sys2Proof.Machine
end

section
/-! PROOFS. What one unit, the dispatcher and the front end answer, case by case, and the induction over the phases of a
cycle (`44_pipeline_controller.md` R252 to R259). -/

namespace Sys2Proof.Machine

/-! ### One unit's share of a cycle -/

/-- The states a unit may leave of `s`. In `retired`, `u` is what the completed instruction made of the ticked state. -/
inductive UnitResult (c : QueueClass) (s : State) : State → Prop
  | idle (h : s.halted = true ∨ s.queue c = []) : UnitResult c s s
  | ticked (e : Entry) (rest : List Entry) (hs : s.halted = false) (hq : s.queue c = e :: rest)
      (hnot : e.elapsed + 1 ≠ e.record.cycleLatency) : UnitResult c s (s.tickHead c)
  | raised (e : Entry) (rest : List Entry) (info : ErrorRecord) (hs : s.halted = false) (hq : s.queue c = e :: rest)
      (hdue : e.elapsed + 1 = e.record.cycleLatency) : UnitResult c s ((s.tickHead c).raise info)
  | retired (e : Entry) (rest : List Entry) (u : State) (hs : s.halted = false) (hq : s.queue c = e :: rest)
      (hdue : e.elapsed + 1 = e.record.cycleLatency) (hu : completeEntry e (s.tickHead c) = .next u)
      (hrun : u.halted = false) : UnitResult c s (u.retireHead c e.record)

/-- A completion that does not halt the core is the instruction's own effect, or nothing for `B` (R220, R224). -/
theorem completeEntry_of_running {e : Entry} {s u : State} (h : completeEntry e s = .next u) (hrun : u.halted = false) :
    (e.record.instr.mnemonic ≠ .b ∧ (effectOf e.record.instr).holds s u) ∨ (e.record.instr.mnemonic = .b ∧ u = s) := by
  obtain ⟨v, hv, hcase⟩ := completeEntry_effect e s
  obtain rfl := next_unique h hv
  rcases hcase with heff | hb | ⟨info, rfl, -⟩
  · exact .inl heff
  · exact .inr hb
  · simp at hrun

/-- A completion that halts the core is a raise. -/
theorem completeEntry_of_halted {e : Entry} {s u : State} (hs : s.halted = false) (h : completeEntry e s = .next u)
    (hu : u.halted = true) : ∃ info, u = s.raise info := by
  obtain ⟨v, hv, hcase⟩ := completeEntry_effect e s
  obtain rfl := next_unique h hv
  rcases hcase with ⟨-, heff⟩ | ⟨-, rfl⟩ | ⟨info, rfl, -⟩
  · obtain ⟨hstatus, -⟩ := Effect.sameStatus heff (effectOf_ne_error _)
    have hsame : u.halted = s.halted := by simp [State.halted, hstatus]
    simp [hsame, hs] at hu
  · simp [hs] at hu
  · exact ⟨info, rfl⟩

/-- A unit leaves one of the states of `UnitResult` (R132, R135, R253). -/
theorem unitResult_of_share {c : QueueClass} {s t : State} (h : unlessHalted (advanceUnit c) s = .next t) :
    UnitResult c s t := by
  cases hs : s.halted with
  | true =>
    obtain rfl : s = t := by simpa [unlessHalted, hs] using h
    exact .idle (.inl hs)
  | false =>
    replace h : advanceUnit c s = .next t := by simpa [unlessHalted, hs] using h
    cases hq : s.queue c with
    | nil =>
      obtain rfl : s = t := by simpa [advanceUnit, State.tickHead_of_empty s c hq, hq] using h
      exact .idle (.inr hq)
    | cons e rest =>
      unfold advanceUnit at h
      rw [State.tickHead_queue_same s c e rest hq] at h
      by_cases hdue : e.elapsed + 1 = e.record.cycleLatency
      · simp only [Entry.due, hdue, decide_true, if_true] at h
        obtain ⟨u, hu, hend⟩ := andThen_eq_next h
        cases hhalt : u.halted with
        | true =>
          obtain rfl : u = t := by simpa [hhalt] using hend
          obtain ⟨info, rfl⟩ := completeEntry_of_halted (by simpa using hs) hu hhalt
          exact .raised e rest info hs hq hdue
        | false =>
          rw [hhalt] at hend
          split at hend
          · contradiction
          · split at hend
            · obtain rfl := Host.Outcome.next.inj hend
              exact .retired e rest u hs hq hdue hu hhalt
            · obtain rfl := Host.Outcome.next.inj hend
              exact .raised e rest _ hs hq hdue
      · obtain rfl : s.tickHead c = t := by simpa [Entry.due, hdue] using h
        exact .ticked e rest hs hq hdue

/-! ### Dispatch -/

/-- The state after an accepted dispatch of `r`: marked, appended, and out of DL (R121, R128). -/
def State.issue (s : State) (r : Record) : State :=
  { s.setQueue r.instr.queueClass (s.queue r.instr.queueClass ++ [s.newEntry r]) with
    busy := s.busy.putAll (markSet r.instr) true
    dl := none }

@[simp] theorem State.issue_cfg (s : State) (r : Record) : (s.issue r).cfg = s.cfg := State.setQueue_cfg ..
@[simp] theorem State.issue_imem (s : State) (r : Record) : (s.issue r).imem = s.imem := State.setQueue_imem ..
@[simp] theorem State.issue_vdm (s : State) (r : Record) : (s.issue r).vdm = s.vdm := State.setQueue_vdm ..
@[simp] theorem State.issue_sdm (s : State) (r : Record) : (s.issue r).sdm = s.sdm := State.setQueue_sdm ..
@[simp] theorem State.issue_sreg (s : State) (r : Record) : (s.issue r).sreg = s.sreg := State.setQueue_sreg ..
@[simp] theorem State.issue_vreg (s : State) (r : Record) : (s.issue r).vreg = s.vreg := State.setQueue_vreg ..
@[simp] theorem State.issue_vlr (s : State) (r : Record) : (s.issue r).vlr = s.vlr := State.setQueue_vlr ..
@[simp] theorem State.issue_pc (s : State) (r : Record) : (s.issue r).pc = s.pc := State.setQueue_pc ..
@[simp] theorem State.issue_cycle (s : State) (r : Record) : (s.issue r).cycle = s.cycle := State.setQueue_cycle ..
@[simp] theorem State.issue_status (s : State) (r : Record) : (s.issue r).status = s.status := State.setQueue_status ..
@[simp] theorem State.issue_fl (s : State) (r : Record) : (s.issue r).fl = s.fl := State.setQueue_fl ..
@[simp] theorem State.issue_dl (s : State) (r : Record) : (s.issue r).dl = none := rfl
@[simp] theorem State.issue_err (s : State) (r : Record) : (s.issue r).err = s.err := State.setQueue_err ..
@[simp] theorem State.issue_halted (s : State) (r : Record) : (s.issue r).halted = s.halted := State.setQueue_halted ..

theorem State.issue_queue_same (s : State) (r : Record) :
    (s.issue r).queue r.instr.queueClass = s.queue r.instr.queueClass ++ [s.newEntry r] :=
  State.setQueue_queue_same ..

theorem State.issue_queue_other (s : State) (r : Record) (c : QueueClass) (h : c ≠ r.instr.queueClass) :
    (s.issue r).queue c = s.queue c :=
  State.setQueue_queue_other _ _ _ _ h

/-- The state in which a branch to `target` has had its effect: FL squashed, `pc` at the target (R230). -/
def State.redirect (s : State) (target : Int) : State := { s with fl := none, pc := target.toNat }

/-- The flows the dispatch phase may answer. -/
inductive DispatchResult (s : State) : Flow → Prop
  | empty (hdl : s.dl = none) : DispatchResult s { state := s, stalled := none, squashed := false }
  | stalled (r : Record) (reason : StallReason) (hdl : s.dl = some r) (hst : s.stallReason r = some reason) :
      DispatchResult s { state := s, stalled := some reason, squashed := false }
  | issued (r : Record) (hdl : s.dl = some r) (hst : s.stallReason r = none) (hb : r.instr.mnemonic ≠ .b) :
      DispatchResult s { state := s.issue r, stalled := none, squashed := false }
  | badTarget (r : Record) (off : Int) (hdl : s.dl = some r) (hst : s.stallReason r = none) (hb : r.instr = .b off)
      (hbad : legalTarget ((r.p : Int) + off) = false) :
      DispatchResult s
        { state := s.raise (branchTargetFault r.p ((r.p : Int) + off)), stalled := none, squashed := false }
  | branched (r : Record) (off : Int) (hdl : s.dl = some r) (hst : s.stallReason r = none) (hb : r.instr = .b off)
      (hok : legalTarget ((r.p : Int) + off) = true) :
      DispatchResult s
        { state := (s.redirect ((r.p : Int) + off)).issue r, stalled := none, squashed := true }

/-- A record that need not stall has its marked registers free and room in its queue (R126, R128). -/
theorem State.stallReason_eq_none {s : State} {r : Record} (h : s.stallReason r = none) :
    (∀ x ∈ markSet r.instr, s.busy.get x = false) ∧ (s.queue r.instr.queueClass).length < s.cap r.instr.queueClass := by
  rcases s.stallReason_cases r with ⟨h', -⟩ | ⟨h', -, -⟩ | ⟨-, hfree, hroom⟩
  · simp [h] at h'
  · simp [h] at h'
  · exact ⟨fun x hx => hfree x (List.mem_append_left _ hx), hroom⟩

theorem eq_b_of_mnemonic {i : Instr} (h : i.mnemonic = .b) : ∃ off, i = .b off := by
  cases i with
  | b off => exact ⟨off, rfl⟩
  | _ => simp [Instr.mnemonic] at h

/-- A branch in DL at index `r.p` goes to `r.p + off`, if that is a legal target (R230, R231). -/
theorem exec_b_of_dl {s : State} {r : Record} (off : Int) (hdl : s.dl = some r) :
    exec (.b off) s = if legalTarget ((r.p : Int) + off) then .next (s.redirect ((r.p : Int) + off))
      else .next (s.raise (branchTargetFault r.p ((r.p : Int) + off))) := by
  have hindex : s.latchIndex = r.p := by simp [State.latchIndex, hdl]
  rw [← hindex]
  rfl

/-- The dispatch phase of a core that is not halted answers one of the flows of `DispatchResult` (R128, R230, R231). -/
theorem dispatchResult_of_phase {s : State} {f : Flow} (hs : s.halted = false) (h : dispatchPhase s = .next f) :
    DispatchResult s f := by
  cases hdl : s.dl with
  | none =>
    obtain rfl : { state := s, stalled := none, squashed := false } = f := by simpa [dispatchPhase, hdl] using h
    exact .empty hdl
  | some r =>
    cases hst : s.stallReason r with
    | some reason =>
      obtain rfl : { state := s, stalled := some reason, squashed := false } = f := by
        simpa [dispatchPhase, hdl, hst] using h
      exact .stalled r reason hdl hst
    | none =>
      obtain ⟨hfree, -⟩ := State.stallReason_eq_none hst
      replace h : s.dispatchRecord r = .next f := by simpa [dispatchPhase, hdl, hst] using h
      unfold State.dispatchRecord at h
      split at h
      · next hb =>
        obtain ⟨off, hoff⟩ := eq_b_of_mnemonic hb
        rw [hoff, exec_b_of_dl off hdl] at h
        cases hlegal : legalTarget ((r.p : Int) + off) with
        | true =>
          have hrun : (s.redirect ((r.p : Int) + off)).halted = false := hs
          rw [if_pos hlegal, andThen_next, if_neg (by simp [hrun]), State.enqueue_of_free _ _ (by exact hfree)] at h
          obtain rfl := Host.Outcome.next.inj h
          exact .branched r off hdl hst hoff hlegal
        | false =>
          rw [if_neg (by simp [hlegal]), andThen_next, if_pos (State.raise_halted ..)] at h
          obtain rfl := Host.Outcome.next.inj h
          exact .badTarget r off hdl hst hoff hlegal
      · next hb =>
        rw [State.enqueue_of_free s r hfree] at h
        obtain rfl := Host.Outcome.next.inj h
        exact .issued r hdl hst hb

/-! ### Decode and fetch -/

/-- What the decode phase leaves when it raises nothing: `s` itself, or FL's line decoded into DL (R255). -/
inductive Decoded (s : State) : State → Prop
  | nothing (hfl : s.fl = none) : Decoded s s
  | accepted (f : Fetched) (r : Record) (hfl : s.fl = some f) (hr : decode s.cfg f.p f.toks = .accepted r) :
      Decoded s { s with dl := some r, fl := none }

/-- What decode and fetch may leave: a `DecodeError`, or the decoded state, with or without a fetch (R252, R257). -/
inductive FrontEndResult (s : State) : State → Prop
  | raised (info : ErrorRecord) : FrontEndResult s (s.raise info)
  | unfetched (u : State) (hu : Decoded s u) : FrontEndResult s u
  | fetched (u : State) (toks : Line) (hu : Decoded s u) (hpc : u.pc < u.progLen)
      (hline : Memory.lookup u.imem u.pc = some toks) :
      FrontEndResult s { u with fl := some { p := u.pc, toks := toks }, pc := u.pc + 1 }

theorem frontEndResult_of_decoded {s u : State} (hu : Decoded s u) : FrontEndResult s (fetchPhase u) := by
  unfold fetchPhase
  split
  · next hpc =>
    split
    · next toks hline => exact .fetched u toks hu hpc hline
    · exact .unfetched u hu
  · exact .unfetched u hu

/-- The front end of a core that is not halted leaves one of the states of `FrontEndResult`. -/
theorem frontEndResult {s : State} (hs : s.halted = false) : FrontEndResult s (frontEnd s) := by
  cases hfl : s.fl with
  | none =>
    have hdec : decodePhase s = s := by simp [decodePhase, hfl]
    rw [frontEnd, hdec, if_neg (by simp [hs])]
    exact frontEndResult_of_decoded (.nothing hfl)
  | some f =>
    cases hr : decode s.cfg f.p f.toks with
    | rejected d =>
      have hdec : decodePhase s = s.raise (decodeErrorRecord f.p f.toks d) := by simp [decodePhase, hfl, hr]
      rw [frontEnd, hdec, if_pos (State.raise_halted ..)]
      exact .raised _
    | accepted r =>
      have hdec : decodePhase s = { s with dl := some r, fl := none } := by simp [decodePhase, hfl, hr]
      rw [frontEnd, hdec, if_neg (by simpa [State.halted] using hs)]
      exact frontEndResult_of_decoded (.accepted f r hfl hr)

/-! ### Induction over the phases -/

/-- What holds of `s` before a unit's share, the dispatch phase or the front end, holds after it. -/
structure KeptByPhases (P : State → Prop) : Prop where
  unit : ∀ {c s t}, UnitResult c s t → SameFixed s t → P s → P t
  dispatch : ∀ {s f}, s.halted = false → DispatchResult s f → SameFixed s f.state → P s → P f.state
  frontEnd : ∀ {s t}, s.halted = false → FrontEndResult s t → SameFixed s t → P s → P t

/-- The execute phase is the three units' shares (R253). -/
theorem executePhase_shares {s t : State} (hs : s.halted = false) (h : executePhase s = .next t) :
    ∃ s1 s2, unlessHalted (advanceUnit .vectorCompute) s = .next s1 ∧
      unlessHalted (advanceUnit .vectorData) s1 = .next s2 ∧ unlessHalted (advanceUnit .scalarOps) s2 = .next t := by
  obtain ⟨s1, s2, h1, h2, h3⟩ := executePhase_eq_next h
  exact ⟨s1, s2, by simpa [unlessHalted, hs] using h1, h2, h3⟩

/-- What every unit's share keeps, the execute phase keeps. -/
theorem executePhase_keeps {P : State → Prop} (hunit : ∀ {c s t}, UnitResult c s t → SameFixed s t → P s → P t)
    {s t : State} (hs : s.halted = false) (h : executePhase s = .next t) (hp : P s) : P t := by
  obtain ⟨s1, s2, h1, h2, h3⟩ := executePhase_shares hs h
  have hshare : ∀ {c s t}, unlessHalted (advanceUnit c) s = .next t → P s → P t := fun hshare =>
    hunit (unitResult_of_share hshare) (unlessHalted_advanceUnit_sameFixed hshare)
  exact hshare h3 (hshare h2 (hshare h1 hp))

/-- A cycle ends in a state for which whatever every phase keeps still holds. -/
theorem KeptByPhases.cycle_ends {P : State → Prop} (hP : KeptByPhases P) {s t : State} (hs : s.halted = false)
    (h : runCycle s = .next t) (hp : P s) : ∃ stalled u, P u ∧ t = endCycle stalled u := by
  obtain ⟨s3, hexec, hafter⟩ := andThen_eq_next h
  have hp3 : P s3 := executePhase_keeps hP.unit hs hexec hp
  rcases afterExecute_cases s3 with ⟨-, ht⟩ | ⟨hrun, f, hf, hrest⟩
  · exact ⟨none, s3, hp3, next_unique hafter ht⟩
  · have hresult := dispatchResult_of_phase hrun hf
    have hpf : P f.state := hP.dispatch hrun hresult (dispatchPhase_sameFixed hf) hp3
    rcases hrest with ⟨-, ht⟩ | ⟨hfrun, -, -, ht⟩
    · exact ⟨f.stalled, f.state, hpf, next_unique hafter ht⟩
    · exact ⟨none, _, hP.frontEnd hfrun (frontEndResult hfrun) (frontEnd_sameFixed _) hpf, next_unique hafter ht⟩

/-- What every phase and the end of the cycle keep, every step keeps. -/
theorem KeptByPhases.step {P : State → Prop} (hP : KeptByPhases P) (hend : ∀ stalled s, P s → P (endCycle stalled s))
    {s t : State} (h : step s = .next t) (hp : P s) : P t := by
  rcases step_eq_next h with ⟨-, rfl⟩ | ⟨hs, -, hrun⟩
  · exact hp
  · obtain ⟨stalled, u, hu, rfl⟩ := hP.cycle_ends hs hrun hp
    exact hend stalled u hu

end Sys2Proof.Machine
end

section
/-! PROOFS. What the phases of a cycle leave of the front end, the cycle counter, the queues and the registers, and how the
status changes (`10_state.md` R21 to R39). -/

namespace Sys2Proof.Machine

/-! ### The front end and the counter -/

/-- State `t` has the `pc`, the cycle counter and the latches of `s`. -/
structure SameFront (s t : State) : Prop where
  pc : t.pc = s.pc
  cycle : t.cycle = s.cycle
  fl : t.fl = s.fl
  dl : t.dl = s.dl

theorem SameFront.refl (s : State) : SameFront s s := ⟨rfl, rfl, rfl, rfl⟩

theorem SameFront.trans {s t u : State} (h : SameFront s t) (h' : SameFront t u) : SameFront s u :=
  ⟨h'.pc.trans h.pc, h'.cycle.trans h.cycle, h'.fl.trans h.fl, h'.dl.trans h.dl⟩

theorem State.tickHead_sameFront (s : State) (c : QueueClass) : SameFront s (s.tickHead c) :=
  ⟨s.tickHead_pc c, s.tickHead_cycle c, s.tickHead_fl c, s.tickHead_dl c⟩

theorem State.retireHead_sameFront (s : State) (c : QueueClass) (r : Record) : SameFront s (s.retireHead c r) :=
  ⟨s.retireHead_pc c r, s.retireHead_cycle c r, s.retireHead_fl c r, s.retireHead_dl c r⟩

/-- Each effect changes its own part of the state only. -/
structure Effect.Frame (e : Effect) (s t : State) : Prop where
  front : e ≠ .branch → SameFront s t
  sreg : (∀ d, e ≠ .scalar d) → t.sreg = s.sreg
  vreg : (∀ d, e ≠ .lanes d) → t.vreg = s.vreg
  vlr : e ≠ .length → t.vlr = s.vlr
  vdm : e ≠ .store → t.vdm = s.vdm

theorem Effect.frame {e : Effect} {s t : State} (h : e.holds s t) : e.Frame s t := by
  cases e with
  | lanes d =>
    obtain ⟨act, f, rfl⟩ := h
    exact ⟨fun _ => ⟨rfl, rfl, rfl, rfl⟩, fun _ => rfl, fun hd => absurd rfl (hd d), fun _ => rfl, fun _ => rfl⟩
  | store =>
    obtain ⟨act, addr, val, rfl⟩ := h
    exact ⟨fun _ => ⟨rfl, rfl, rfl, rfl⟩, fun _ => rfl, fun _ => rfl, fun _ => rfl, fun hne => absurd rfl hne⟩
  | scalar d =>
    obtain ⟨v, rfl⟩ := h
    exact ⟨fun _ => ⟨rfl, rfl, rfl, rfl⟩, fun hd => absurd rfl (hd d), fun _ => rfl, fun _ => rfl, fun _ => rfl⟩
  | length =>
    obtain ⟨v, rfl⟩ := h
    exact ⟨fun _ => ⟨rfl, rfl, rfl, rfl⟩, fun _ => rfl, fun _ => rfl, fun hne => absurd rfl hne, fun _ => rfl⟩
  | branch =>
    obtain ⟨pc, rfl⟩ := h
    exact ⟨fun hne => absurd rfl hne, fun _ => rfl, fun _ => rfl, fun _ => rfl, fun _ => rfl⟩
  | error =>
    obtain ⟨info, rfl, -⟩ := h
    exact ⟨fun _ => ⟨rfl, rfl, rfl, rfl⟩, fun _ => rfl, fun _ => rfl, fun _ => rfl, fun _ => rfl⟩

theorem effectOf_ne_branch {i : Instr} (h : i.mnemonic ≠ .b) : effectOf i ≠ .branch := by
  cases i with
  | b off => exact absurd rfl h
  | _ => simp [effectOf]

/-- A completion does not touch the front end: a branch has had its effect at dispatch (R224). -/
theorem completeEntry_sameFront {e : Entry} {s u : State} (h : completeEntry e s = .next u) (hrun : u.halted = false) :
    SameFront s u := by
  rcases completeEntry_of_running h hrun with ⟨hb, heff⟩ | ⟨-, rfl⟩
  · exact (Effect.frame heff).front (effectOf_ne_branch hb)
  · exact .refl _

theorem UnitResult.sameFront {c : QueueClass} {s t : State} (h : UnitResult c s t) : SameFront s t := by
  have htick := s.tickHead_sameFront c
  cases h with
  | idle => exact .refl s
  | ticked => exact htick
  | raised => exact htick.trans ⟨rfl, rfl, rfl, rfl⟩
  | retired e rest u hs hq hdue hu hrun =>
    exact (htick.trans (completeEntry_sameFront hu hrun)).trans (u.retireHead_sameFront c e.record)

theorem executePhase_sameFront {s t : State} (hs : s.halted = false) (h : executePhase s = .next t) : SameFront s t :=
  executePhase_keeps (fun hunit _ hp => hp.trans hunit.sameFront) hs h (.refl s)

theorem DispatchResult.cycle {s : State} {f : Flow} (h : DispatchResult s f) : f.state.cycle = s.cycle := by
  cases h with
  | empty => rfl
  | stalled => rfl
  | issued r => exact s.issue_cycle r
  | badTarget => rfl
  | branched r off => exact (s.redirect _).issue_cycle r

/-- Decode changes the two latches only. -/
theorem Decoded.frame {s u : State} (h : Decoded s u) : u = { s with fl := u.fl, dl := u.dl } := by
  cases h <;> rfl

/-- Decode empties FL. -/
theorem Decoded.fl_eq_none {s u : State} (h : Decoded s u) : u.fl = none := by
  cases h with
  | nothing hfl => exact hfl
  | accepted => rfl

theorem FrontEndResult.cycle {s t : State} (h : FrontEndResult s t) : t.cycle = s.cycle := by
  cases h with
  | raised info => rfl
  | unfetched _ hu => rw [hu.frame]
  | fetched u toks hu => rw [hu.frame]

/-- How a step may move the front end: `pc` stays and FL gains nothing, or fetch reads the line at `pc`, or the branch in DL
moves `pc` to its target and empties FL. -/
inductive FrontMove (s t : State) : Prop
  | kept (hpc : t.pc = s.pc) (hfl : t.fl = s.fl ∨ t.fl = none)
  | fetched (toks : Line) (hlt : s.pc < s.progLen) (hline : Memory.lookup s.imem s.pc = some toks) (hpc : t.pc = s.pc + 1)
      (hfl : t.fl = some { p := s.pc, toks := toks })
  | branched (r : Record) (off : Int) (hdl : s.dl = some r) (hb : r.instr = .b off)
      (hok : legalTarget ((r.p : Int) + off) = true) (hpc : t.pc = ((r.p : Int) + off).toNat) (hfl : t.fl = none)

theorem DispatchResult.frontMove {s : State} {f : Flow} (h : DispatchResult s f) : FrontMove s f.state := by
  cases h with
  | empty => exact .kept rfl (.inl rfl)
  | stalled => exact .kept rfl (.inl rfl)
  | issued r => exact .kept (s.issue_pc r) (.inl (s.issue_fl r))
  | badTarget => exact .kept rfl (.inl rfl)
  | branched r off hdl hst hb hok =>
    exact .branched r off hdl hb hok (State.issue_pc _ r) (State.issue_fl _ r)

/-- Unless a branch squashes it, the front end sees the `pc` and FL that dispatch saw. -/
theorem DispatchResult.sameFetch {s : State} {f : Flow} (h : DispatchResult s f) (hsq : f.squashed = false) :
    f.state.pc = s.pc ∧ f.state.fl = s.fl ∧ f.state.imem = s.imem := by
  cases h with
  | empty => exact ⟨rfl, rfl, rfl⟩
  | stalled => exact ⟨rfl, rfl, rfl⟩
  | issued r => exact ⟨s.issue_pc r, s.issue_fl r, s.issue_imem r⟩
  | badTarget => exact ⟨rfl, rfl, rfl⟩
  | branched => cases hsq

/-- The front end leaves `pc` and does not fill FL, or fetches the line at `pc`. -/
theorem FrontEndResult.fetch_or_not {s t : State} (h : FrontEndResult s t) :
    (t.pc = s.pc ∧ (t.fl = s.fl ∨ t.fl = none)) ∨
      ∃ toks, s.pc < s.progLen ∧ Memory.lookup s.imem s.pc = some toks ∧ t.pc = s.pc + 1 ∧
        t.fl = some { p := s.pc, toks := toks } := by
  cases h with
  | raised info => exact .inl ⟨rfl, .inl rfl⟩
  | unfetched _ hu => exact .inl ⟨by rw [hu.frame], .inr hu.fl_eq_none⟩
  | fetched u toks hu hpc hline =>
    rw [hu.frame] at hpc hline ⊢
    exact .inr ⟨toks, hpc, hline, rfl, rfl⟩

theorem State.progLen_congr {s t : State} (h : t.imem = s.imem) : t.progLen = s.progLen := by
  rw [State.progLen, State.progLen, h]

/-- A move may be read from any states with the same front end and the same program. -/
theorem FrontMove.congr {s s' t t' : State} (h : FrontMove s' t) (hs : SameFront s s') (himem : s'.imem = s.imem)
    (hpc : t'.pc = t.pc) (hfl : t'.fl = t.fl) : FrontMove s t' := by
  cases h with
  | kept hpc' hfl' => exact .kept (by rw [hpc, hpc', hs.pc]) (by rw [hfl, ← hs.fl]; exact hfl')
  | fetched toks hlt hline hpc' hfl' =>
    rw [State.progLen_congr himem, hs.pc] at hlt
    rw [himem, hs.pc] at hline
    exact .fetched toks hlt hline (by rw [hpc, hpc', hs.pc]) (by rw [hfl, hfl', hs.pc])
  | branched r off hdl hb hok hpc' hfl' =>
    exact .branched r off (hs.dl ▸ hdl) hb hok (hpc.trans hpc') (hfl.trans hfl')

theorem endCycle_pc (stalled : Option StallReason) (s : State) : (endCycle stalled s).pc = s.pc := by
  rw [endCycle_frame]

theorem endCycle_fl (stalled : Option StallReason) (s : State) : (endCycle stalled s).fl = s.fl := by
  rw [endCycle_frame]

theorem afterExecute_frontMove {s t : State} (h : afterExecute s = .next t) : FrontMove s t := by
  have hend : ∀ {stalled u}, t = endCycle stalled u → FrontMove s u → FrontMove s t := by
    rintro stalled u rfl hmove
    exact hmove.congr (.refl s) rfl (endCycle_pc _ _) (endCycle_fl _ _)
  rcases afterExecute_cases s with ⟨-, ht⟩ | ⟨hrun, f, hf, ⟨-, ht⟩ | ⟨hfrun, -, hsq, ht⟩⟩
  · exact hend (next_unique h ht) (.kept rfl (.inl rfl))
  · exact hend (next_unique h ht) (dispatchResult_of_phase hrun hf).frontMove
  · obtain ⟨hpc, hfl, himem⟩ := (dispatchResult_of_phase hrun hf).sameFetch hsq
    refine hend (next_unique h ht) ?_
    rcases (frontEndResult hfrun).fetch_or_not with ⟨hpc', hfl'⟩ | ⟨toks, hlt, hline, hpc', hfl'⟩
    · exact .kept (hpc'.trans hpc) (by rwa [hfl] at hfl')
    · rw [State.progLen_congr himem, hpc] at hlt
      rw [himem, hpc] at hline
      exact .fetched toks hlt hline (by rw [hpc', hpc]) (by rw [hfl', hpc])

/-- Every step moves the front end as `FrontMove` says (R31, R230, R257). -/
theorem step_frontMove {s t : State} (h : step s = .next t) : FrontMove s t := by
  rcases step_eq_next h with ⟨-, rfl⟩ | ⟨hs, -, hrun⟩
  · exact .kept rfl (.inl rfl)
  · obtain ⟨s1, hexec, hafter⟩ := andThen_eq_next hrun
    exact (afterExecute_frontMove hafter).congr (executePhase_sameFront hs hexec) (executePhase_sameFixed hs hexec).imem
      rfl rfl

theorem legalTarget_iff (v : Int) : legalTarget v = true ↔ 0 ≤ v ∧ v ≤ (imemSize : Int) :=
  decide_eq_true_iff

/-- The cycle counter stands still until the end of the cycle (R32). -/
theorem keptByPhases_cycle (n : Nat) : KeptByPhases fun s => s.cycle = n where
  unit hresult _ hp := hresult.sameFront.cycle.trans hp
  dispatch _ hresult _ hp := hresult.cycle.trans hp
  frontEnd _ hresult _ hp := hresult.cycle.trans hp

/-- Settles O31: no phase counts, and the end of the cycle adds 1. -/
theorem everyRunningCycleIsCounted : Obligations.EveryRunningCycleIsCounted := by
  intro s t h
  refine ⟨fun hs => ?_, fun hs => ?_⟩
  · rcases step_eq_next h with ⟨hhalt, -⟩ | ⟨-, -, hrun⟩
    · simp [hs] at hhalt
    · obtain ⟨stalled, u, hu, rfl⟩ := (keptByPhases_cycle s.cycle).cycle_ends hs hrun rfl
      rw [endCycle_cycle, hu]
  · rw [next_unique h (step_halted s hs)]

/-- Settles O33, by the three ways a step may move the front end. -/
theorem pcChangesByFetchOrBranchOnly : Obligations.PcChangesByFetchOrBranchOnly := by
  intro s t h
  cases step_frontMove h with
  | kept hpc hfl =>
    refine ⟨.inl hpc, fun f hf hnew => ?_⟩
    rcases hfl with hfl | hfl
    · exact absurd (hfl.symm.trans hf) hnew
    · cases hfl.symm.trans hf
  | fetched toks hlt hline hpc hfl =>
    refine ⟨.inr (.inl ⟨hpc, toks, hline, hfl⟩), fun f hf _ => ?_⟩
    obtain rfl : { p := s.pc, toks := toks } = f := Option.some.inj (hfl.symm.trans hf)
    exact ⟨rfl, hline, hpc⟩
  | branched r off hdl hb hok hpc hfl =>
    obtain ⟨hlo, -⟩ := (legalTarget_iff _).1 hok
    refine ⟨.inr (.inr ⟨r, off, hdl, hb, by rw [hpc, Int.toNat_of_nonneg hlo]⟩), fun f hf _ => ?_⟩
    cases hfl.symm.trans hf

end Sys2Proof.Machine
end

section
/-! PROOFS. What the phases of a cycle make of the queues, and the invariants of latches, entries and timers
(`10_state.md` R34 to R37, `40_dispatch_scoreboard.md` R131, R132). -/

namespace Sys2Proof.Machine

/-! ### Queues, phase by phase -/

theorem SameControl.queue {s t : State} (h : SameControl s t) (c : QueueClass) : t.queue c = s.queue c := by
  cases c with
  | vectorCompute => exact h.qCompute
  | vectorData => exact h.qData
  | scalarOps => exact h.qScalar

theorem State.raise_queue (s : State) (info : ErrorRecord) (c : QueueClass) : (s.raise info).queue c = s.queue c := by
  cases c <;> rfl

theorem State.redirect_queue (s : State) (target : Int) (c : QueueClass) : (s.redirect target).queue c = s.queue c := by
  cases c <;> rfl

theorem State.cap_congr {s t : State} (h : SameFixed s t) (c : QueueClass) : t.cap c = s.cap c := by
  cases c <;> simp [State.cap, h.cfg]

/-- A completion does not touch the queues. -/
theorem completeEntry_queue {e : Entry} {s u : State} (h : completeEntry e s = .next u) (hrun : u.halted = false)
    (c : QueueClass) : u.queue c = s.queue c := by
  rcases completeEntry_of_running h hrun with ⟨-, heff⟩ | ⟨-, rfl⟩
  · exact (Effect.sameControl heff).queue c
  · rfl

/-- A unit's share leaves the other queues alone (R131). -/
theorem UnitResult.queue_other {c c' : QueueClass} {s t : State} (h : UnitResult c s t) (hc : c' ≠ c) :
    t.queue c' = s.queue c' := by
  have htick := s.tickHead_queue_other c c' hc
  cases h with
  | idle => rfl
  | ticked => exact htick
  | raised e rest info => rw [State.raise_queue, htick]
  | retired e rest u hs hq hdue hu hrun =>
    rw [u.retireHead_queue_other c c' e.record hc, completeEntry_queue hu hrun, htick]

/-- A unit's share of its own queue: nothing, a tick of the head, which is due only if it raised, or the head retired. -/
theorem UnitResult.queue_same {c : QueueClass} {s t : State} (h : UnitResult c s t) :
    t.queue c = s.queue c ∨
      ∃ e rest, s.halted = false ∧ s.queue c = e :: rest ∧
        ((t.queue c = { e with elapsed := e.elapsed + 1 } :: rest ∧
            (t.halted = false → e.elapsed + 1 ≠ e.record.cycleLatency)) ∨
          t.queue c = rest) := by
  cases h with
  | idle => exact .inl rfl
  | ticked e rest hs hq hnot => exact .inr ⟨e, rest, hs, hq, .inl ⟨s.tickHead_queue_same c e rest hq, fun _ => hnot⟩⟩
  | raised e rest info hs hq =>
    refine .inr ⟨e, rest, hs, hq, .inl ⟨?_, fun hrun => ?_⟩⟩
    · rw [State.raise_queue, s.tickHead_queue_same c e rest hq]
    · cases hrun
  | retired e rest u hs hq hdue hu hrun =>
    refine .inr ⟨e, rest, hs, hq, .inr ?_⟩
    rw [u.retireHead_queue_same, completeEntry_queue hu hrun, s.tickHead_queue_same c e rest hq, List.tail_cons]

/-- After a unit's share every entry is an old one, but for its timer. -/
theorem UnitResult.mem_queue {c c' : QueueClass} {s t : State} (h : UnitResult c s t) {e : Entry}
    (he : e ∈ t.queue c') : ∃ e' ∈ s.queue c', ∃ n, e = { e' with elapsed := n } := by
  have old : e ∈ s.queue c' → ∃ e' ∈ s.queue c', ∃ n, e = { e' with elapsed := n } := fun h => ⟨e, h, e.elapsed, rfl⟩
  by_cases hc : c' = c
  · subst hc
    rcases h.queue_same with hsame | ⟨e', rest, -, hq, ⟨htick, -⟩ | hrest⟩
    · exact old (hsame ▸ he)
    · rw [htick] at he
      rcases List.mem_cons.1 he with rfl | he
      · exact ⟨e', hq ▸ List.mem_cons_self, _, rfl⟩
      · exact old (hq ▸ List.mem_cons_of_mem _ he)
    · exact old (hq ▸ List.mem_cons_of_mem _ (hrest ▸ he))
  · exact old (h.queue_other hc ▸ he)

theorem UnitResult.length_queue_le {c c' : QueueClass} {s t : State} (h : UnitResult c s t) :
    (t.queue c').length ≤ (s.queue c').length := by
  by_cases hc : c' = c
  · subst hc
    rcases h.queue_same with hsame | ⟨e', rest, -, hq, ⟨htick, -⟩ | hrest⟩
    · rw [hsame]
    · rw [htick, hq, List.length_cons, List.length_cons]
    · rw [hrest, hq]
      exact Nat.le_succ _
  · rw [h.queue_other hc]

/-- Dispatch leaves a queue alone, or appends the entry of DL's record to the queue of its class, which had room (R128). -/
theorem DispatchResult.queue {s : State} {f : Flow} (h : DispatchResult s f) (c : QueueClass) :
    f.state.queue c = s.queue c ∨
      ∃ r, s.dl = some r ∧ r.instr.queueClass = c ∧ (s.queue c).length < s.cap c ∧
        f.state.queue c = s.queue c ++ [s.newEntry r] := by
  cases h with
  | empty => exact .inl rfl
  | stalled => exact .inl rfl
  | issued r hdl hst =>
    by_cases hc : c = r.instr.queueClass
    · subst hc
      obtain ⟨-, hroom⟩ := State.stallReason_eq_none hst
      exact .inr ⟨r, hdl, rfl, hroom, s.issue_queue_same r⟩
    · exact .inl (s.issue_queue_other r c hc)
  | badTarget => exact .inl (State.raise_queue ..)
  | branched r off hdl hst =>
    have hsame := s.redirect_queue ((r.p : Int) + off)
    by_cases hc : c = r.instr.queueClass
    · subst hc
      obtain ⟨-, hroom⟩ := State.stallReason_eq_none hst
      exact .inr ⟨r, hdl, rfl, hroom, by rw [State.issue_queue_same, hsame]; rfl⟩
    · exact .inl (by rw [State.issue_queue_other _ r c hc, hsame])

theorem FrontEndResult.queue {s t : State} (h : FrontEndResult s t) (c : QueueClass) : t.queue c = s.queue c := by
  cases h with
  | raised info => exact s.raise_queue info c
  | unfetched _ hu => rw [hu.frame]; cases c <;> rfl
  | fetched u toks hu => rw [hu.frame]; cases c <;> rfl

theorem endCycle_queue (stalled : Option StallReason) (s : State) (c : QueueClass) :
    (endCycle stalled s).queue c = s.queue c := by
  rw [endCycle_frame]
  cases c <;> rfl

/-! ### Capacity -/

theorem keptByPhases_queuesBounded : KeptByPhases QueuesBounded where
  unit hresult hfixed hp c := by
    rw [State.cap_congr hfixed]
    exact hresult.length_queue_le.trans (hp c)
  dispatch _ hresult hfixed hp c := by
    rw [State.cap_congr hfixed]
    rcases hresult.queue c with hsame | ⟨r, -, -, hroom, hadd⟩
    · rw [hsame]
      exact hp c
    · rw [hadd, List.length_append]
      exact hroom
  frontEnd _ hresult hfixed hp c := by
    rw [State.cap_congr hfixed, hresult.queue]
    exact hp c

/-- Settles O41: only dispatch makes a queue longer, by one entry, and only when there is room. -/
theorem queuesStayWithinCapacity : Obligations.QueuesStayWithinCapacity := by
  intro s t hp h
  refine keptByPhases_queuesBounded.step (fun stalled u hu c => ?_) h hp
  rw [State.cap_congr (endCycle_sameFixed stalled u), endCycle_queue]
  exact hu c

/-! ### Records of the program -/

theorem FromProgram.congr {s t : State} (h : SameFixed s t) {r : Record} (hr : FromProgram s r) : FromProgram t r := by
  unfold FromProgram
  rw [State.progLen_congr h.imem, h.imem, h.cfg]
  exact hr

theorem EntryOk.congr {s t : State} (h : SameFixed s t) {e : Entry} (he : EntryOk s e) : EntryOk t e := by
  obtain ⟨hprog, hrest⟩ := he
  exact ⟨hprog.congr h, hrest⟩

/-- Every latency of a legal configuration is positive (R7, R313). -/
theorem latency_pos {c : Config} (h : legalConfig c = true) (m : Mnemonic) : 0 < c.latency m := by
  have hall : ∀ n ∈ latencies c.lat, 0 < n := by
    simp only [legalConfig, Bool.and_eq_true, List.all_eq_true, decide_eq_true_eq] at h
    exact h.1.1.1.2
  exact hall _ (by cases m <;> simp [Config.latency, latencies])

theorem FromProgram.cycleLatency_pos {s : State} {r : Record} (hr : FromProgram s r) (hc : legalConfig s.cfg = true) :
    0 < r.cycleLatency := by
  obtain ⟨-, toks, -, hdec⟩ := hr
  unfold decode at hdec
  split at hdec
  · next i _ =>
    have hrec : makeRecord s.cfg r.p i = r := DecodeOutcome.accepted.inj hdec
    calc
      0 < s.cfg.latency i.mnemonic := latency_pos hc _
      _ = r.cycleLatency := congrArg Record.cycleLatency hrec
  · cases hdec

theorem activeLength_le (v : Word) : activeLength v ≤ mvl := by
  have hclamp : clamp v.toInt 0 mvl ≤ mvl := min_le_right _ _
  exact Int.toNat_le.2 hclamp

/-- Dispatch takes exactly the snapshots of the record's class (R125). -/
theorem entryOk_newEntry {s : State} {r : Record} (hr : FromProgram s r) : EntryOk s (s.newEntry r) := by
  refine ⟨hr, ?_, ?_, ?_, fun n hn => ?_⟩
  · cases h : capturesVL r.instr <;> simp [State.newEntry, h]
  · cases h : capturesVLR r.instr <;> simp [State.newEntry, h]
  · cases h : capturesMask r.instr <;> simp [State.newEntry, h]
  · cases h : capturesVL r.instr with
    | true =>
      obtain rfl : activeLength s.vlr = n := by simpa [State.newEntry, h] using hn
      exact activeLength_le s.vlr
    | false => simp [State.newEntry, h] at hn

theorem mem_inFlight (s : State) (e : Entry) : e ∈ s.inFlight ↔ ∃ c, e ∈ s.queue c := by
  simp only [State.inFlight, List.mem_append]
  constructor
  · rintro ((h | h) | h)
    · exact ⟨.vectorCompute, h⟩
    · exact ⟨.vectorData, h⟩
    · exact ⟨.scalarOps, h⟩
  · rintro ⟨c, h⟩
    cases c with
    | vectorCompute => exact .inl (.inl h)
    | vectorData => exact .inl (.inr h)
    | scalarOps => exact .inr h

/-- After dispatch every entry is an old one, or the entry of DL's record in the queue of its class. -/
theorem DispatchResult.mem_queue {s : State} {f : Flow} (h : DispatchResult s f) {c : QueueClass} {e : Entry}
    (he : e ∈ f.state.queue c) :
    e ∈ s.queue c ∨ ∃ r, s.dl = some r ∧ r.instr.queueClass = c ∧ e = s.newEntry r := by
  rcases h.queue c with hsame | ⟨r, hdl, hc, -, hadd⟩
  · exact .inl (hsame ▸ he)
  · rw [hadd, List.mem_append, List.mem_singleton] at he
    exact he.imp_right fun he => ⟨r, hdl, hc, he⟩

/-! ### Queues hold entries of their own class -/

theorem keptByPhases_classesMatch : KeptByPhases ClassesMatch where
  unit hresult _ hp c e he := by
    obtain ⟨e', he', n, rfl⟩ := hresult.mem_queue he
    exact hp c e' he'
  dispatch _ hresult _ hp c e he := by
    rcases hresult.mem_queue he with he | ⟨r, -, hc, rfl⟩
    · exact hp c e he
    · exact hc
  frontEnd _ hresult _ hp c e he := hp c e (hresult.queue c ▸ he)

theorem step_classesMatch {s t : State} (h : step s = .next t) (hp : ClassesMatch s) : ClassesMatch t :=
  keptByPhases_classesMatch.step (fun stalled u hu c e he => hu c e (endCycle_queue stalled u c ▸ he)) h hp

/-! ### Latches -/

theorem LatchesOrdered.congr {s t : State} (h : LatchesOrdered s) (hfixed : SameFixed s t) (hpc : t.pc = s.pc)
    (hfl : t.fl = s.fl) (hdl : t.dl = s.dl) : LatchesOrdered t := by
  obtain ⟨hf, hd⟩ := h
  refine ⟨fun f hf' => ?_, fun r hr => ?_⟩
  · rw [State.progLen_congr hfixed.imem, hfixed.imem, hpc]
    exact hf f (hfl ▸ hf')
  · obtain ⟨hprog, hindex⟩ := hd r (hdl ▸ hr)
    rw [hfl, hpc]
    exact ⟨hprog.congr hfixed, hindex⟩

/-- Latches that an accepted dispatch has left: DL empty, and FL holding nothing new. -/
theorem LatchesOrdered.of_dl_none {s t : State} (h : LatchesOrdered s) (himem : t.imem = s.imem) (hdl : t.dl = none)
    (hfl : t.fl = none ∨ (t.fl = s.fl ∧ t.pc = s.pc)) : LatchesOrdered t := by
  refine ⟨fun f hf => ?_, fun r hr => ?_⟩
  · rcases hfl with hfl | ⟨hfl, hpc⟩
    · cases hfl.symm.trans hf
    · rw [State.progLen_congr himem, himem, hpc]
      exact h.1 f (hfl ▸ hf)
  · cases hdl.symm.trans hr

theorem DispatchResult.latchesOrdered {s : State} {f : Flow} (h : DispatchResult s f) (hfixed : SameFixed s f.state)
    (hp : LatchesOrdered s) : LatchesOrdered f.state := by
  cases h with
  | empty => exact hp
  | stalled => exact hp
  | issued r => exact hp.of_dl_none hfixed.imem rfl (.inr ⟨s.issue_fl r, s.issue_pc r⟩)
  | badTarget => exact hp.congr hfixed rfl rfl rfl
  | branched r => exact hp.of_dl_none hfixed.imem rfl (.inl (State.issue_fl _ r))

/-- Decode makes DL the record of the line just before `pc`. -/
theorem Decoded.latchesOrdered {s u : State} (h : Decoded s u) (hp : LatchesOrdered s) :
    LatchesOrdered u := by
  cases h with
  | nothing => exact hp
  | accepted f r hfl hr =>
    obtain ⟨hindex, hlt, hline⟩ := hp.1 f hfl
    refine ⟨fun f' hf' => (by cases hf'), fun r' hr' => ?_⟩
    obtain rfl : r = r' := Option.some.inj hr'
    have hrp : r.p = f.p := by
      unfold decode at hr
      split at hr
      · exact (congrArg Record.p (DecodeOutcome.accepted.inj hr)).symm
      · cases hr
    rw [FromProgram, hrp]
    exact ⟨⟨hlt, f.toks, hline, hr⟩, hindex⟩

theorem FrontEndResult.latchesOrdered {s t : State} (h : FrontEndResult s t) (hp : LatchesOrdered s) : LatchesOrdered t := by
  cases h with
  | raised info => exact hp.congr (s.raise_sameFixed info) rfl rfl rfl
  | unfetched _ hu => exact hu.latchesOrdered hp
  | fetched u toks hu hpc hline =>
    obtain ⟨-, hd⟩ := hu.latchesOrdered hp
    refine ⟨fun f hf => ?_, fun r hr => ?_⟩
    · obtain rfl := Option.some.inj hf
      exact ⟨rfl, hpc, hline⟩
    · have hr' := hd r hr
      rw [hu.fl_eq_none] at hr'
      exact hr'

theorem keptByPhases_latchesOrdered : KeptByPhases LatchesOrdered where
  unit hresult hfixed hp := hp.congr hfixed hresult.sameFront.pc hresult.sameFront.fl hresult.sameFront.dl
  dispatch _ hresult hfixed hp := hresult.latchesOrdered hfixed hp
  frontEnd _ hresult _ hp := hresult.latchesOrdered hp

theorem endCycle_latchesOrdered (stalled : Option StallReason) (s : State) (h : LatchesOrdered s) :
    LatchesOrdered (endCycle stalled s) :=
  h.congr (endCycle_sameFixed stalled s) (endCycle_pc _ _) (endCycle_fl _ _) (by rw [endCycle_frame])

/-! ### Entries -/

theorem entriesOk_iff (s : State) : EntriesOk s ↔ ∀ c, ∀ e ∈ s.queue c, EntryOk s e := by
  simp only [EntriesOk, mem_inFlight]
  exact ⟨fun h c e he => h e ⟨c, he⟩, fun h e ⟨c, he⟩ => h c e he⟩

theorem UnitResult.entriesOk {c : QueueClass} {s t : State} (h : UnitResult c s t) (hfixed : SameFixed s t)
    (hp : EntriesOk s) : EntriesOk t := by
  refine (entriesOk_iff t).2 fun c' e he => ?_
  obtain ⟨e', he', n, rfl⟩ := h.mem_queue he
  exact EntryOk.congr hfixed ((entriesOk_iff s).1 hp c' e' he')

theorem DispatchResult.entriesOk {s : State} {f : Flow} (h : DispatchResult s f) (hfixed : SameFixed s f.state)
    (hlatch : LatchesOrdered s) (hp : EntriesOk s) : EntriesOk f.state := by
  refine (entriesOk_iff _).2 fun c e he => EntryOk.congr hfixed ?_
  rcases h.mem_queue he with he | ⟨r, hdl, -, rfl⟩
  · exact (entriesOk_iff s).1 hp c e he
  · obtain ⟨hprog, -⟩ := hlatch.2 r hdl
    exact entryOk_newEntry hprog

theorem EntriesOk.of_same_queues {s t : State} (hp : EntriesOk s) (hfixed : SameFixed s t)
    (hq : ∀ c, t.queue c = s.queue c) : EntriesOk t :=
  (entriesOk_iff t).2 fun c e he => EntryOk.congr hfixed ((entriesOk_iff s).1 hp c e (hq c ▸ he))

/-! ### Timers -/

theorem TimersOk.of_same_queues {s t : State} (hp : TimersOk s) (hrun : t.halted = false → s.halted = false)
    (hq : ∀ c, t.queue c = s.queue c) : TimersOk t := by
  intro c
  obtain ⟨htail, hhead⟩ := hp c
  rw [hq c]
  refine ⟨htail, fun e he => ?_⟩
  obtain ⟨hle, hlt⟩ := hhead e he
  exact ⟨hle, fun hr => hlt (hrun hr)⟩

/-- A unit's share resumes no halted core. -/
theorem UnitResult.running {c : QueueClass} {s t : State} (h : UnitResult c s t) (ht : t.halted = false) :
    s.halted = false := by
  cases h with
  | idle => exact ht
  | ticked e rest hs => exact hs
  | raised e rest info hs => exact hs
  | retired e rest u hs => exact hs

/-- The timers of one unit after its share: the head has run one cycle more, or the next entry, untouched so far, is the
head. -/
theorem UnitResult.timersOk {c : QueueClass} {s t : State} (h : UnitResult c s t) (hc : legalConfig s.cfg = true)
    (hentries : EntriesOk s) (hp : TimersOk s) : TimersOk t := by
  intro c'
  obtain ⟨htail, hhead⟩ := hp c'
  have same : t.queue c' = s.queue c' → (∀ e ∈ (t.queue c').tail, e.elapsed = 0) ∧
      ∀ e, (t.queue c').head? = some e →
        e.elapsed ≤ e.record.cycleLatency ∧ (t.halted = false → e.elapsed < e.record.cycleLatency) := by
    intro hq
    rw [hq]
    exact ⟨htail, fun e he => (hhead e he).imp_right fun hlt hr => hlt (h.running hr)⟩
  by_cases hcc : c' = c
  · subst hcc
    rcases h.queue_same with hq | ⟨e, rest, hs, hq, ⟨htick, hnot⟩ | hrest⟩
    · exact same hq
    · rw [hq] at htail hhead
      obtain ⟨-, hlt⟩ := hhead e rfl
      have hlt := hlt hs
      rw [htick]
      refine ⟨htail, fun e' he' => ?_⟩
      obtain rfl := Option.some.inj he'
      exact ⟨hlt, fun hr => lt_of_le_of_ne hlt (hnot hr)⟩
    · rw [hq] at htail
      rw [hrest]
      refine ⟨fun e' he' => htail e' (List.mem_of_mem_tail he'), fun e' he' => ?_⟩
      have hmem : e' ∈ rest := List.mem_of_mem_head? he'
      obtain ⟨hprog, -⟩ := (entriesOk_iff s).1 hentries c' e' (hq ▸ List.mem_cons_of_mem _ hmem)
      rw [htail e' hmem]
      exact ⟨Nat.zero_le _, fun _ => hprog.cycleLatency_pos hc⟩
  · exact same (h.queue_other hcc)

/-- A new entry's timer has not run, whether it stands behind others or is the head (R128, R131). -/
theorem DispatchResult.timersOk {s : State} {f : Flow} (h : DispatchResult s f) (hs : s.halted = false)
    (hc : legalConfig s.cfg = true) (hlatch : LatchesOrdered s) (hp : TimersOk s) : TimersOk f.state := by
  intro c
  obtain ⟨htail, hhead⟩ := hp c
  rcases h.queue c with hq | ⟨r, hdl, -, -, hadd⟩
  · rw [hq]
    exact ⟨htail, fun e he => (hhead e he).imp_right fun hlt _ => hlt hs⟩
  · obtain ⟨hprog, -⟩ := hlatch.2 r hdl
    have hnew : (s.newEntry r).elapsed < (s.newEntry r).record.cycleLatency := hprog.cycleLatency_pos hc
    rw [hadd]
    cases hq : s.queue c with
    | nil =>
      refine ⟨fun e he => (by cases he), fun e he => ?_⟩
      obtain rfl := Option.some.inj he
      exact ⟨hnew.le, fun _ => hnew⟩
    | cons e rest =>
      rw [hq] at htail hhead
      refine ⟨fun e' he' => ?_, fun e' he' => (hhead e' he').imp_right fun hlt _ => hlt hs⟩
      rcases List.mem_append.1 he' with he' | he'
      · exact htail e' he'
      · obtain rfl := List.mem_singleton.1 he'
        rfl

theorem endCycle_running {stalled : Option StallReason} {s : State} (h : (endCycle stalled s).halted = false) :
    s.halted = false := by
  cases hs : s.halted with
  | false => rfl
  | true =>
    have hsame : endCycle stalled s = { s with cycle := s.cycle + 1 } := if_pos hs
    rw [hsame] at h
    exact hs.symm.trans h

/-- Latches, entries and timers as the rules say, with a legal configuration: what each phase needs of the one before. -/
structure PipelineOk (s : State) : Prop where
  config : legalConfig s.cfg = true
  latches : LatchesOrdered s
  entries : EntriesOk s
  timers : TimersOk s

theorem keptByPhases_pipelineOk : KeptByPhases PipelineOk where
  unit hresult hfixed hp :=
    { config := hfixed.cfg ▸ hp.config
      latches := keptByPhases_latchesOrdered.unit hresult hfixed hp.latches
      entries := hresult.entriesOk hfixed hp.entries
      timers := hresult.timersOk hp.config hp.entries hp.timers }
  dispatch hs hresult hfixed hp :=
    { config := hfixed.cfg ▸ hp.config
      latches := hresult.latchesOrdered hfixed hp.latches
      entries := hresult.entriesOk hfixed hp.latches hp.entries
      timers := hresult.timersOk hs hp.config hp.latches hp.timers }
  frontEnd hs hresult hfixed hp :=
    { config := hfixed.cfg ▸ hp.config
      latches := hresult.latchesOrdered hp.latches
      entries := hp.entries.of_same_queues hfixed hresult.queue
      timers := hp.timers.of_same_queues (fun _ => hs) hresult.queue }

theorem endCycle_pipelineOk (stalled : Option StallReason) (s : State) (hp : PipelineOk s) :
    PipelineOk (endCycle stalled s) :=
  have hfixed := endCycle_sameFixed stalled s
  { config := hfixed.cfg ▸ hp.config
    latches := endCycle_latchesOrdered stalled s hp.latches
    entries := hp.entries.of_same_queues hfixed (endCycle_queue stalled s)
    timers := hp.timers.of_same_queues endCycle_running (endCycle_queue stalled s) }

/-- Settles O42: each phase of a cycle keeps the queues' classes, and keeps latches, entries and timers together. -/
theorem latchesEntriesAndTimersStayConsistent : Obligations.LatchesEntriesAndTimersStayConsistent := by
  intro s t hc hclasses hlatch hentries htimers h
  obtain ⟨-, hlatch', hentries', htimers'⟩ :=
    keptByPhases_pipelineOk.step endCycle_pipelineOk h ⟨hc, hlatch, hentries, htimers⟩
  exact ⟨step_classesMatch h hclasses, hlatch', hentries', htimers'⟩

end Sys2Proof.Machine
end

section
/-! PROOFS. Which unit changes a register, and the instruction that does (`10_state.md` R21, R23, R26, R27). -/

namespace Sys2Proof.Machine

/-! ### What the instructions write -/

/-- A meaning has the effect of its instruction, or raises. -/
theorem exec_eq_next {i : Instr} {s u : State} (h : exec i s = .next u) :
    ∃ e, (e = effectOf i ∨ e = .error) ∧ e.holds s u := by
  obtain ⟨v, hv, heff⟩ := exec_effect i s
  obtain rfl := next_unique h hv
  rcases heff with heff | heff
  · exact ⟨_, .inl rfl, heff⟩
  · exact ⟨_, .inr rfl, heff⟩

theorem effectOf_eq_scalar_iff {i : Instr} {d : SReg} : effectOf i = .scalar d ↔ i = .pop d ∨ i = .mfcl d := by
  cases i <;> simp [effectOf]

theorem effectOf_eq_length_iff {i : Instr} : effectOf i = .length ↔ ∃ r, i = .mtcl r := by
  cases i <;> simp [effectOf]

/-- A scalar register changes by `POP` and `MFCL` only (R21). -/
theorem exec_changes_scalar {i : Instr} {s u : State} {j : SReg} (h : exec i s = .next u) (hne : u.readS j ≠ s.readS j) :
    i = .pop j ∨ i = .mfcl j := by
  obtain ⟨e, he, heff⟩ := exec_eq_next h
  by_cases hd : ∃ d, e = .scalar d
  · obtain ⟨d, rfl⟩ := hd
    obtain ⟨v, rfl⟩ := heff
    obtain rfl : j = d := by_contra fun hj => hne (State.readS_writeS_other s d j v hj)
    rcases he with he | he
    · exact effectOf_eq_scalar_iff.1 he.symm
    · cases he
  · have hsreg := (Effect.frame heff).sreg fun d hd' => hd ⟨d, hd'⟩
    exact absurd (by rw [State.readS, State.readS, hsreg]) hne

/-- VLR changes by `MTCL` only, to its scalar register (R26, R27). -/
theorem exec_changes_length {i : Instr} {s u : State} (h : exec i s = .next u) (hne : u.vlr ≠ s.vlr) :
    ∃ r, i = .mtcl r ∧ u.vlr = s.readS r := by
  obtain ⟨e, he, heff⟩ := exec_eq_next h
  obtain rfl : e = .length := by_contra fun hlen => hne ((Effect.frame heff).vlr hlen)
  rcases he with he | he
  · obtain ⟨r, rfl⟩ := effectOf_eq_length_iff.1 he.symm
    obtain rfl : s.writeVlr (s.readS r) = u := Host.Outcome.next.inj h
    exact ⟨r, rfl, rfl⟩
  · cases he

/-- Lane `l` of `V[r]` changes by a write of lanes only when the write is to `V[r]` and `l` is one of them. -/
theorem State.writeLanes_changes {s : State} {d r : VReg} {act : Fin 64 → Bool} {f : Fin 64 → Word} {l : Fin 64}
    (hne : (s.writeLanes d act f).lane r l ≠ s.lane r l) : d = r ∧ act l = true := by
  by_cases hd : r = d
  · subst hd
    rw [State.lane_writeLanes_same] at hne
    exact ⟨rfl, by_contra fun hact => hne (if_neg hact)⟩
  · exact absurd (by rw [State.lane, State.lane, State.readV_writeLanes_other s d r act f hd]) hne

theorem computeLanes_changes_lane {m : Mnemonic} {d r : VReg} {op : Fin 64 → LaneResult} {s u : State} {l : Fin 64}
    (h : computeLanes m d op s = .next u) (hne : u.lane r l ≠ s.lane r l) :
    d = r ∧ s.active .vectorCompute l = true := by
  rcases computeLanes_cases m d op s with ⟨k, det, -, hu⟩ | ⟨-, hu⟩
  all_goals obtain rfl := next_unique h hu
  · exact absurd rfl hne
  · exact State.writeLanes_changes hne

theorem loadLanes_changes_lane {m : Mnemonic} {d r : VReg} {addr : Fin 64 → Int} {s u : State} {l : Fin 64}
    (h : loadLanes m d addr s = .next u) (hne : u.lane r l ≠ s.lane r l) :
    d = r ∧ s.active .vectorData l = true := by
  rcases loadLanes_cases m d addr s with ⟨k, a, -, hu⟩ | ⟨-, hu⟩
  all_goals obtain rfl := next_unique h hu
  · exact absurd rfl hne
  · exact State.writeLanes_changes hne

/-- The instructions that write lanes write those of their first vector operand, and are no stores (R88). -/
theorem effectOf_eq_lanes {i : Instr} {d : VReg} (h : effectOf i = .lanes d) :
    i.queueClass ≠ .scalarOps ∧ i.vectorRegs.head? = some d ∧ i.mnemonic ≠ .sv ∧ i.mnemonic ≠ .svws := by
  cases i <;> simp_all [effectOf, Instr.queueClass, Instr.mnemonic, Mnemonic.queueClass, Instr.vectorRegs]

/-- A vector lane changes only as an active lane of the destination (R23). -/
theorem exec_changes_lane {i : Instr} {s u : State} {r : VReg} {l : Fin 64} (h : exec i s = .next u)
    (hne : u.lane r l ≠ s.lane r l) : effectOf i = .lanes r ∧ s.active i.queueClass l = true := by
  obtain ⟨e, he, heff⟩ := exec_eq_next h
  have hlanes : ∃ d, effectOf i = .lanes d := by
    by_contra hno
    have hvreg := (Effect.frame heff).vreg fun d hd => (by
      rcases he with rfl | rfl
      · exact hno ⟨d, hd⟩
      · cases hd)
    exact hne (by rw [State.lane, State.lane, State.readV, State.readV, hvreg])
  cases i with
  | pop | mtcl | mfcl | b | sv | svws => simp [effectOf] at hlanes
  | lv | lvws =>
    obtain ⟨rfl, hact⟩ := loadLanes_changes_lane h hne
    exact ⟨rfl, hact⟩
  | _ =>
    obtain ⟨rfl, hact⟩ := computeLanes_changes_lane h hne
    exact ⟨rfl, hact⟩

/-! ### What a completion writes -/

/-- A completion of an instruction other than `B` runs its meaning. -/
theorem completeEntry_eq_next {e : Entry} {s u : State} (h : completeEntry e s = .next u) :
    u = s ∨ exec e.record.instr s = .next u := by
  unfold completeEntry at h
  split at h
  · exact .inl (Host.Outcome.next.inj h).symm
  · exact .inr h

/-- The registers that instructions write. -/
structure SameRegisters (s t : State) : Prop where
  sreg : t.sreg = s.sreg
  vreg : t.vreg = s.vreg
  vlr : t.vlr = s.vlr

theorem SameRegisters.refl (s : State) : SameRegisters s s := ⟨rfl, rfl, rfl⟩

theorem SameRegisters.trans {s t u : State} (h : SameRegisters s t) (h' : SameRegisters t u) : SameRegisters s u :=
  ⟨h'.sreg.trans h.sreg, h'.vreg.trans h.vreg, h'.vlr.trans h.vlr⟩

theorem SameRegisters.readS_eq {s t : State} (h : SameRegisters s t) (i : SReg) : t.readS i = s.readS i := by
  rw [State.readS, State.readS, h.sreg]

theorem SameRegisters.lane_eq {s t : State} (h : SameRegisters s t) (r : VReg) (l : Fin 64) : t.lane r l = s.lane r l := by
  rw [State.lane, State.lane, State.readV, State.readV, h.vreg]

/-- A unit's share changes no register, but for what the completion of its due head does. -/
theorem UnitResult.registers {c : QueueClass} {s t : State} (h : UnitResult c s t) :
    SameRegisters s t ∨ ∃ e u, HeadDue s c e ∧ exec e.record.instr (s.tickHead c) = .next u ∧ SameRegisters u t := by
  have htick : SameRegisters s (s.tickHead c) := ⟨s.tickHead_sreg c, s.tickHead_vreg c, s.tickHead_vlr c⟩
  cases h with
  | idle => exact .inl (.refl s)
  | ticked => exact .inl htick
  | raised => exact .inl (htick.trans ⟨rfl, rfl, rfl⟩)
  | retired e rest u hs hq hdue hu =>
    have hretire : SameRegisters u (u.retireHead c e.record) :=
      ⟨u.retireHead_sreg c e.record, u.retireHead_vreg c e.record, u.retireHead_vlr c e.record⟩
    rcases completeEntry_eq_next hu with rfl | hexec
    · exact .inl (htick.trans hretire)
    · exact .inr ⟨e, u, ⟨by rw [hq, List.head?_cons], hdue⟩, hexec, hretire⟩

/-! ### Which share changes a register -/

/-- A scalar register changes in the share of the Scalar-Ops unit, whose due head is `POP` or `MFCL` (R21). -/
theorem UnitResult.changes_scalar {c : QueueClass} {s t : State} {i : SReg} (h : UnitResult c s t)
    (hne : t.readS i ≠ s.readS i) : ∃ e, HeadDue s c e ∧ (e.record.instr = .pop i ∨ e.record.instr = .mfcl i) := by
  rcases h.registers with hsame | ⟨e, u, hdue, hexec, hsame⟩
  · exact absurd (hsame.readS_eq i) hne
  · refine ⟨e, hdue, exec_changes_scalar hexec ?_⟩
    rw [← hsame.readS_eq, State.readS, State.readS, State.tickHead_sreg]
    exact hne

/-- VLR changes in the share of a unit whose due head is `MTCL`, to its scalar register (R26). -/
theorem UnitResult.changes_length {c : QueueClass} {s t : State} (h : UnitResult c s t) (hne : t.vlr ≠ s.vlr) :
    ∃ e r, HeadDue s c e ∧ e.record.instr = .mtcl r ∧ t.vlr = s.readS r := by
  rcases h.registers with hsame | ⟨e, u, hdue, hexec, hsame⟩
  · exact absurd hsame.vlr hne
  · obtain ⟨r, hr, hvlr⟩ := exec_changes_length hexec (by rw [← hsame.vlr, State.tickHead_vlr]; exact hne)
    refine ⟨e, r, hdue, hr, ?_⟩
    rw [hsame.vlr, hvlr, State.readS, State.readS, State.tickHead_sreg]

theorem State.active_congr {s t : State} {c : QueueClass} (hq : t.queue c = s.queue c) (hvlr : t.vlr = s.vlr)
    (hvmr : t.vmr = s.vmr) (l : Fin 64) : t.active c l = s.active c l := by
  have hVL : t.snapVL c = s.snapVL c := by rw [State.snapVL, State.snapVL, hq, hvlr]
  have hmask : t.snapMask c = s.snapMask c := by rw [State.snapMask, State.snapMask, hq, hvmr]
  rw [State.active, State.active, hVL, hmask]

/-- A tick changes no snapshot. -/
theorem State.tickHead_active (s : State) (c : QueueClass) (l : Fin 64) : (s.tickHead c).active c l = s.active c l := by
  cases hq : s.queue c with
  | nil => rw [s.tickHead_of_empty c hq]
  | cons e rest =>
    simp [State.active, State.snapVL, State.snapMask, s.tickHead_queue_same c e rest hq, hq]

/-- A lane changes in the share of a unit whose due head writes lanes of that register, and for which it is active (R23). -/
theorem UnitResult.changes_lane {c : QueueClass} {s t : State} {r : VReg} {l : Fin 64} (h : UnitResult c s t)
    (hclass : ∀ e ∈ s.queue c, e.record.instr.queueClass = c) (hne : t.lane r l ≠ s.lane r l) :
    ∃ e, HeadDue s c e ∧ effectOf e.record.instr = .lanes r ∧ s.active c l = true := by
  rcases h.registers with hsame | ⟨e, u, hdue, hexec, hsame⟩
  · exact absurd (hsame.lane_eq r l) hne
  · have hlane : (s.tickHead c).lane r l = s.lane r l := by
      rw [State.lane, State.lane, State.readV, State.readV, State.tickHead_vreg]
    obtain ⟨heff, hact⟩ := exec_changes_lane hexec (r := r) (l := l) (by rw [← hsame.lane_eq, hlane]; exact hne)
    rw [hclass e (List.mem_of_mem_head? hdue.1), State.tickHead_active] at hact
    exact ⟨e, hdue, heff, hact⟩

/-- The two vector units change neither a scalar register nor VLR. -/
theorem UnitResult.vector_keeps {c : QueueClass} {s t : State} (h : UnitResult c s t) (hc : c ≠ .scalarOps)
    (hclass : ∀ e ∈ s.queue c, e.record.instr.queueClass = c) : (∀ i, t.readS i = s.readS i) ∧ t.vlr = s.vlr := by
  refine ⟨fun i => by_contra fun hne => ?_, by_contra fun hne => ?_⟩
  · obtain ⟨e, hdue, hi⟩ := h.changes_scalar hne
    have hce := hclass e (List.mem_of_mem_head? hdue.1)
    rcases hi with hi | hi
    all_goals exact hc (by rw [← hce, hi]; rfl)
  · obtain ⟨e, r, hdue, hi, -⟩ := h.changes_length hne
    have hce := hclass e (List.mem_of_mem_head? hdue.1)
    exact hc (by rw [← hce, hi]; rfl)

/-- The Scalar-Ops unit changes no vector lane. -/
theorem UnitResult.scalar_keeps {s t : State} (h : UnitResult .scalarOps s t)
    (hclass : ∀ e ∈ s.queue .scalarOps, e.record.instr.queueClass = .scalarOps) (r : VReg) (l : Fin 64) :
    t.lane r l = s.lane r l := by
  by_contra hne
  obtain ⟨e, hdue, heff, -⟩ := h.changes_lane hclass hne
  obtain ⟨hvec, -⟩ := effectOf_eq_lanes heff
  exact hvec (hclass e (List.mem_of_mem_head? hdue.1))

/-! ### Which unit changes a register in a step -/

theorem DispatchResult.sameRegisters {s : State} {f : Flow} (h : DispatchResult s f) : SameRegisters s f.state := by
  cases h with
  | empty => exact .refl s
  | stalled => exact .refl s
  | issued r => exact ⟨s.issue_sreg r, s.issue_vreg r, s.issue_vlr r⟩
  | badTarget => exact ⟨rfl, rfl, rfl⟩
  | branched r => exact ⟨State.issue_sreg _ r, State.issue_vreg _ r, State.issue_vlr _ r⟩

theorem FrontEndResult.sameRegisters {s t : State} (h : FrontEndResult s t) : SameRegisters s t := by
  cases h with
  | raised info => exact ⟨rfl, rfl, rfl⟩
  | unfetched _ hu => rw [hu.frame]; exact ⟨rfl, rfl, rfl⟩
  | fetched u toks hu => rw [hu.frame]; exact ⟨rfl, rfl, rfl⟩

theorem endCycle_sameRegisters (stalled : Option StallReason) (s : State) : SameRegisters s (endCycle stalled s) := by
  rw [endCycle_frame]
  exact ⟨rfl, rfl, rfl⟩

/-- After the execute phase no register changes in a cycle. -/
theorem afterExecute_sameRegisters {s t : State} (h : afterExecute s = .next t) : SameRegisters s t := by
  rcases afterExecute_cases s with ⟨-, ht⟩ | ⟨hrun, f, hf, hrest⟩
  · obtain rfl := next_unique h ht
    exact endCycle_sameRegisters _ _
  · have hdispatch := (dispatchResult_of_phase hrun hf).sameRegisters
    rcases hrest with ⟨-, ht⟩ | ⟨hfrun, -, -, ht⟩
    all_goals obtain rfl := next_unique h ht
    · exact hdispatch.trans (endCycle_sameRegisters _ _)
    · exact (hdispatch.trans (frontEndResult hfrun).sameRegisters).trans (endCycle_sameRegisters _ _)

/-- As far as registers go, a step is the three units' shares, one after the other (R253). -/
theorem step_shares {s t : State} (h : step s = .next t) :
    ∃ s1 s2 s3, UnitResult .vectorCompute s s1 ∧ SameFixed s s1 ∧ UnitResult .vectorData s1 s2 ∧
      UnitResult .scalarOps s2 s3 ∧ SameRegisters s3 t := by
  rcases step_eq_next h with ⟨hs, rfl⟩ | ⟨hs, -, hrun⟩
  · exact ⟨t, t, t, .idle (.inl hs), .refl t, .idle (.inl hs), .idle (.inl hs), .refl t⟩
  · obtain ⟨s3, hexec, hafter⟩ := andThen_eq_next hrun
    obtain ⟨s1, s2, h1, h2, h3⟩ := executePhase_shares hs hexec
    exact ⟨s1, s2, s3, unitResult_of_share h1, unlessHalted_advanceUnit_sameFixed h1, unitResult_of_share h2,
      unitResult_of_share h3, afterExecute_sameRegisters hafter⟩

theorem HeadDue.congr {s t : State} {c : QueueClass} {e : Entry} (h : HeadDue t c e) (hq : t.queue c = s.queue c) :
    HeadDue s c e :=
  ⟨hq ▸ h.1, h.2⟩

/-- The Scalar-Ops unit's share starts from the scalar registers, VLR and queue that the step starts from, and ends with
those that the step ends with. -/
theorem step_scalar_share {s t : State} (hclass : ClassesMatch s) (h : step s = .next t) :
    ∃ s2 s3, UnitResult .scalarOps s2 s3 ∧ s2.queue .scalarOps = s.queue .scalarOps ∧ (∀ i, s2.readS i = s.readS i) ∧
      s2.vlr = s.vlr ∧ SameRegisters s3 t := by
  obtain ⟨s1, s2, s3, h1, -, h2, h3, hregs⟩ := step_shares h
  have hdata : s1.queue .vectorData = s.queue .vectorData := h1.queue_other (by decide)
  obtain ⟨hs1, hvlr1⟩ := h1.vector_keeps (by decide) (hclass _)
  obtain ⟨hs2, hvlr2⟩ := h2.vector_keeps (by decide) (hdata ▸ hclass .vectorData)
  exact ⟨s2, s3, h3, (h2.queue_other (by decide)).trans (h1.queue_other (by decide)), fun i => (hs2 i).trans (hs1 i),
    hvlr2.trans hvlr1, hregs⟩

/-- Settles O34: only the Scalar-Ops unit changes a scalar register. -/
theorem scalarRegistersChangeByPopAndMfclOnly : Obligations.ScalarRegistersChangeByPopAndMfclOnly := by
  intro s t i hclass h hne
  obtain ⟨s2, s3, h3, hq, hs, -, hregs⟩ := step_scalar_share hclass h
  obtain ⟨e, hdue, hi⟩ := h3.changes_scalar (i := i) (by rw [hs, ← hregs.readS_eq]; exact hne)
  exact ⟨e, hdue.congr hq, hi⟩

/-- Settles O35: only the Scalar-Ops unit changes VLR. -/
theorem lengthRegisterChangesByMtclOnly : Obligations.LengthRegisterChangesByMtclOnly := by
  refine ⟨fun s t hclass h hne => ?_, fun v => ?_⟩
  · obtain ⟨s2, s3, h3, hq, hs, hvlr, hregs⟩ := step_scalar_share hclass h
    obtain ⟨e, r, hdue, hi, hval⟩ := h3.changes_length (by rw [hvlr, ← hregs.vlr]; exact hne)
    exact ⟨e, r, hdue.congr hq, hi, by rw [hregs.vlr, hval, hs]⟩
  · have hpos : (0 : Int) ≤ min (max v.toInt 0) 64 := le_min (le_max_right _ _) (by decide)
    exact Int.toNat_of_nonneg hpos

/-- Settles O36: only the two vector units change lanes, and only active ones of the head's destination. -/
theorem vectorLanesChangeWhenActiveOnly : Obligations.VectorLanesChangeWhenActiveOnly := by
  intro s t r l hclass h hne
  obtain ⟨s1, s2, s3, h1, hfixed, h2, h3, hregs⟩ := step_shares h
  have hdata : s1.queue .vectorData = s.queue .vectorData := h1.queue_other (by decide)
  have hscalar : s2.queue .scalarOps = s.queue .scalarOps :=
    (h2.queue_other (by decide)).trans (h1.queue_other (by decide))
  rw [hregs.lane_eq, h3.scalar_keeps (hscalar ▸ hclass .scalarOps)] at hne
  by_cases hne1 : s1.lane r l = s.lane r l
  · rw [← hne1] at hne
    obtain ⟨e, hdue, heff, hact⟩ := h2.changes_lane (hdata ▸ hclass .vectorData) hne
    obtain ⟨-, hvlr⟩ := h1.vector_keeps (by decide) (hclass _)
    obtain ⟨-, hdest, hsv, hsvws⟩ := effectOf_eq_lanes heff
    exact ⟨.vectorData, e, by decide, hdue.congr hdata, hdest, hsv, hsvws,
      (State.active_congr hdata hvlr hfixed.vmr l).symm.trans hact⟩
  · obtain ⟨e, hdue, heff, hact⟩ := h1.changes_lane (hclass _) hne1
    obtain ⟨-, hdest, hsv, hsvws⟩ := effectOf_eq_lanes heff
    exact ⟨.vectorCompute, e, by decide, hdue, hdest, hsv, hsvws, hact⟩

end Sys2Proof.Machine
end

section
/-! PROOFS. Status, error record, `pc` range, drained halt and memories, step by step (`10_state.md` R30, R39;
`20_memory.md` R64; `44_pipeline_controller.md` R260). -/

namespace Sys2Proof.Machine

/-! ### Status and error record -/

/-- Status and error record are those of `s`, or an error has been raised. -/
def KeptOrRaised (s t : State) : Prop :=
  (t.status = s.status ∧ t.err = s.err) ∨ (t.status = .haltedError ∧ t.err.isSome = true)

theorem State.raise_keptOrRaised (s : State) (info : ErrorRecord) : KeptOrRaised s (s.raise info) := .inr ⟨rfl, rfl⟩

theorem KeptOrRaised.errorMatchesStatus {s t : State} (h : KeptOrRaised s t) (hp : ErrorMatchesStatus s) :
    ErrorMatchesStatus t := by
  rcases h with ⟨hstatus, herr⟩ | ⟨hstatus, herr⟩
  · rw [ErrorMatchesStatus, hstatus, herr]
    exact hp
  · exact iff_of_true herr hstatus

theorem KeptOrRaised.status_ne_haltedNormal {s t : State} (h : KeptOrRaised s t) (hp : s.status ≠ .haltedNormal) :
    t.status ≠ .haltedNormal := by
  rcases h with ⟨hstatus, -⟩ | ⟨hstatus, -⟩
  · rwa [hstatus]
  · simp [hstatus]

theorem UnitResult.keptOrRaised {c : QueueClass} {s t : State} (h : UnitResult c s t) : KeptOrRaised s t := by
  cases h with
  | idle => exact .inl ⟨rfl, rfl⟩
  | ticked => exact .inl ⟨s.tickHead_status c, s.tickHead_err c⟩
  | raised => exact .inr ⟨rfl, rfl⟩
  | retired e rest u hs hq hdue hu hrun =>
    refine .inl ?_
    rw [State.retireHead_status, State.retireHead_err, ← s.tickHead_status c, ← s.tickHead_err c]
    rcases completeEntry_of_running hu hrun with ⟨-, heff⟩ | ⟨-, rfl⟩
    · exact Effect.sameStatus heff (effectOf_ne_error _)
    · exact ⟨rfl, rfl⟩

theorem DispatchResult.keptOrRaised {s : State} {f : Flow} (h : DispatchResult s f) : KeptOrRaised s f.state := by
  cases h with
  | empty => exact .inl ⟨rfl, rfl⟩
  | stalled => exact .inl ⟨rfl, rfl⟩
  | issued r => exact .inl ⟨s.issue_status r, s.issue_err r⟩
  | badTarget => exact s.raise_keptOrRaised _
  | branched r => exact .inl ⟨State.issue_status _ r, State.issue_err _ r⟩

theorem FrontEndResult.keptOrRaised {s t : State} (h : FrontEndResult s t) : KeptOrRaised s t := by
  cases h with
  | raised info => exact s.raise_keptOrRaised info
  | unfetched _ hu => rw [hu.frame]; exact .inl ⟨rfl, rfl⟩
  | fetched u toks hu => rw [hu.frame]; exact .inl ⟨rfl, rfl⟩

theorem keptByPhases_of_keptOrRaised {P : State → Prop} (hP : ∀ {s t}, KeptOrRaised s t → P s → P t) : KeptByPhases P where
  unit hresult _ := hP hresult.keptOrRaised
  dispatch _ hresult _ := hP hresult.keptOrRaised
  frontEnd _ hresult _ := hP hresult.keptOrRaised

/-- The four ways a cycle ends: halted already, drained, at the cycle limit, or going on (R259). -/
theorem endCycle_cases (stalled : Option StallReason) (s : State) :
    (s.halted = true ∧ (endCycle stalled s).status = s.status ∧ (endCycle stalled s).err = s.err) ∨
      (s.halted = false ∧
        ((s.drained = true ∧ (endCycle stalled s).status = .haltedNormal ∧ (endCycle stalled s).err = s.err) ∨
          ((endCycle stalled s).status = .haltedError ∧ (endCycle stalled s).err = some cycleLimitRecord) ∨
          ((endCycle stalled s).halted = false ∧ (endCycle stalled s).err = s.err))) := by
  have hhalt : ({ s with cycle := s.cycle + 1 } : State).halted = s.halted := rfl
  have hdrain : ({ s with cycle := s.cycle + 1 } : State).drained = s.drained := rfl
  unfold endCycle
  simp only [hhalt, hdrain]
  split
  · next hs => exact .inl ⟨hs, rfl, rfl⟩
  · next hs =>
    refine .inr ⟨by simpa using hs, ?_⟩
    split
    · next hd => exact .inl ⟨hd, rfl, rfl⟩
    · split
      · exact .inr (.inl ⟨rfl, rfl⟩)
      · cases stalled with
        | none => exact .inr (.inr ⟨rfl, rfl⟩)
        | some reason => exact .inr (.inr ⟨rfl, rfl⟩)

theorem State.halted_eq_false_iff (s : State) : s.halted = false ↔ s.status ≠ .haltedNormal ∧ s.status ≠ .haltedError := by
  rw [← Bool.not_eq_true, s.halted_iff, not_or]

/-- A core that is not halted has no error record. -/
theorem ErrorMatchesStatus.err_of_running {s : State} (hp : ErrorMatchesStatus s) (hs : s.halted = false) :
    s.err = none := by
  obtain ⟨-, hne⟩ := s.halted_eq_false_iff.1 hs
  exact Option.not_isSome_iff_eq_none.1 fun herr => hne (hp.1 herr)

theorem endCycle_errorMatchesStatus (stalled : Option StallReason) (s : State) (hp : ErrorMatchesStatus s) :
    ErrorMatchesStatus (endCycle stalled s) := by
  rcases endCycle_cases stalled s with
    ⟨-, hstatus, herr⟩ | ⟨hs, ⟨-, hstatus, herr⟩ | ⟨hstatus, herr⟩ | ⟨hrun, herr⟩⟩
  · exact KeptOrRaised.errorMatchesStatus (.inl ⟨hstatus, herr⟩) hp
  · rw [ErrorMatchesStatus, hstatus, herr, hp.err_of_running hs]
    simp
  · rw [ErrorMatchesStatus, hstatus, herr]
    simp
  · obtain ⟨-, hne⟩ := (State.halted_eq_false_iff _).1 hrun
    rw [ErrorMatchesStatus, herr, hp.err_of_running hs]
    simp [hne]

theorem step_errorMatchesStatus {s t : State} (h : step s = .next t) (hp : ErrorMatchesStatus s) : ErrorMatchesStatus t :=
  (keptByPhases_of_keptOrRaised KeptOrRaised.errorMatchesStatus).step endCycle_errorMatchesStatus h hp

/-! ### A normal halt is a drained one -/

theorem State.drained_endCycle (stalled : Option StallReason) (s : State) : (endCycle stalled s).drained = s.drained := by
  rw [endCycle_frame]
  rfl

/-- Only the end of a cycle halts the core normally, and only when it has drained (R260). -/
theorem step_normalHaltDrained {s t : State} (h : step s = .next t) (hp : NormalHaltDrained s) : NormalHaltDrained t := by
  rcases step_eq_next h with ⟨-, rfl⟩ | ⟨hs, -, hrun⟩
  · exact hp
  · obtain ⟨hne, -⟩ := s.halted_eq_false_iff.1 hs
    obtain ⟨stalled, u, hu, rfl⟩ :=
      (keptByPhases_of_keptOrRaised KeptOrRaised.status_ne_haltedNormal).cycle_ends hs hrun hne
    intro hnormal
    rw [State.drained_endCycle]
    rcases endCycle_cases stalled u with
      ⟨-, hstatus, -⟩ | ⟨-, ⟨hdrained, -, -⟩ | ⟨hstatus, -⟩ | ⟨hgoing, -⟩⟩
    · exact absurd (hstatus.symm.trans hnormal) hu
    · exact hdrained
    · cases hstatus.symm.trans hnormal
    · exact absurd hnormal ((State.halted_eq_false_iff _).1 hgoing).1

/-! ### The range of `pc` -/

theorem firstSentinel_le (imem : InstrMemory) (fuel : Nat) : ∀ k, firstSentinel imem fuel k ≤ k + fuel := by
  induction fuel with
  | zero => exact fun k => le_rfl
  | succ fuel ih =>
    intro k
    unfold firstSentinel
    split
    · exact Nat.le_add_right k _
    · have := ih (k + 1)
      omega

theorem State.progLen_le (s : State) : s.progLen ≤ imemSize := by
  simpa [State.progLen] using firstSentinel_le s.imem imemSize 0

theorem step_pcInRange {s t : State} (h : step s = .next t) (hp : PcInRange s) : PcInRange t := by
  unfold PcInRange at hp ⊢
  cases step_frontMove h with
  | kept hpc => rwa [hpc]
  | fetched toks hlt hline hpc =>
    rw [hpc]
    exact hlt.trans_le s.progLen_le
  | branched r off hdl hb hok hpc =>
    obtain ⟨-, hhi⟩ := (legalTarget_iff _).1 hok
    rw [hpc]
    exact Int.toNat_le.2 hhi

/-! ### The memories -/

/-- VDM is in its canonical form and lists no index outside it (R64; log 4). -/
def VdmOk (s : State) : Prop := Memory.wf s.vdm ∧ ∀ x ∈ s.vdm, x.1 < s.cfg.vdmSize

theorem VdmOk.congr {s t : State} (h : VdmOk s) (hcfg : t.cfg = s.cfg) (hvdm : t.vdm = s.vdm) : VdmOk t := by
  rw [VdmOk, hcfg, hvdm]
  exact h

/-- A store lists only indices that were listed, or that an active lane addresses. -/
theorem forall_mem_storeActive {Q : Nat → Prop} {act : Fin 64 → Bool} {addr : Fin 64 → Int} (val : Fin 64 → Word)
    {m : Memory} (hm : ∀ x ∈ m, Q x.1) (haddr : ∀ l, act l = true → Q (addr l).toNat) :
    ∀ x ∈ storeActive act addr val m, Q x.1 := by
  unfold storeActive
  refine List.foldlRecOn (motive := fun m : Memory => ∀ x ∈ m, Q x.1) _ _ hm fun m hm l _ => ?_
  split
  · next hl =>
    intro x hx
    rcases Memory.mem_write hx with rfl | hx
    · exact haddr l hl
    · exact hm x hx
  · exact hm

/-- A store writes no word outside VDM (R193, R194). -/
theorem storeLanes_vdmOk {m : Mnemonic} {v : VReg} {addr : Fin 64 → Int} {s u : State}
    (h : storeLanes m v addr s = .next u) (hp : VdmOk s) : VdmOk u := by
  obtain ⟨hwf, hsize⟩ := hp
  rcases storeLanes_cases m v addr s with ⟨l, a, -, hu⟩ | ⟨hgood, hu⟩
  all_goals obtain rfl := next_unique h hu
  · exact ⟨hwf, hsize⟩
  · have hin := (s.firstBadAddress_eq_none addr).1 hgood
    have haddr : ∀ l, s.active .vectorData l = true → (addr l).toNat < s.cfg.vdmSize := by
      intro l hl
      obtain ⟨hlo, hhi⟩ : 0 ≤ addr l ∧ addr l < s.cfg.vdmSize := of_decide_eq_true (hin l hl)
      omega
    exact ⟨storeActive_wf _ _ _ _ hwf, forall_mem_storeActive (Q := (· < s.cfg.vdmSize)) _ hsize haddr⟩

theorem exec_vdmOk {i : Instr} {s u : State} (h : exec i s = .next u) (hp : VdmOk s) : VdmOk u := by
  by_cases hstore : effectOf i = .store
  · cases i with
    | sv | svws => exact storeLanes_vdmOk h hp
    | _ => simp [effectOf] at hstore
  · obtain ⟨e, he, heff⟩ := exec_eq_next h
    refine hp.congr (Effect.sameFixed heff).cfg ((Effect.frame heff).vdm ?_)
    rcases he with rfl | rfl
    · exact hstore
    · exact Effect.noConfusion

theorem UnitResult.vdmOk {c : QueueClass} {s t : State} (h : UnitResult c s t) (hp : VdmOk s) : VdmOk t := by
  have htick : VdmOk (s.tickHead c) := hp.congr (s.tickHead_cfg c) (s.tickHead_vdm c)
  cases h with
  | idle => exact hp
  | ticked => exact htick
  | raised => exact htick
  | retired e rest u hs hq hdue hu =>
    have hu' : VdmOk u := by
      rcases completeEntry_eq_next hu with rfl | hexec
      · exact htick
      · exact exec_vdmOk hexec htick
    exact hu'.congr (u.retireHead_cfg c e.record) (u.retireHead_vdm c e.record)

theorem DispatchResult.vdm {s : State} {f : Flow} (h : DispatchResult s f) : f.state.vdm = s.vdm := by
  cases h with
  | empty => rfl
  | stalled => rfl
  | issued r => exact s.issue_vdm r
  | badTarget => rfl
  | branched r => exact State.issue_vdm _ r

theorem FrontEndResult.vdm {s t : State} (h : FrontEndResult s t) : t.vdm = s.vdm := by
  cases h with
  | raised info => rfl
  | unfetched _ hu => rw [hu.frame]
  | fetched u toks hu => rw [hu.frame]

theorem keptByPhases_vdmOk : KeptByPhases VdmOk where
  unit hresult _ hp := hresult.vdmOk hp
  dispatch _ hresult hfixed hp := hp.congr hfixed.cfg hresult.vdm
  frontEnd _ hresult hfixed hp := hp.congr hfixed.cfg hresult.vdm

theorem step_vdmOk {s t : State} (h : step s = .next t) (hp : VdmOk s) : VdmOk t :=
  keptByPhases_vdmOk.step (fun stalled u hu => hu.congr (endCycle_sameFixed stalled u).cfg (by rw [endCycle_frame])) h hp

/-- VDM is the only memory that a step writes. -/
theorem step_memoriesOk {s t : State} (h : step s = .next t) (hp : MemoriesOk s) : MemoriesOk t := by
  obtain ⟨himem, hsize, hvdm, hvdmSize, hsdm, hsdmSize⟩ := hp
  obtain ⟨hcfg, himem', hsdm', -⟩ := step_sameFixed h
  obtain ⟨hvdm', hvdmSize'⟩ := step_vdmOk h ⟨hvdm, hvdmSize⟩
  rw [MemoriesOk, himem', hsdm']
  exact ⟨himem, hsize, hvdm', hvdmSize', hsdm, hcfg ▸ hsdmSize⟩

/-- Settles O43: its four parts are kept independently of each other. -/
theorem statusErrorPcAndMemoriesStayConsistent : Obligations.StatusErrorPcAndMemoriesStayConsistent := fun _ _ h =>
  ⟨step_errorMatchesStatus h, step_pcInRange h, step_normalHaltDrained h, step_memoriesOk h⟩

end Sys2Proof.Machine
end

section
/-! PROOFS. Reset, the host's view, and `MTCL` with the snapshots that follow it (`10_state.md` R27, R33, R41, R42;
`60_exceptions.md` R280, R288). -/

namespace Sys2Proof.Machine

/-! ### Reset -/

/-- Reset depends on nothing but the configuration and the memories it keeps (R41, R311). -/
theorem assertReset_eq_reset {s : State} (himem : s.imem = []) (hvdm : s.vdm = []) (hsdm : s.sdm = [])
    (hcfg : s.cfg = Config.reference) : s.assertReset = State.reset := by
  rw [State.assertReset, himem, hvdm, hsdm, hcfg]
  rfl

theorem assertReset_readS (s : State) (i : SReg) : s.assertReset.readS i = 0 :=
  Vector.getElem_replicate i.isLt

theorem assertReset_lane (s : State) (r : VReg) (l : Fin 64) : s.assertReset.lane r l = 0 := by
  have hreg : s.assertReset.readV r = Vector.replicate 64 0 := Vector.getElem_replicate r.isLt
  rw [State.lane, hreg]
  exact Vector.getElem_replicate l.isLt

theorem assertReset_vmr (s : State) (l : Fin 64) : s.assertReset.vmr[l.val] = 1 :=
  Vector.getElem_replicate l.isLt

/-- Settles O49: the registers lane by lane, the rest by the definition of reset. -/
theorem resetGivesTheTableOfReset : Obligations.ResetGivesTheTableOfReset := by
  intro s
  refine ⟨fun i => ?_, fun r l => ?_, fun l => ?_, by rfl, rfl, rfl, rfl, rfl, rfl, fun c => ?_, Scoreboard.get_free, rfl,
    rfl, rfl, rfl⟩
  · rw [assertReset_readS]
    rfl
  · rw [assertReset_lane]
    rfl
  · rw [assertReset_vmr]
    rfl
  · cases c <;> rfl

/-- Settles O55: `State.reset` is a core with nothing loaded in which reset is asserted. -/
theorem resetStateHasNothingLoaded : Obligations.ResetStateHasNothingLoaded :=
  ⟨rfl, rfl, rfl, rfl, rfl, fun _ => assertReset_eq_reset⟩

/-! ### The host's view -/

theorem exitsZero_isSome (s : State) : (exitsZero s.status).isSome = s.halted := by
  unfold State.halted
  cases s.status <;> rfl

theorem exitsZero_eq_some_true_iff (st : Status) : exitsZero st = some true ↔ st = .haltedNormal := by
  cases st <;> simp [exitsZero]

/-- The register port reads nothing that the view does not show (R42, R78). -/
theorem hostRead_congr {s t : State} (h : hostView s = hostView t) (x : RegName) : hostRead x s = hostRead x t := by
  have hsreg : s.sreg = t.sreg := congrArg HostView.sreg h
  have hvreg : s.vreg = t.vreg := congrArg HostView.vreg h
  have hvmr : s.vmr = t.vmr := congrArg HostView.vmr h
  have hvlr : s.vlr = t.vlr := congrArg HostView.vlr h
  cases x with
  | scalar i => rw [hostRead, hostRead, State.readS, State.readS, hsreg]
  | vector i => rw [hostRead, hostRead, State.readV, State.readV, hvreg]
  | mask => rw [hostRead, hostRead, hvmr]
  | length => rw [hostRead, hostRead, hvlr]

/-- Settles O53: the codes by evaluation, the exit status by the status, the view field by field. -/
theorem hostReadsCodesAndExitStatus : Obligations.HostReadsCodesAndExitStatus :=
  ⟨rfl, rfl, fun s => ⟨exitsZero_isSome s, exitsZero_eq_some_true_iff s.status⟩, fun _ _ h =>
    ⟨hostRead_congr h, congrArg HostView.vdm h, congrArg HostView.sdm h, congrArg HostView.status h,
      congrArg HostView.err h, congrArg HostView.cycle h, congrArg HostView.pc h⟩⟩

/-! ### `MTCL`, and what is captured after it -/

/-- A write of a scalar register writes that register and nothing else. -/
theorem writesScalar_writeS (s : State) (d : SReg) (v : Word) : WritesScalar (.next (s.writeS d v)) s d v.toInt :=
  ⟨s.writeS d v, rfl, rfl, ⟨fun _ => rfl, fun _ => rfl⟩, fun r hr => s.readS_writeS_other d r v hr,
    by rw [State.readS_writeS_same]⟩

/-- `MFCL` at the head of its queue returns the VLR of the state it was dispatched from (R223). -/
theorem exec_mfcl_of_head {t u : State} {rec : Record} {rest : List Entry} {d : SReg} (hi : rec.instr = .mfcl d)
    (hq : u.qScalar = t.newEntry rec :: rest) : exec (.mfcl d) u = .next (u.writeS d t.vlr) := by
  have hsnap : u.snapVLR .scalarOps = t.vlr := by
    simp [State.snapVLR, hq, State.newEntry, capturesVLR, hi, Instr.mnemonic]
  rw [← hsnap]
  rfl

theorem newEntry_snapVL {s : State} {r : Record} (h : capturesVL r.instr = true) :
    (s.newEntry r).snapVL = some (activeLength s.vlr) :=
  if_pos h

/-- Settles O17: `MTCL` leaves VLR raw, `MFCL` captures it raw, and only the active length clamps it. -/
theorem moveToLengthWritesVlrUnchanged : Obligations.MoveToLengthWritesVlrUnchanged := by
  intro s r
  refine ⟨rfl, (mem_markSet _ _).2 (.inr (.inr ⟨rfl, rfl⟩)), rfl, rfl, rfl, fun t rec ht => ?_⟩
  obtain rfl : s.writeVlr (s.readS r) = t := Host.Outcome.next.inj ht
  refine ⟨fun u d rest hi hq => ?_, fun hcap => newEntry_snapVL hcap⟩
  rw [exec_mfcl_of_head hi hq]
  exact writesScalar_writeS u d (s.readS r)

end Sys2Proof.Machine
end

section
/-! PROOFS. The data memories word by word, and the program's length with the fetch of a line (`20_memory.md` R60 to R63,
R69). -/

namespace Sys2Proof.Machine

/-! ### Data memories -/

theorem Memory.mem_of_lookup {α : Type} {m : List (Nat × α)} {a : Nat} {v : α} (h : Memory.lookup m a = some v) :
    (a, v) ∈ m := by
  induction m with
  | nil => cases h
  | cons x rest ih =>
    obtain ⟨k, w⟩ := x
    unfold Memory.lookup at h
    split at h
    · next hk =>
      obtain rfl := Option.some.inj h
      exact hk ▸ List.mem_cons_self
    · exact List.mem_cons_of_mem _ (ih h)

/-- What a canonical memory lists is exactly what reads as something other than the unlisted word (log 4). -/
theorem Memory.mem_iff_read {m : Memory} (hm : Memory.wf m) {a : Nat} {v : Word} :
    (a, v) ∈ m ↔ Memory.read m a = v ∧ v ≠ unlistedWord := by
  obtain ⟨hsorted, hlisted⟩ := hm
  constructor
  · intro hmem
    exact ⟨by rw [Memory.read, Memory.lookup_eq_some_of_mem hsorted hmem, Option.getD_some], hlisted _ hmem⟩
  · rintro ⟨rfl, hne⟩
    unfold Memory.read at hne ⊢
    cases hlook : Memory.lookup m a with
    | none => simp [hlook] at hne
    | some v => exact Memory.mem_of_lookup hlook

/-- Canonical memories that read alike list the same words, in the same order. -/
theorem Memory.eq_of_read_eq {m n : Memory} (hm : Memory.wf m) (hn : Memory.wf n)
    (h : ∀ a, Memory.read m a = Memory.read n a) : m = n := by
  have hasymm : Std.Asymm fun x y : Nat × Word => x.1 < y.1 := ⟨fun _ _ => lt_asymm⟩
  refine List.Pairwise.eq_of_mem_iff hm.1 hn.1 fun ⟨a, v⟩ => ?_
  rw [Memory.mem_iff_read hm, Memory.mem_iff_read hn, h]

/-- Settles O48: read after write by the two cases of the index, and canonical memories by what they list. -/
theorem wordWritesChangeOneWord : Obligations.WordWritesChangeOneWord := by
  refine ⟨fun m a b v => ?_, fun m n => Memory.eq_of_read_eq⟩
  split
  · next hab => rw [hab, Memory.read_write_same]
  · next hab => exact Memory.read_write_other m a b v hab

/-! ### The program's length -/

/-- The search passes over lines only. -/
theorem lookup_of_lt_firstSentinel {imem : InstrMemory} {fuel : Nat} : ∀ {k j : Nat}, k ≤ j →
    j < firstSentinel imem fuel k → ∃ toks, Memory.lookup imem j = some toks := by
  induction fuel with
  | zero => exact fun hkj hj => absurd hj hkj.not_gt
  | succ fuel ih =>
    intro k j hkj hj
    unfold firstSentinel at hj
    split at hj
    · exact absurd hj hkj.not_gt
    · next toks hline =>
      rcases hkj.eq_or_lt with rfl | hlt
      · exact ⟨toks, hline⟩
      · exact ih hlt hj

/-- A search that stops before its fuel runs out stops at a sentinel. -/
theorem lookup_firstSentinel {imem : InstrMemory} {fuel : Nat} : ∀ {k : Nat},
    firstSentinel imem fuel k < k + fuel → Memory.lookup imem (firstSentinel imem fuel k) = none := by
  induction fuel with
  | zero => exact fun h => absurd h (lt_irrefl _)
  | succ fuel ih =>
    intro k
    unfold firstSentinel
    split
    · next hnone => exact fun _ => hnone
    · exact fun h => ih (by omega)

/-- Below `progLen` every entry is a line (R62). -/
theorem State.lookup_of_lt_progLen {s : State} {k : Nat} (h : k < s.progLen) :
    ∃ toks, Memory.lookup s.imem k = some toks :=
  lookup_of_lt_firstSentinel (Nat.zero_le k) h

/-- The entry at `progLen` is the sentinel, if there is one (R62). -/
theorem State.lookup_progLen {s : State} (h : s.progLen < imemSize) : Memory.lookup s.imem s.progLen = none :=
  lookup_firstSentinel (by rwa [Nat.zero_add])

/-- Fetch below `progLen` takes the line at `pc` (R63, R257). -/
theorem fetchPhase_of_line {s : State} {toks : Line} (hpc : s.pc < s.progLen) (hline : Memory.lookup s.imem s.pc = some toks) :
    fetchPhase s = { s with fl := some { p := s.pc, toks := toks }, pc := s.pc + 1 } := by
  rw [fetchPhase, if_pos hpc, hline]

/-- Fetch at or past `progLen` does nothing (R63, R257). -/
theorem fetchPhase_of_end {s : State} (hpc : s.progLen ≤ s.pc) : fetchPhase s = s :=
  if_neg hpc.not_gt

/-- Settles O46, by induction on the search for the first sentinel. -/
theorem programLengthIsTheFirstSentinel : Obligations.ProgramLengthIsTheFirstSentinel := by
  intro s
  refine ⟨s.progLen_le, fun _ => State.lookup_of_lt_progLen, State.lookup_progLen, fun hpc => ?_, fetchPhase_of_end⟩
  obtain ⟨toks, hline⟩ := State.lookup_of_lt_progLen hpc
  exact ⟨toks, hline, fetchPhase_of_line hpc hline⟩

end Sys2Proof.Machine
end

section
/-! PROOFS. The register-file storage port (`20_memory.md` R78). -/

namespace Sys2Proof.Machine

/-! ### The values the port takes -/

theorem lanesOfList_isSome_iff (vals : List Int) :
    (lanesOfList vals).isSome = true ↔ vals.length = 64 ∧ ∀ v ∈ vals, inRange32 v = true := by
  rw [lanesOfList, Option.isSome_ite, List.all_eq_true]

/-- The lanes of a list hold its values. -/
theorem toInt_lanesOfList {vals : List Int} {lanes : Lanes} (h : lanesOfList vals = some lanes) :
    lanes.toList.map BitVec.toInt = vals := by
  unfold lanesOfList at h
  split at h
  · next hok =>
    obtain ⟨hlen, hrange⟩ := hok
    obtain rfl := Option.some.inj h
    refine List.ext_getElem (by simp [hlen]) fun k _ hk => ?_
    have hin : inRange32 vals[k] = true := List.all_eq_true.1 hrange _ (List.getElem_mem hk)
    simp [hk, toInt_ofInt_of_inRange32 hin]
  · cases h

/-- The word of a list of one integer in range, `none` for any other list: what the port writes to a register of one lane. -/
def wordOfList (vals : List Int) : Option Word :=
  match vals with
  | [v] => if inRange32 v then some (BitVec.ofInt 32 v) else none
  | _ => none

theorem wordOfList_isSome_iff (vals : List Int) :
    (wordOfList vals).isSome = true ↔ vals.length = 1 ∧ ∀ v ∈ vals, inRange32 v = true := by
  match vals with
  | [] => simp [wordOfList]
  | [v] => simp [wordOfList]
  | _ :: _ :: _ => simp [wordOfList]

theorem toInt_wordOfList {vals : List Int} {w : Word} (h : wordOfList vals = some w) : [w.toInt] = vals := by
  unfold wordOfList at h
  split at h
  · split at h
    · next hrange =>
      obtain rfl := Option.some.inj h
      rw [toInt_ofInt_of_inRange32 hrange]
    · cases h
  · cases h

/-! ### One equation per register file -/

theorem hostWrite_scalar (i : SReg) (vals : List Int) (s : State) :
    hostWrite (.scalar i) vals s = (wordOfList vals).map (s.writeS i) := by
  match vals with
  | [] => rfl
  | [v] => cases hv : inRange32 v <;> simp [hostWrite, wordOfList, hv]
  | _ :: _ :: _ => rfl

theorem hostWrite_length (vals : List Int) (s : State) : hostWrite .length vals s = (wordOfList vals).map s.writeVlr := by
  match vals with
  | [] => rfl
  | [v] => cases hv : inRange32 v <;> simp [hostWrite, wordOfList, hv]
  | _ :: _ :: _ => rfl

theorem hostWrite_vector (i : VReg) (vals : List Int) (s : State) :
    hostWrite (.vector i) vals s = (lanesOfList vals).map (s.writeV i) := rfl

theorem hostWrite_mask (vals : List Int) (s : State) :
    hostWrite .mask vals s = (lanesOfList vals).map fun v => { s with vmr := v } := rfl

/-- The port takes exactly one value in range for each lane of the register (R78). -/
theorem hostWrite_isSome_iff (x : RegName) (vals : List Int) (s : State) :
    (hostWrite x vals s).isSome = true ↔ vals.length = (hostRead x s).length ∧ ∀ v ∈ vals, inRange32 v = true := by
  cases x with
  | scalar i => rw [hostWrite_scalar, Option.isSome_map, wordOfList_isSome_iff]; rfl
  | vector i => rw [hostWrite_vector, Option.isSome_map, lanesOfList_isSome_iff]; simp [hostRead]
  | mask => rw [hostWrite_mask, Option.isSome_map, lanesOfList_isSome_iff]; simp [hostRead]
  | length => rw [hostWrite_length, Option.isSome_map, wordOfList_isSome_iff]; rfl

/-- The states the port may leave of `s`. -/
inductive HostWritten (vals : List Int) (s : State) : RegName → State → Prop
  | scalar (i : SReg) (w : Word) (hw : wordOfList vals = some w) : HostWritten vals s (.scalar i) (s.writeS i w)
  | vector (i : VReg) (v : Lanes) (hv : lanesOfList vals = some v) : HostWritten vals s (.vector i) (s.writeV i v)
  | mask (v : Lanes) (hv : lanesOfList vals = some v) : HostWritten vals s .mask { s with vmr := v }
  | length (w : Word) (hw : wordOfList vals = some w) : HostWritten vals s .length (s.writeVlr w)

theorem hostWritten_of_eq_some {x : RegName} {vals : List Int} {s t : State} (h : hostWrite x vals s = some t) :
    HostWritten vals s x t := by
  cases x with
  | scalar i =>
    obtain ⟨w, hw, rfl⟩ := Option.map_eq_some_iff.1 (hostWrite_scalar i vals s ▸ h)
    exact .scalar i w hw
  | vector i =>
    obtain ⟨v, hv, rfl⟩ := Option.map_eq_some_iff.1 h
    exact .vector i v hv
  | mask =>
    obtain ⟨v, hv, rfl⟩ := Option.map_eq_some_iff.1 h
    exact .mask v hv
  | length =>
    obtain ⟨w, hw, rfl⟩ := Option.map_eq_some_iff.1 (hostWrite_length vals s ▸ h)
    exact .length w hw

/-! ### Reading after a write -/

theorem HostWritten.read_same {x : RegName} {vals : List Int} {s t : State} (h : HostWritten vals s x t) :
    hostRead x t = vals := by
  cases h with
  | scalar i w hw => rw [hostRead, State.readS_writeS_same, toInt_wordOfList hw]
  | vector i v hv => rw [hostRead, State.readV_writeV_same, toInt_lanesOfList hv]
  | mask v hv => exact toInt_lanesOfList hv
  | length w hw => exact toInt_wordOfList hw

theorem HostWritten.read_other {x y : RegName} {vals : List Int} {s t : State} (h : HostWritten vals s x t)
    (hne : y ≠ x) : hostRead y t = hostRead y s := by
  cases h with
  | scalar i w =>
    cases y with
    | scalar j => rw [hostRead, hostRead, State.readS_writeS_other s i j w fun hij => hne (congrArg _ hij)]
    | vector | mask | length => rfl
  | vector i v =>
    cases y with
    | vector j => rw [hostRead, hostRead, State.readV_writeV_other s i j v fun hij => hne (congrArg _ hij)]
    | scalar | mask | length => rfl
  | mask v =>
    cases y with
    | mask => exact absurd rfl hne
    | scalar | vector | length => rfl
  | length w =>
    cases y with
    | length => exact absurd rfl hne
    | scalar | vector | mask => rfl

/-- The port writes registers only. -/
theorem HostWritten.frame {x : RegName} {vals : List Int} {s t : State} (h : HostWritten vals s x t) :
    t = { s with sreg := t.sreg, vreg := t.vreg, vmr := t.vmr, vlr := t.vlr } := by
  cases h <;> rfl

/-- Settles O52: acceptance register file by register file, and then by the state that the write leaves. -/
theorem hostPortReadsBackWhatItWrote : Obligations.HostPortReadsBackWhatItWrote := by
  refine fun s x vals => ⟨hostWrite_isSome_iff x vals s, fun t ht => ?_⟩
  have hwritten := hostWritten_of_eq_some ht
  exact ⟨hwritten.read_same, fun _ => hwritten.read_other, hwritten.frame⟩

end Sys2Proof.Machine
end

section
/-! PROOFS. Which instructions change VDM, and that none of them runs with the extension off (`20_memory.md` R69, R73;
`42_vector_data.md` R191). -/

namespace Sys2Proof

/-! ### What the decoder answers -/

theorem decodeVVV_eq_ok {mk : VReg → VReg → VReg → Instr} {ops : List Token} {i : Instr}
    (h : decodeVVV mk ops = .ok i) : ∃ d s1 s2, i = mk d s1 s2 := by
  unfold decodeVVV at h
  repeat' split at h
  all_goals cases h
  exact ⟨_, _, _, rfl⟩

theorem decodeVVS_eq_ok {mk : VReg → VReg → SReg → Instr} {ops : List Token} {i : Instr}
    (h : decodeVVS mk ops = .ok i) : ∃ d s t, i = mk d s t := by
  unfold decodeVVS at h
  repeat' split at h
  all_goals cases h
  exact ⟨_, _, _, rfl⟩

theorem decodeS_eq_ok {mk : SReg → Instr} {ops : List Token} {i : Instr} (h : decodeS mk ops = .ok i) :
    ∃ r, i = mk r := by
  unfold decodeS at h
  repeat' split at h
  all_goals cases h
  exact ⟨_, rfl⟩

theorem decodeBR_eq_ok {mk : Int → Instr} {ops : List Token} {i : Instr} (h : decodeBR mk ops = .ok i) :
    ∃ off, i = mk off := by
  unfold decodeBR at h
  repeat' split at h
  all_goals cases h
  exact ⟨_, rfl⟩

theorem decodeVS_eq_ok {mk : VReg → SReg → Instr} {ops : List Token} {i : Instr} (h : decodeVS mk ops = .ok i) :
    ∃ v b, i = mk v b := by
  unfold decodeVS at h
  repeat' split at h
  all_goals cases h
  exact ⟨_, _, rfl⟩

theorem decodeVSS_eq_ok {mk : VReg → SReg → SReg → Instr} {ops : List Token} {i : Instr}
    (h : decodeVSS mk ops = .ok i) : ∃ v b r, i = mk v b r := by
  unfold decodeVSS at h
  repeat' split at h
  all_goals cases h
  exact ⟨_, _, _, rfl⟩

/-- The operands decide no mnemonic. -/
theorem decodeOperands_mnemonic {m : Mnemonic} {ops : List Token} {i : Instr} (h : decodeOperands m ops = .ok i) :
    i.mnemonic = m := by
  cases m with
  | addvv | subvv | mulvv | divvv | unpacklo | unpackhi | packlo | packhi =>
    obtain ⟨d, s1, s2, rfl⟩ := decodeVVV_eq_ok h
    rfl
  | addvs | subvs | mulvs | divvs =>
    obtain ⟨d, s, t, rfl⟩ := decodeVVS_eq_ok h
    rfl
  | pop | mtcl | mfcl =>
    obtain ⟨r, rfl⟩ := decodeS_eq_ok h
    rfl
  | b =>
    obtain ⟨off, rfl⟩ := decodeBR_eq_ok h
    rfl
  | lv | sv =>
    obtain ⟨v, b, rfl⟩ := decodeVS_eq_ok h
    rfl
  | lvws | svws =>
    obtain ⟨v, b, r, rfl⟩ := decodeVSS_eq_ok h
    rfl

/-- The Vector-Data mnemonics are those of the extension (R81, R82). -/
theorem Mnemonic.queueClass_eq_vectorData_iff (m : Mnemonic) : m.queueClass = .vectorData ↔ m.isExtension = true := by
  cases m <;> decide

/-- With the extension off, no line decodes to an instruction of the Vector-Data queue (R81, R191). -/
theorem decodeLine_base_queueClass {toks : Line} {i : Instr} (h : decodeLine false toks = .ok i) :
    i.queueClass ≠ .vectorData := by
  unfold decodeLine at h
  split at h
  · cases h
  · split at h
    · cases h
    · next mn _ =>
      split at h
      · cases h
      · next hbase =>
        split at h
        · cases h
        · rw [Instr.queueClass, decodeOperands_mnemonic h, ne_eq, Mnemonic.queueClass_eq_vectorData_iff]
          simpa using hbase

end Sys2Proof

namespace Sys2Proof.Machine

/-! ### Which share changes VDM -/

theorem effectOf_eq_store_iff {i : Instr} : effectOf i = .store ↔ i.mnemonic = .sv ∨ i.mnemonic = .svws := by
  cases i <;> simp [effectOf, Instr.mnemonic]

theorem queueClass_of_store {i : Instr} (h : i.mnemonic = .sv ∨ i.mnemonic = .svws) : i.queueClass = .vectorData := by
  unfold Instr.queueClass
  rcases h with h | h <;> rw [h] <;> rfl

/-- VDM changes by `SV` and `SVWS` only. -/
theorem exec_changes_vdm {i : Instr} {s u : State} (h : exec i s = .next u) (hne : u.vdm ≠ s.vdm) :
    i.mnemonic = .sv ∨ i.mnemonic = .svws := by
  obtain ⟨e, he, heff⟩ := exec_eq_next h
  obtain rfl : e = .store := by_contra fun hstore => hne ((Effect.frame heff).vdm hstore)
  rcases he with he | he
  · exact effectOf_eq_store_iff.1 he.symm
  · cases he

/-- VDM changes in the share of a unit whose due head is a store. -/
theorem UnitResult.changes_vdm {c : QueueClass} {s t : State} (h : UnitResult c s t) (hne : t.vdm ≠ s.vdm) :
    ∃ e, HeadDue s c e ∧ (e.record.instr.mnemonic = .sv ∨ e.record.instr.mnemonic = .svws) := by
  have htick := s.tickHead_vdm c
  cases h with
  | idle => exact absurd rfl hne
  | ticked => exact absurd htick hne
  | raised => exact absurd htick hne
  | retired e rest u hs hq hdue hu =>
    rw [State.retireHead_vdm] at hne
    rcases completeEntry_eq_next hu with rfl | hexec
    · exact absurd htick hne
    · exact ⟨e, ⟨by rw [hq, List.head?_cons], hdue⟩, exec_changes_vdm hexec (by rwa [htick])⟩

/-- The Vector-Compute and Scalar-Ops units leave VDM alone. -/
theorem UnitResult.vdm_eq {c : QueueClass} {s t : State} (h : UnitResult c s t) (hc : c ≠ .vectorData)
    (hclass : ∀ e ∈ s.queue c, e.record.instr.queueClass = c) : t.vdm = s.vdm := by
  by_contra hne
  obtain ⟨e, hdue, hstore⟩ := h.changes_vdm hne
  exact hc ((hclass e (List.mem_of_mem_head? hdue.1)).symm.trans (queueClass_of_store hstore))

/-- After the execute phase VDM does not change in a cycle. -/
theorem afterExecute_vdm {s t : State} (h : afterExecute s = .next t) : t.vdm = s.vdm := by
  have hend : ∀ stalled u, (endCycle stalled u).vdm = u.vdm := fun stalled u => by rw [endCycle_frame]
  rcases afterExecute_cases s with ⟨-, ht⟩ | ⟨hrun, f, hf, hrest⟩
  · rw [next_unique h ht, hend]
  · have hdispatch := (dispatchResult_of_phase hrun hf).vdm
    rcases hrest with ⟨-, ht⟩ | ⟨hfrun, -, -, ht⟩
    · rw [next_unique h ht, hend, hdispatch]
    · rw [next_unique h ht, hend, (frontEndResult hfrun).vdm, hdispatch]

/-- A step that changes VDM completes a store at the head of the Vector-Data queue (R69). -/
theorem step_changes_vdm {s t : State} (hclass : ClassesMatch s) (h : step s = .next t) (hne : t.vdm ≠ s.vdm) :
    ∃ e, HeadDue s .vectorData e ∧ (e.record.instr.mnemonic = .sv ∨ e.record.instr.mnemonic = .svws) := by
  rcases step_eq_next h with ⟨-, rfl⟩ | ⟨hs, -, hrun⟩
  · exact absurd rfl hne
  · obtain ⟨s3, hexec, hafter⟩ := andThen_eq_next hrun
    obtain ⟨s1, s2, h1, h2, h3⟩ := executePhase_shares hs hexec
    have r1 := unitResult_of_share h1
    have r2 := unitResult_of_share h2
    have hdata : s1.queue .vectorData = s.queue .vectorData := r1.queue_other (by decide)
    have hscalar : s2.queue .scalarOps = s.queue .scalarOps :=
      (r2.queue_other (by decide)).trans (r1.queue_other (by decide))
    rw [afterExecute_vdm hafter, (unitResult_of_share h3).vdm_eq (by decide) (hscalar ▸ hclass .scalarOps),
      ← r1.vdm_eq (by decide) (hclass _)] at hne
    obtain ⟨e, hdue, hstore⟩ := r2.changes_vdm hne
    exact ⟨e, hdue.congr hdata, hstore⟩

/-! ### With the extension off -/

theorem FromProgram.queueClass_ne {s : State} {r : Record} (hr : FromProgram s r) (hext : s.cfg.vdataExt = false) :
    r.instr.queueClass ≠ .vectorData := by
  obtain ⟨-, toks, -, hdec⟩ := hr
  unfold decode at hdec
  rw [hext] at hdec
  split at hdec
  · next i hline =>
    have hi : i = r.instr := congrArg Record.instr (DecodeOutcome.accepted.inj hdec)
    exact hi ▸ decodeLine_base_queueClass hline
  · cases hdec

/-- The extension is off, the latches hold lines of the program, and no Vector-Data instruction is in flight. -/
structure DataUnitIdle (s : State) : Prop where
  ext : s.cfg.vdataExt = false
  latches : LatchesOrdered s
  queue : s.queue .vectorData = []

theorem UnitResult.dataQueue_empty {c : QueueClass} {s t : State} (h : UnitResult c s t)
    (hq : s.queue .vectorData = []) : t.queue .vectorData = [] := by
  refine List.eq_nil_iff_forall_not_mem.2 fun e he => ?_
  obtain ⟨e', he', -⟩ := h.mem_queue he
  rw [hq] at he'
  cases he'

/-- Dispatch fills no Vector-Data queue, because DL holds no Vector-Data instruction. -/
theorem DispatchResult.dataQueue_empty {s : State} {f : Flow} (h : DispatchResult s f) (hp : DataUnitIdle s) :
    f.state.queue .vectorData = [] := by
  rcases h.queue .vectorData with hsame | ⟨r, hdl, hdata, -, -⟩
  · rw [hsame, hp.queue]
  · obtain ⟨hprog, -⟩ := hp.latches.2 r hdl
    exact absurd hdata (hprog.queueClass_ne hp.ext)

theorem keptByPhases_dataUnitIdle : KeptByPhases DataUnitIdle where
  unit hresult hfixed hp :=
    { ext := hfixed.cfg ▸ hp.ext
      latches := keptByPhases_latchesOrdered.unit hresult hfixed hp.latches
      queue := hresult.dataQueue_empty hp.queue }
  dispatch _ hresult hfixed hp :=
    { ext := hfixed.cfg ▸ hp.ext
      latches := hresult.latchesOrdered hfixed hp.latches
      queue := hresult.dataQueue_empty hp }
  frontEnd _ hresult hfixed hp :=
    { ext := hfixed.cfg ▸ hp.ext
      latches := hresult.latchesOrdered hp.latches
      queue := (hresult.queue _).trans hp.queue }

theorem endCycle_dataUnitIdle (stalled : Option StallReason) (s : State) (hp : DataUnitIdle s) :
    DataUnitIdle (endCycle stalled s) where
  ext := (endCycle_sameFixed stalled s).cfg ▸ hp.ext
  latches := endCycle_latchesOrdered stalled s hp.latches
  queue := (endCycle_queue stalled s _).trans hp.queue

/-- Settles O37: only a store in the Vector-Data unit changes VDM, and with the extension off no line decodes to an
instruction of that unit. -/
theorem dataMemoryChangesByStoresOnly : Obligations.DataMemoryChangesByStoresOnly := by
  refine ⟨fun s t a hclass h hne => ?_, fun s t hclass hlatch hext hq h => ?_⟩
  · exact step_changes_vdm hclass h fun hvdm => hne (by rw [hvdm])
  · have hidle : DataUnitIdle t := keptByPhases_dataUnitIdle.step endCycle_dataUnitIdle h ⟨hext, hlatch, hq⟩
    refine ⟨hidle.queue, by_contra fun hne => ?_⟩
    obtain ⟨e, hdue, -⟩ := step_changes_vdm hclass h hne
    simp [HeadDue, hq] at hdue

end Sys2Proof.Machine
end

section
/-! PROOFS. What the decoder answers for every line: mnemonic, token count, and the operand tokens of each format
(`30_encoding.md` R81 to R88). -/

namespace Sys2Proof

/-! ### The opcode map and the line -/

/-- Settles O1, by evaluation: the table is finite and written out on both sides. -/
theorem opcodeMapHasTheTwentyRows : Obligations.OpcodeMapHasTheTwentyRows := rfl

theorem Mnemonic.token_inj {m m' : Mnemonic} : m.token = m'.token ↔ m = m' := by
  refine ⟨fun h => ?_, congrArg _⟩
  have hread := congrArg Mnemonic.ofToken h
  simpa only [Mnemonic.ofToken_token, Option.some.injEq] using hread

theorem decodeLine_of_no_mnemonic {ext : Bool} {t : Token} {ops : List Token} (h : ∀ m : Mnemonic, m.token ≠ t) :
    decodeLine ext (t :: ops) = .error .unknownMnemonic := by
  simp [decodeLine, Mnemonic.ofToken_eq_none.mpr h]

/-- The three checks of R81, R83 and R87 in their order. -/
theorem decodeLine_token (ext : Bool) (m : Mnemonic) (ops : List Token) :
    decodeLine ext (m.token :: ops) =
      if m.isExtension && !ext then .error .unknownMnemonic
      else if ops.length + 1 ≠ m.format.tokenCount then .error .malformedOperand
      else decodeOperands m ops := by
  simp only [decodeLine, Mnemonic.ofToken_token]

section
variable {ext : Bool} {m : Mnemonic} {ops : List Token}

theorem decodeLine_of_disabled (hm : m.isExtension = true) (hext : ext = false) :
    decodeLine ext (m.token :: ops) = .error .unknownMnemonic := by
  simp [decodeLine_token, hm, hext]

theorem decodeLine_of_wrong_count (henabled : m.isExtension = true → ext = true)
    (hcount : ops.length + 1 ≠ m.format.tokenCount) : decodeLine ext (m.token :: ops) = .error .malformedOperand := by
  rw [decodeLine_token, if_neg (by simpa using henabled), if_pos hcount]

theorem decodeLine_of_enabled (henabled : m.isExtension = true → ext = true)
    (hcount : ops.length + 1 = m.format.tokenCount) : decodeLine ext (m.token :: ops) = decodeOperands m ops := by
  rw [decodeLine_token, if_neg (by simpa using henabled), if_neg (not_not_intro hcount)]

end

/-- Settles O3: the count is checked before any operand is read. -/
theorem wrongTokenCountIsMalformed : Obligations.WrongTokenCountIsMalformed :=
  fun _ _ _ => decodeLine_of_wrong_count

/-- A line that decodes has passed each of the decoder's checks. -/
theorem decodeLine_eq_ok {ext : Bool} {toks : Line} {i : Instr} (h : decodeLine ext toks = .ok i) :
    ∃ ops, toks = i.mnemonic.token :: ops ∧ (i.mnemonic.isExtension = true → ext = true) ∧
      ops.length + 1 = i.mnemonic.format.tokenCount ∧ decodeOperands i.mnemonic ops = .ok i := by
  cases toks with
  | nil => cases h
  | cons t ops =>
    by_cases hm : ∃ m : Mnemonic, m.token = t
    · obtain ⟨m, rfl⟩ := hm
      rw [decodeLine_token] at h
      split at h
      · cases h
      · next henabled =>
        split at h
        · cases h
        · next hcount =>
          obtain rfl := decodeOperands_mnemonic h
          exact ⟨ops, rfl, by simpa using henabled, not_not.mp hcount, h⟩
    · rw [decodeLine_of_no_mnemonic (not_exists.mp hm)] at h
      cases h

end Sys2Proof

namespace Sys2Proof.Machine

/-! ### Decimal numbers -/

theorem parseDigits_singleton {acc n : Nat} {c : Char} :
    parseDigits acc [c] = some n ↔ (48 ≤ c.toNat ∧ c.toNat ≤ 57) ∧ 10 * acc + (c.toNat - 48) = n := by
  by_cases hc : 48 ≤ c.toNat ∧ c.toNat ≤ 57 <;> simp [parseDigits, digitValue, hc]

theorem decimalValue_append_singleton (ds : List Char) (c : Char) :
    decimalValue (ds ++ [c]) = 10 * decimalValue ds + (c.toNat - 48) := by
  simp [decimalValue, Nat.ofDigits_cons, Nat.add_comm]

/-- The decoder reads from the left, `decimalValue` from the right: the induction takes off the last digit. -/
theorem parseDigits_eq_some (ds : List Char) :
    ∀ n, parseDigits 0 ds = some n ↔ (∀ c ∈ ds, 48 ≤ c.toNat ∧ c.toNat ≤ 57) ∧ decimalValue ds = n := by
  induction ds using List.reverseRecOn with
  | nil => intro n; simp [parseDigits, decimalValue]
  | append_singleton ds c ih =>
    intro n
    rw [parseDigits_append, Option.bind_eq_some_iff, decimalValue_append_singleton]
    simp only [ih, parseDigits_singleton, List.forall_mem_append, List.forall_mem_singleton]
    constructor
    · rintro ⟨_, ⟨hds, rfl⟩, hc, hn⟩
      exact ⟨⟨hds, hc⟩, hn⟩
    · rintro ⟨⟨hds, hc⟩, hn⟩
      exact ⟨_, ⟨hds, rfl⟩, hc, hn⟩

theorem parseNat_eq_some {ds : List Char} {n : Nat} : parseNat ds = some n ↔ IsDecimal ds ∧ decimalValue ds = n := by
  cases ds with
  | nil => simp [parseNat, IsDecimal]
  | cons c cs =>
    rw [parseNat, parseDigits_eq_some]
    simp [IsDecimal]

theorem parseRegister_eq_some {p1 p2 : Char} {t : Token} {n : Fin 8} :
    parseRegister p1 p2 t = some n ↔ ∃ ds, t = p1 :: p2 :: ds ∧ IsDecimal ds ∧ decimalValue ds = n.val := by
  simp only [← parseNat_eq_some]
  constructor
  · intro h
    unfold parseRegister at h
    split at h
    · next a b ds =>
      split at h
      · next hchars =>
        obtain ⟨rfl, rfl⟩ := hchars
        split at h
        · next k hk =>
          split at h
          · cases h
            exact ⟨ds, rfl, hk⟩
          · cases h
        · cases h
      · cases h
    · cases h
  · rintro ⟨ds, rfl, hds⟩
    simp [parseRegister, hds]

/-- A sign is no digit, so the three spellings of `parseSigned_eq_some` exclude each other. -/
theorem IsDecimal.head_ne_sign {c : Char} {cs : List Char} (h : IsDecimal (c :: cs)) : c ≠ '-' ∧ c ≠ '+' := by
  have hdigit := h.2 c List.mem_cons_self
  constructor <;> rintro rfl <;> exact absurd hdigit (by decide)

/-- `parseSigned` takes the number of `parseNat` into the integers before it gives it its sign. -/
theorem map_parseNat_eq_some {cs : List Char} {f : Int → Int} {v : Int} :
    (parseNat cs : Option Int).map f = some v ↔ IsDecimal cs ∧ f (decimalValue cs : Int) = v := by
  cases h : parseNat cs with
  | none =>
    have hdec : ¬ IsDecimal cs := fun hcs => by simp [parseNat_eq_some.mpr ⟨hcs, rfl⟩] at h
    simp [hdec]
  | some n =>
    obtain ⟨hcs, rfl⟩ := parseNat_eq_some.mp h
    simp [hcs]

/-- The three spellings of a signed decimal (R86). -/
theorem parseSigned_eq_some {t : Token} {v : Int} :
    parseSigned t = some v ↔ ∃ ds, IsDecimal ds ∧
      (((t = ds ∨ t = '+' :: ds) ∧ v = (decimalValue ds : Int)) ∨ (t = '-' :: ds ∧ v = -(decimalValue ds : Int))) := by
  constructor
  · intro h
    unfold parseSigned at h
    split at h
    · cases h
    · next c cs =>
      split at h
      · next hminus =>
        obtain ⟨hcs, rfl⟩ := map_parseNat_eq_some.mp h
        exact ⟨cs, hcs, .inr ⟨by rw [hminus], rfl⟩⟩
      · split at h
        · next hplus =>
          obtain ⟨hcs, rfl⟩ := map_parseNat_eq_some.mp h
          exact ⟨cs, hcs, .inl ⟨.inr (by rw [hplus]), rfl⟩⟩
        · obtain ⟨hcs, rfl⟩ := map_parseNat_eq_some.mp h
          exact ⟨c :: cs, hcs, .inl ⟨.inl rfl, rfl⟩⟩
  · rintro ⟨ds, hds, ⟨rfl | rfl, rfl⟩ | ⟨rfl, rfl⟩⟩
    · have hparse := parseNat_eq_some.mpr ⟨hds, rfl⟩
      cases t with
      | nil => exact absurd rfl hds.1
      | cons c cs => simp [parseSigned, hds.head_ne_sign, hparse]
    · simp [parseSigned, parseNat_eq_some.mpr ⟨hds, rfl⟩]
    · simp [parseSigned, parseNat_eq_some.mpr ⟨hds, rfl⟩]

theorem parseOffset_eq_some {t : Token} {v : Int} :
    parseOffset t = some v ↔ inRange32 v = true ∧ parseSigned t = some v := by
  cases h : parseSigned t with
  | none => simp [parseOffset, h]
  | some w =>
    rw [parseOffset, h]
    simp only [Option.ite_none_right_eq_some, Option.some.injEq, and_congr_left_iff]
    rintro rfl
    rfl

/-! ### Format BR -/

theorem decodeBR_of_some {mk : Int → Instr} {t : Token} {off : Int} (h : parseOffset t = some off) :
    decodeBR mk [t] = .ok (mk off) := by
  simp [decodeBR, h]

theorem decodeBR_of_none {mk : Int → Instr} {t : Token} (h : parseOffset t = none) :
    decodeBR mk [t] = .error .malformedOperand := by
  simp [decodeBR, h]

theorem decodeLine_branch (ext : Bool) (t : Token) : decodeLine ext [['B'], t] = decodeBR .b [t] :=
  decodeLine_of_enabled (m := .b) (ops := [t]) nofun rfl

theorem decodeLine_branch_eq_ok {ext : Bool} {t : Token} {v : Int} :
    decodeLine ext [['B'], t] = .ok (.b v) ↔ parseOffset t = some v := by
  rw [decodeLine_branch]
  cases h : parseOffset t with
  | none => simp [decodeBR_of_none h]
  | some off => simp [decodeBR_of_some h]

/-- Settles O7: the branch reads its token by `parseOffset`, which is the range check after `parseSigned`. -/
theorem branchOffsetTokensAreSignedDecimals : Obligations.BranchOffsetTokensAreSignedDecimals := by
  refine fun ext t => ⟨fun v => ?_, fun hno => ?_⟩
  · rw [decodeLine_branch_eq_ok, parseOffset_eq_some, parseSigned_eq_some]
  · have hnone : parseOffset t = none :=
      Option.eq_none_iff_forall_ne_some.mpr fun v hv => hno v (decodeLine_branch_eq_ok.mpr hv)
    rw [decodeLine_branch, decodeBR_of_none hnone]

/-! ### The register formats

In every format but BR the vector tokens come first and then the scalar tokens (R82, R88). -/

/-- What the operand tokens of a register format make the decoder answer: the instruction with the registers read, or
`MalformedOperand` for a token that reads as no register of its position (R84, R85, R88). -/
inductive RegistersRead (m : Mnemonic) (vts sts : List Token) : DecodeResult → Prop
  | ok (i : Instr) (hm : i.mnemonic = m) (hv : vts.map parseVector = i.vectorRegs.map some)
      (hs : sts.map parseScalar = i.scalarRegs.map some) : RegistersRead m vts sts (.ok i)
  | badVector (t : Token) (ht : t ∈ vts) (h : parseVector t = none) : RegistersRead m vts sts (.error .malformedOperand)
  | badScalar (t : Token) (ht : t ∈ sts) (h : parseScalar t = none) : RegistersRead m vts sts (.error .malformedOperand)

section
variable {m : Mnemonic} {vts sts : List Token}

theorem decodeVVV_registersRead {mk : VReg → VReg → VReg → Instr}
    (hmk : ∀ d s1 s2, (mk d s1 s2).mnemonic = m ∧ (mk d s1 s2).vectorRegs = [d, s1, s2] ∧ (mk d s1 s2).scalarRegs = [])
    (hv : vts.length = 3) (hs : sts.length = 0) : RegistersRead m vts sts (decodeVVV mk (vts ++ sts)) := by
  obtain ⟨t1, t2, t3, rfl⟩ := List.length_eq_three.mp hv
  obtain rfl := List.length_eq_zero_iff.mp hs
  simp only [decodeVVV, List.append_nil]
  split
  · next h1 => exact .badVector t1 (by simp) h1
  · next d h1 =>
    split
    · next h2 => exact .badVector t2 (by simp) h2
    · next s1 h2 =>
      split
      · next h3 => exact .badVector t3 (by simp) h3
      · next s2 h3 =>
        obtain ⟨hm, hvr, hsr⟩ := hmk d s1 s2
        exact .ok _ hm (by simp [h1, h2, h3, hvr]) (by simp [hsr])

theorem decodeVVS_registersRead {mk : VReg → VReg → SReg → Instr}
    (hmk : ∀ d s t, (mk d s t).mnemonic = m ∧ (mk d s t).vectorRegs = [d, s] ∧ (mk d s t).scalarRegs = [t])
    (hv : vts.length = 2) (hs : sts.length = 1) : RegistersRead m vts sts (decodeVVS mk (vts ++ sts)) := by
  obtain ⟨t1, t2, rfl⟩ := List.length_eq_two.mp hv
  obtain ⟨t3, rfl⟩ := List.length_eq_one_iff.mp hs
  simp only [decodeVVS, List.cons_append, List.nil_append]
  split
  · next h1 => exact .badVector t1 (by simp) h1
  · next d h1 =>
    split
    · next h2 => exact .badVector t2 (by simp) h2
    · next s h2 =>
      split
      · next h3 => exact .badScalar t3 (by simp) h3
      · next t h3 =>
        obtain ⟨hm, hvr, hsr⟩ := hmk d s t
        exact .ok _ hm (by simp [h1, h2, hvr]) (by simp [h3, hsr])

theorem decodeS_registersRead {mk : SReg → Instr}
    (hmk : ∀ r, (mk r).mnemonic = m ∧ (mk r).vectorRegs = [] ∧ (mk r).scalarRegs = [r])
    (hv : vts.length = 0) (hs : sts.length = 1) : RegistersRead m vts sts (decodeS mk (vts ++ sts)) := by
  obtain rfl := List.length_eq_zero_iff.mp hv
  obtain ⟨t1, rfl⟩ := List.length_eq_one_iff.mp hs
  simp only [decodeS, List.nil_append]
  split
  · next h1 => exact .badScalar t1 (by simp) h1
  · next r h1 =>
    obtain ⟨hm, hvr, hsr⟩ := hmk r
    exact .ok _ hm (by simp [hvr]) (by simp [h1, hsr])

theorem decodeVS_registersRead {mk : VReg → SReg → Instr}
    (hmk : ∀ v b, (mk v b).mnemonic = m ∧ (mk v b).vectorRegs = [v] ∧ (mk v b).scalarRegs = [b])
    (hv : vts.length = 1) (hs : sts.length = 1) : RegistersRead m vts sts (decodeVS mk (vts ++ sts)) := by
  obtain ⟨t1, rfl⟩ := List.length_eq_one_iff.mp hv
  obtain ⟨t2, rfl⟩ := List.length_eq_one_iff.mp hs
  simp only [decodeVS, List.cons_append, List.nil_append]
  split
  · next h1 => exact .badVector t1 (by simp) h1
  · next v h1 =>
    split
    · next h2 => exact .badScalar t2 (by simp) h2
    · next b h2 =>
      obtain ⟨hm, hvr, hsr⟩ := hmk v b
      exact .ok _ hm (by simp [h1, hvr]) (by simp [h2, hsr])

theorem decodeVSS_registersRead {mk : VReg → SReg → SReg → Instr}
    (hmk : ∀ v b r, (mk v b r).mnemonic = m ∧ (mk v b r).vectorRegs = [v] ∧ (mk v b r).scalarRegs = [b, r])
    (hv : vts.length = 1) (hs : sts.length = 2) : RegistersRead m vts sts (decodeVSS mk (vts ++ sts)) := by
  obtain ⟨t1, rfl⟩ := List.length_eq_one_iff.mp hv
  obtain ⟨t2, t3, rfl⟩ := List.length_eq_two.mp hs
  simp only [decodeVSS, List.cons_append, List.nil_append]
  split
  · next h1 => exact .badVector t1 (by simp) h1
  · next v h1 =>
    split
    · next h2 => exact .badScalar t2 (by simp) h2
    · next b h2 =>
      split
      · next h3 => exact .badScalar t3 (by simp) h3
      · next r h3 =>
        obtain ⟨hm, hvr, hsr⟩ := hmk v b r
        exact .ok _ hm (by simp [h1, hvr]) (by simp [h2, h3, hsr])

/-- Every mnemonic but `B` reads its registers by the decoder of its format. -/
theorem decodeOperands_registersRead (hm : m ≠ .b) (hv : vts.length = vectorPositions m.format)
    (hs : sts.length = scalarPositions m.format) : RegistersRead m vts sts (decodeOperands m (vts ++ sts)) := by
  cases m with
  | addvv | subvv | mulvv | divvv | unpacklo | unpackhi | packlo | packhi =>
    exact decodeVVV_registersRead (fun _ _ _ => ⟨rfl, rfl, rfl⟩) hv hs
  | addvs | subvs | mulvs | divvs => exact decodeVVS_registersRead (fun _ _ _ => ⟨rfl, rfl, rfl⟩) hv hs
  | pop | mtcl | mfcl => exact decodeS_registersRead (fun _ => ⟨rfl, rfl, rfl⟩) hv hs
  | b => exact absurd rfl hm
  | lv | sv => exact decodeVS_registersRead (fun _ _ => ⟨rfl, rfl, rfl⟩) hv hs
  | lvws | svws => exact decodeVSS_registersRead (fun _ _ _ => ⟨rfl, rfl, rfl⟩) hv hs

theorem tokenCount_of_ne_branch (hm : m ≠ .b) :
    m.format.tokenCount = vectorPositions m.format + scalarPositions m.format + 1 := by
  cases m with
  | b => exact absurd rfl hm
  | _ => rfl

/-- Operand tokens of the right number are the vector tokens of the format, then its scalar tokens. -/
theorem exists_registersRead {ops : List Token} (hm : m ≠ .b) (hcount : ops.length + 1 = m.format.tokenCount) :
    ∃ vts sts, ops = vts ++ sts ∧ RegistersRead m vts sts (decodeOperands m ops) := by
  have hsum := tokenCount_of_ne_branch hm
  refine ⟨ops.take (vectorPositions m.format), ops.drop (vectorPositions m.format), (List.take_append_drop _ _).symm, ?_⟩
  have hread := decodeOperands_registersRead (vts := ops.take (vectorPositions m.format))
    (sts := ops.drop (vectorPositions m.format)) hm (by rw [List.length_take]; omega) (by rw [List.length_drop]; omega)
  rwa [List.take_append_drop] at hread

variable {o : DecodeResult}

theorem RegistersRead.eq_malformed_of_bad (h : RegistersRead m vts sts o)
    (hbad : (∃ t ∈ vts, parseVector t = none) ∨ ∃ t ∈ sts, parseScalar t = none) : o = .error .malformedOperand := by
  cases h with
  | badVector | badScalar => rfl
  | ok i hm hv hs =>
    obtain ⟨t, ht, hnone⟩ | ⟨t, ht, hnone⟩ := hbad
    · have hmem := List.mem_map_of_mem (f := parseVector) ht
      simp [hv, hnone] at hmem
    · have hmem := List.mem_map_of_mem (f := parseScalar) ht
      simp [hs, hnone] at hmem

theorem RegistersRead.eq_ok_of_good (h : RegistersRead m vts sts o) {vs : List VReg} {ss : List SReg}
    (hvs : vts.map parseVector = vs.map some) (hss : sts.map parseScalar = ss.map some) :
    ∃ i, o = .ok i ∧ i.mnemonic = m ∧ i.vectorRegs = vs ∧ i.scalarRegs = ss := by
  have hinj : Function.Injective (List.map (some : Fin 8 → Option (Fin 8))) :=
    List.map_injective_iff.mpr (Option.some_injective _)
  cases h with
  | ok i hm hv hs => exact ⟨i, rfl, hm, hinj (hv.symm.trans hvs), hinj (hs.symm.trans hss)⟩
  | badVector t ht hnone =>
    have hmem := List.mem_map_of_mem (f := parseVector) ht
    simp [hvs, hnone] at hmem
  | badScalar t ht hnone =>
    have hmem := List.mem_map_of_mem (f := parseScalar) ht
    simp [hss, hnone] at hmem

theorem RegistersRead.ne_unknownMnemonic (h : RegistersRead m vts sts o) : o ≠ .error .unknownMnemonic := by
  cases h <;> nofun

end

/-- Settles O6: register tokens by `parseRegister_eq_some`, and every line of a register format by `RegistersRead`. -/
theorem registerTokensArePrefixAndDecimalIndex : Obligations.RegisterTokensArePrefixAndDecimalIndex := by
  refine ⟨fun t n => parseRegister_eq_some, fun t n => parseRegister_eq_some,
    fun ext m vts sts henabled hm hv hs => ?_, fun ext toks i h hi => ?_⟩
  · have hcount : (vts ++ sts).length + 1 = m.format.tokenCount := by
      rw [tokenCount_of_ne_branch hm, List.length_append, hv, hs]
    have hread := decodeOperands_registersRead hm hv hs
    rw [decodeLine_of_enabled henabled hcount]
    exact ⟨hread.eq_malformed_of_bad, fun _ _ => hread.eq_ok_of_good⟩
  · obtain ⟨ops, rfl, -, hcount, hops⟩ := decodeLine_eq_ok h
    obtain ⟨vts, sts, rfl, hread⟩ := exists_registersRead hi hcount
    rw [hops] at hread
    cases hread with
    | ok _ _ hv hs => exact ⟨vts, sts, rfl, hv, hs⟩

/-! ### UnknownMnemonic -/

/-- Once the mnemonic is accepted and the count is right, only an operand can be wrong (R87). -/
theorem decodeOperands_ne_unknownMnemonic {m : Mnemonic} {ops : List Token}
    (hcount : ops.length + 1 = m.format.tokenCount) : decodeOperands m ops ≠ .error .unknownMnemonic := by
  by_cases hm : m = .b
  · subst hm
    obtain ⟨t, rfl⟩ := List.length_eq_one_iff.mp (Nat.succ.inj hcount)
    change decodeBR .b [t] ≠ _
    cases h : parseOffset t with
    | none => rw [decodeBR_of_none h]; nofun
    | some off => rw [decodeBR_of_some h]; nofun
  · obtain ⟨_, _, _, hread⟩ := exists_registersRead hm hcount
    exact hread.ne_unknownMnemonic

theorem decodeLine_token_eq_unknownMnemonic {ext : Bool} {m : Mnemonic} {ops : List Token} :
    decodeLine ext (m.token :: ops) = .error .unknownMnemonic ↔ m.isExtension = true ∧ ext = false := by
  refine ⟨fun h => ?_, fun ⟨hm, hext⟩ => decodeLine_of_disabled hm hext⟩
  by_contra hdisabled
  have henabled : m.isExtension = true → ext = true := by simpa using hdisabled
  by_cases hcount : ops.length + 1 = m.format.tokenCount
  · rw [decodeLine_of_enabled henabled hcount] at h
    exact decodeOperands_ne_unknownMnemonic hcount h
  · rw [decodeLine_of_wrong_count henabled hcount] at h
    cases h

theorem decodeLine_eq_unknownMnemonic {ext : Bool} {toks : Line} : decodeLine ext toks = .error .unknownMnemonic ↔
    toks = [] ∨ ∃ t ops, toks = t :: ops ∧ ∀ m : Mnemonic, m.token = t → m.isExtension = true ∧ ext = false := by
  cases toks with
  | nil => exact ⟨fun _ => .inl rfl, fun _ => rfl⟩
  | cons t ops =>
    by_cases hm : ∃ m : Mnemonic, m.token = t
    · obtain ⟨m, rfl⟩ := hm
      simp [decodeLine_token_eq_unknownMnemonic, Mnemonic.token_inj]
    · have hnone := not_exists.mp hm
      exact ⟨fun _ => .inr ⟨t, ops, rfl, fun m h => absurd h (hnone m)⟩, fun _ => decodeLine_of_no_mnemonic hnone⟩

/-- Settles O4: the first check of the decoder, and what a line that decodes has passed. -/
theorem unknownMnemonicInExactlyThreeCases : Obligations.UnknownMnemonicInExactlyThreeCases := by
  refine ⟨fun ext toks => decodeLine_eq_unknownMnemonic, fun ext toks i h => ?_⟩
  obtain ⟨ops, rfl, henabled, -, -⟩ := decodeLine_eq_ok h
  exact ⟨rfl, henabled⟩

end Sys2Proof.Machine
end

section
/-! PROOFS. The scoreboard stays exact, and no step changes a register that an entry in flight goes on holding
(`40_dispatch_scoreboard.md` R134, R137). -/

namespace Sys2Proof.Machine

/-! ### Counting the holders of a register -/

/-- How many entries of a queue have `x` in their marked set (R134). -/
def heldIn (x : RegName) (q : List Entry) : Nat := q.countP fun e => decide (x ∈ markSet e.record.instr)

theorem heldIn_cons (x : RegName) (e : Entry) (q : List Entry) :
    heldIn x (e :: q) = heldIn x q + if x ∈ markSet e.record.instr then 1 else 0 := by
  simp [heldIn, List.countP_cons]

theorem heldIn_append_singleton (x : RegName) (q : List Entry) (e : Entry) :
    heldIn x (q ++ [e]) = heldIn x q + if x ∈ markSet e.record.instr then 1 else 0 := by
  simp [heldIn, List.countP_append]

theorem State.holders_eq (s : State) (x : RegName) :
    s.holders x = heldIn x (s.queue .vectorCompute) + heldIn x (s.queue .vectorData) + heldIn x (s.queue .scalarOps) := by
  simp only [State.holders, State.inFlight, heldIn, List.countP_append, State.queue]

/-- When only `Q[c]` changes, the holders change by what it gains. -/
theorem State.holders_of_gain {s t : State} {x : RegName} {n : Nat} (c : QueueClass)
    (hother : ∀ c', c' ≠ c → t.queue c' = s.queue c') (hgain : heldIn x (t.queue c) = heldIn x (s.queue c) + n) :
    t.holders x = s.holders x + n := by
  rw [t.holders_eq, s.holders_eq]
  cases c with
  | vectorCompute => rw [hother .vectorData (by decide), hother .scalarOps (by decide)]; omega
  | vectorData => rw [hother .vectorCompute (by decide), hother .scalarOps (by decide)]; omega
  | scalarOps => rw [hother .vectorCompute (by decide), hother .vectorData (by decide)]; omega

theorem State.holders_congr {s t : State} (hq : ∀ c, t.queue c = s.queue c) (x : RegName) : t.holders x = s.holders x := by
  rw [t.holders_eq, s.holders_eq, hq, hq, hq]

/-- An entry in flight counts among the holders of the registers of its marked set. -/
theorem State.holders_pos {s : State} {c : QueueClass} {e : Entry} {x : RegName} (he : e ∈ s.queue c)
    (hx : x ∈ markSet e.record.instr) : 0 < s.holders x :=
  List.countP_pos_iff.2 ⟨e, (mem_inFlight s e).2 ⟨c, he⟩, by simpa using hx⟩

/-- In an exact state every register that an entry in flight holds is busy (R134). -/
theorem ScoreboardExact.busy_of_mem {s : State} (hp : ScoreboardExact s) {c : QueueClass} {e : Entry} {x : RegName}
    (he : e ∈ s.queue c) (hx : x ∈ markSet e.record.instr) : s.busy.get x = true := by
  have hpos := State.holders_pos he hx
  rw [hp x] at hpos
  exact by_contra fun hfree => by simp [hfree] at hpos

/-! ### Exactness, phase by phase -/

@[simp] theorem State.issue_busy (s : State) (r : Record) : (s.issue r).busy = s.busy.putAll (markSet r.instr) true := rfl

/-- A completion does not touch the scoreboard. -/
theorem completeEntry_busy {e : Entry} {s u : State} (h : completeEntry e s = .next u) (hrun : u.halted = false) :
    u.busy = s.busy := by
  rcases completeEntry_of_running h hrun with ⟨-, heff⟩ | ⟨-, rfl⟩
  · exact (Effect.sameControl heff).busy
  · rfl

theorem ScoreboardExact.congr {s t : State} (hp : ScoreboardExact s) (hq : ∀ c, t.queue c = s.queue c)
    (hbusy : t.busy = s.busy) : ScoreboardExact t := fun x => by
  rw [State.holders_congr hq, hbusy]
  exact hp x

/-- A tick changes no marked set. -/
theorem State.tickHead_scoreboardExact {s : State} (c : QueueClass) (hp : ScoreboardExact s) :
    ScoreboardExact (s.tickHead c) := fun x => by
  have hgain : heldIn x ((s.tickHead c).queue c) = heldIn x (s.queue c) + 0 := by
    cases hq : s.queue c with
    | nil => rw [s.tickHead_of_empty c hq, hq, Nat.add_zero]
    | cons e rest => rw [s.tickHead_queue_same c e rest hq, heldIn_cons, heldIn_cons]; rfl
  rw [State.holders_of_gain c (fun c' hc => s.tickHead_queue_other c c' hc) hgain, State.tickHead_busy]
  exact hp x

/-- Retiring the head frees what it alone held (R122). -/
theorem State.retireHead_scoreboardExact {s : State} {c : QueueClass} {e : Entry} {rest : List Entry}
    (hq : s.queue c = e :: rest) (hp : ScoreboardExact s) : ScoreboardExact (s.retireHead c e.record) := fun x => by
  have hgain : heldIn x (s.queue c) =
      heldIn x ((s.retireHead c e.record).queue c) + if x ∈ markSet e.record.instr then 1 else 0 := by
    rw [State.retireHead_queue_same, hq, List.tail_cons, heldIn_cons]
  have hcount := State.holders_of_gain c (fun c' hc => (s.retireHead_queue_other c c' e.record hc).symm) hgain
  rw [hp x] at hcount
  rw [State.retireHead_busy, Scoreboard.get_putAll]
  by_cases hx : x ∈ markSet e.record.instr
  · simp only [hx, if_true, Bool.false_eq_true, if_false] at hcount ⊢
    split at hcount <;> omega
  · simpa [hx] using hcount.symm

/-- Dispatch of a record whose marked set is free makes it the one holder of each register of it (R121). -/
theorem State.issue_scoreboardExact {s : State} {r : Record} (hfree : ∀ x ∈ markSet r.instr, s.busy.get x = false)
    (hp : ScoreboardExact s) : ScoreboardExact (s.issue r) := fun x => by
  have hgain : heldIn x ((s.issue r).queue r.instr.queueClass) =
      heldIn x (s.queue r.instr.queueClass) + if x ∈ markSet r.instr then 1 else 0 := by
    rw [State.issue_queue_same, heldIn_append_singleton]
    rfl
  rw [State.holders_of_gain _ (s.issue_queue_other r) hgain, hp x, State.issue_busy, Scoreboard.get_putAll]
  by_cases hx : x ∈ markSet r.instr
  · simp [hx, hfree x hx]
  · simp [hx]

theorem UnitResult.scoreboardExact {c : QueueClass} {s t : State} (h : UnitResult c s t) (hp : ScoreboardExact s) :
    ScoreboardExact t := by
  have htick := State.tickHead_scoreboardExact c hp
  cases h with
  | idle => exact hp
  | ticked => exact htick
  | raised e rest info => exact htick.congr (State.raise_queue _ info) rfl
  | retired e rest u hs hq hdue hu hrun =>
    have hu' : ScoreboardExact u := htick.congr (completeEntry_queue hu hrun) (completeEntry_busy hu hrun)
    refine State.retireHead_scoreboardExact (e := { e with elapsed := e.elapsed + 1 }) (rest := rest) ?_ hu'
    rw [completeEntry_queue hu hrun, s.tickHead_queue_same c e rest hq]

theorem DispatchResult.scoreboardExact {s : State} {f : Flow} (h : DispatchResult s f) (hp : ScoreboardExact s) :
    ScoreboardExact f.state := by
  cases h with
  | empty => exact hp
  | stalled => exact hp
  | issued r hdl hst => exact State.issue_scoreboardExact (State.stallReason_eq_none hst).1 hp
  | badTarget => exact hp.congr (State.raise_queue _ _) rfl
  | branched r off hdl hst =>
    have hredirect : ScoreboardExact (s.redirect ((r.p : Int) + off)) := hp.congr (s.redirect_queue _) rfl
    exact State.issue_scoreboardExact (State.stallReason_eq_none hst).1 hredirect

theorem FrontEndResult.busy {s t : State} (h : FrontEndResult s t) : t.busy = s.busy := by
  cases h with
  | raised info => rfl
  | unfetched _ hu => rw [hu.frame]
  | fetched u toks hu => rw [hu.frame]

theorem keptByPhases_scoreboardExact : KeptByPhases ScoreboardExact where
  unit hresult _ := hresult.scoreboardExact
  dispatch _ hresult _ := hresult.scoreboardExact
  frontEnd _ hresult _ hp := hp.congr hresult.queue hresult.busy

theorem endCycle_scoreboardExact (stalled : Option StallReason) (s : State) (hp : ScoreboardExact s) :
    ScoreboardExact (endCycle stalled s) :=
  hp.congr (endCycle_queue stalled s) (by rw [endCycle_frame])

theorem step_scoreboardExact {s t : State} (h : step s = .next t) (hp : ScoreboardExact s) : ScoreboardExact t :=
  keptByPhases_scoreboardExact.step endCycle_scoreboardExact h hp

/-- Settles O39: dispatch marks what nobody holds, retire frees what its entry alone held, and no other phase changes a
queue's marked sets or a busy bit. -/
theorem scoreboardStaysExact : Obligations.ScoreboardStaysExact := fun _ _ hp h => step_scoreboardExact h hp

/-! ### What a held register keeps -/

/-- A register reads as before when neither the registers that instructions write nor VMR have changed. -/
theorem SameRegisters.hostRead_eq {s t : State} (h : SameRegisters s t) (hvmr : t.vmr = s.vmr) (x : RegName) :
    hostRead x t = hostRead x s := by
  cases x with
  | scalar i => rw [hostRead, hostRead, h.readS_eq]
  | vector r => rw [hostRead, hostRead, State.readV, State.readV, h.vreg]
  | mask => rw [hostRead, hostRead, hvmr]
  | length => rw [hostRead, hostRead, h.vlr]

/-- An instruction changes registers of its marked set only (R124). -/
theorem exec_changes_markSet {i : Instr} {s u : State} {x : RegName} (h : exec i s = .next u)
    (hne : hostRead x u ≠ hostRead x s) : x ∈ markSet i := by
  cases x with
  | scalar j =>
    rcases exec_changes_scalar (j := j) h (fun heq => hne (by rw [hostRead, hostRead, heq])) with rfl | rfl
    all_goals exact (mem_markSet _ _).2 (.inr (.inl ⟨j, List.mem_singleton_self j, rfl⟩))
  | vector r =>
    have hlane : ∃ l, u.lane r l ≠ s.lane r l := by
      by_contra hsame
      push Not at hsame
      exact hne (by rw [hostRead, hostRead, Vector.ext fun k hk => hsame ⟨k, hk⟩])
    obtain ⟨l, hl⟩ := hlane
    obtain ⟨-, hdest, -⟩ := effectOf_eq_lanes (exec_changes_lane h hl).1
    exact (mem_markSet _ _).2 (.inl ⟨r, List.mem_of_mem_head? hdest, rfl⟩)
  | mask =>
    obtain ⟨e, -, heff⟩ := exec_eq_next h
    exact absurd (by rw [hostRead, hostRead, (Effect.sameControl heff).vmr]) hne
  | length =>
    obtain ⟨r, rfl, -⟩ := exec_changes_length h fun heq => hne (by rw [hostRead, hostRead, heq])
    exact (mem_markSet _ _).2 (.inr (.inr ⟨rfl, rfl⟩))

/-- A unit changes only registers that it frees: one that is busy after its share was busy before, with the same value. -/
theorem UnitResult.keeps_busy {c : QueueClass} {s t : State} {x : RegName} (h : UnitResult c s t) (hfixed : SameFixed s t)
    (hbusy : t.busy.get x = true) : s.busy.get x = true ∧ hostRead x t = hostRead x s := by
  have htick : SameRegisters s (s.tickHead c) := ⟨s.tickHead_sreg c, s.tickHead_vreg c, s.tickHead_vlr c⟩
  cases h with
  | idle => exact ⟨hbusy, rfl⟩
  | ticked => exact ⟨s.tickHead_busy c ▸ hbusy, htick.hostRead_eq hfixed.vmr x⟩
  | raised e rest info =>
    rw [State.raise_busy, State.tickHead_busy] at hbusy
    exact ⟨hbusy, SameRegisters.hostRead_eq ⟨htick.sreg, htick.vreg, htick.vlr⟩ hfixed.vmr x⟩
  | retired e rest u hs hq hdue hu hrun =>
    rw [State.retireHead_busy, completeEntry_busy hu hrun, State.tickHead_busy, Scoreboard.get_putAll] at hbusy
    obtain ⟨hx, hbusy⟩ : x ∉ markSet e.record.instr ∧ s.busy.get x = true := by simpa using hbusy
    refine ⟨hbusy, ?_⟩
    have hretire : hostRead x (u.retireHead c e.record) = hostRead x u :=
      SameRegisters.hostRead_eq ⟨u.retireHead_sreg .., u.retireHead_vreg .., u.retireHead_vlr ..⟩ (u.retireHead_vmr ..) x
    have hcomplete : hostRead x u = hostRead x (s.tickHead c) := by
      rcases completeEntry_eq_next hu with rfl | hexec
      · rfl
      · exact by_contra fun hne => hx (exec_changes_markSet hexec hne)
    rw [hretire, hcomplete, htick.hostRead_eq (s.tickHead_vmr c)]

/-- A register that is busy after the execute phase has kept its value through it. -/
theorem executePhase_keeps_busy {s t : State} {x : RegName} (hs : s.halted = false) (h : executePhase s = .next t)
    (hbusy : t.busy.get x = true) : hostRead x t = hostRead x s :=
  executePhase_keeps (P := fun u => u.busy.get x = true → hostRead x u = hostRead x s)
    (fun hunit hfixed hp hb =>
      have hkept := hunit.keeps_busy hfixed hb
      hkept.2.trans (hp hkept.1)) hs h (fun _ => rfl) hbusy

/-! ### What stays in flight -/

/-- `e` is in `Q[c]` and does not complete in this cycle: it is not the head, or its timer stays below its latency (R132). -/
def Pending (s : State) (c : QueueClass) (e : Entry) : Prop :=
  e ∈ (s.queue c).tail ∨ ((s.queue c).head? = some e ∧ e.elapsed + 1 ≠ e.record.cycleLatency)

/-- The share of its unit leaves a pending entry in flight. -/
theorem UnitResult.pending_stays {c : QueueClass} {s t : State} {e : Entry} (h : UnitResult c s t) (he : Pending s c e) :
    ∃ e' ∈ t.queue c, e'.record = e.record := by
  have hmem : e ∈ s.queue c := he.elim List.mem_of_mem_tail fun hhead => List.mem_of_mem_head? hhead.1
  have ticked : ∀ head rest, s.queue c = head :: rest → ∃ e' ∈ (s.tickHead c).queue c, e'.record = e.record := by
    intro head rest hq
    rw [s.tickHead_queue_same c head rest hq]
    rcases List.mem_cons.1 (hq ▸ hmem) with rfl | hrest
    · exact ⟨_, List.mem_cons_self, rfl⟩
    · exact ⟨e, List.mem_cons_of_mem _ hrest, rfl⟩
  cases h with
  | idle => exact ⟨e, hmem, rfl⟩
  | ticked head rest hs hq => exact ticked head rest hq
  | raised head rest info hs hq => rw [State.raise_queue]; exact ticked head rest hq
  | retired head rest u hs hq hdue hu hrun =>
    rw [State.retireHead_queue_same, completeEntry_queue hu hrun, s.tickHead_queue_same c head rest hq]
    rw [Pending, hq] at he
    rcases he with htail | ⟨hhead, hnot⟩
    · exact ⟨e, htail, rfl⟩
    · obtain rfl := Option.some.inj hhead
      exact absurd hdue hnot

/-- So does the execute phase: the other units do not touch its queue (R131). -/
theorem executePhase_pending_stays {s t : State} {c : QueueClass} {e : Entry} (hs : s.halted = false)
    (h : executePhase s = .next t) (he : Pending s c e) : ∃ e' ∈ t.queue c, e'.record = e.record := by
  obtain ⟨s1, s2, h1, h2, h3⟩ := executePhase_shares hs h
  replace h1 := unitResult_of_share h1
  replace h2 := unitResult_of_share h2
  replace h3 := unitResult_of_share h3
  cases c with
  | vectorCompute =>
    rw [h3.queue_other (by decide), h2.queue_other (by decide)]
    exact h1.pending_stays he
  | vectorData =>
    rw [h3.queue_other (by decide)]
    exact h2.pending_stays (by rw [Pending, h1.queue_other (by decide)]; exact he)
  | scalarOps =>
    exact h3.pending_stays (by rw [Pending, h2.queue_other (by decide), h1.queue_other (by decide)]; exact he)

/-- Settles O38: an entry that stays in flight keeps its registers busy, and a unit changes only registers that it frees. -/
theorem heldOperandsStayUnchanged : Obligations.HeldOperandsStayUnchanged := by
  intro s t c e hp h he x hx
  rcases step_eq_next h with ⟨-, rfl⟩ | ⟨hs, -, hrun⟩
  · rfl
  · obtain ⟨u, hexec, hafter⟩ := andThen_eq_next hrun
    have hexact : ScoreboardExact u := executePhase_keeps (fun hunit _ => hunit.scoreboardExact) hs hexec hp
    obtain ⟨e', he', hrec⟩ := executePhase_pending_stays hs hexec he
    have hbusy : u.busy.get x = true := hexact.busy_of_mem he' (hrec ▸ hx)
    calc
      hostRead x t = hostRead x u :=
        (afterExecute_sameRegisters hafter).hostRead_eq (afterExecute_sameFixed hafter).vmr x
      _ = hostRead x s := executePhase_keeps_busy hs hexec hbusy

end Sys2Proof.Machine
end

section
/-! PROOFS. The check of `HazardViolation` is in dispatch and in retire, and never fires (`40_dispatch_scoreboard.md` R122,
R132, R135; `60_exceptions.md` R285). -/

namespace Sys2Proof.Machine

/-! ### A head that is due -/

theorem State.tickHead_of_cons {s : State} {c : QueueClass} {e : Entry} {rest : List Entry} (hq : s.queue c = e :: rest) :
    s.tickHead c = s.setQueue c ({ e with elapsed := e.elapsed + 1 } :: rest) := by
  simp [State.tickHead, hq]

/-- A head whose timer reaches its latency in this cycle completes on the ticked state (R132, R135). -/
theorem advanceUnit_of_due {s u : State} {c : QueueClass} {e : Entry} {rest : List Entry} (hq : s.queue c = e :: rest)
    (hdue : e.elapsed + 1 = e.record.cycleLatency) (hu : completeEntry e (s.tickHead c) = .next u) :
    advanceUnit c s =
      if u.halted then .next u
      else if s.holdsAll (markSet e.record.instr) then .next (u.retireHead c e.record)
      else .next ((s.tickHead c).raise (hazardViolation e.record)) := by
  have hfinish : advanceUnit c s = (s.tickHead c).finishHead c { e with elapsed := e.elapsed + 1 } := by
    simp [advanceUnit, s.tickHead_queue_same c e rest hq, Entry.due, hdue]
  have hholds : (s.tickHead c).holdsAll (markSet e.record.instr) = s.holdsAll (markSet e.record.instr) := by
    simp [State.holdsAll]
  rw [hfinish, State.finishHead, ← hholds]
  exact congrArg (andThen · _) hu

theorem completeEntry_of_ne_branch {e : Entry} (hb : e.record.instr.mnemonic ≠ .b) (s : State) :
    completeEntry e s = exec e.record.instr s :=
  if_neg hb

theorem markSet_of_branch {i : Instr} (hb : i.mnemonic = .b) : markSet i = [] := by
  obtain ⟨off, rfl⟩ := eq_b_of_mnemonic hb
  rfl

/-! ### The check raises -/

/-- A dispatch that would mark a busy register raises (R135). -/
theorem State.enqueue_of_busy {s : State} {r : Record} {x : RegName} (hx : x ∈ markSet r.instr)
    (hbusy : s.busy.get x = true) : s.enqueue r = s.raise (hazardViolation r) :=
  if_pos (List.any_eq_true.2 ⟨x, hx, hbusy⟩)

/-- A due head that does not hold its registers raises, if its own completion does not (R135). -/
theorem advanceUnit_of_unheld {s : State} {c : QueueClass} {e : Entry} {rest : List Entry} {x : RegName}
    (hq : s.queue c = e :: rest) (hdue : e.elapsed + 1 = e.record.cycleLatency) (hx : x ∈ markSet e.record.instr)
    (hfree : s.busy.get x = false)
    (hrun : ∀ u, exec e.record.instr (s.tickHead c) = .next u → u.halted = false) :
    advanceUnit c s = .next ((s.tickHead c).raise (hazardViolation e.record)) := by
  have hb : e.record.instr.mnemonic ≠ .b := fun hb => by simp [markSet_of_branch hb] at hx
  obtain ⟨u, hu, -⟩ := exec_effect e.record.instr (s.tickHead c)
  have hunheld : ¬ s.holdsAll (markSet e.record.instr) = true := fun hall => by
    simp [(s.holdsAll_eq_true _).1 hall x hx] at hfree
  rw [advanceUnit_of_due hq hdue ((completeEntry_of_ne_branch hb _).trans hu), hrun u hu, if_neg Bool.false_ne_true,
    if_neg hunheld]

/-! ### The check never fires -/

/-- The core records no `HazardViolation`. -/
def NoHazard (s : State) : Prop := ∀ info, s.err = some info → info.kind ≠ .hazardViolation

theorem NoHazard.congr {s t : State} (hp : NoHazard s) (herr : t.err = s.err) : NoHazard t := fun info h =>
  hp info (herr ▸ h)

theorem State.raise_noHazard (s : State) {info : ErrorRecord} (h : info.kind ≠ .hazardViolation) :
    NoHazard (s.raise info) := fun _ hinfo => Option.some.inj hinfo ▸ h

theorem Effect.noHazard {e : Effect} {s t : State} (h : e.holds s t) (hp : NoHazard s) : NoHazard t := by
  by_cases he : e = .error
  · subst he
    obtain ⟨info, rfl, hkind⟩ := h
    exact s.raise_noHazard hkind
  · exact hp.congr (Effect.sameStatus h he).2

/-- In an exact state a due head holds its registers, so its unit records no `HazardViolation` (R134, R135). -/
theorem advanceUnit_noHazard {c : QueueClass} {s t : State} (hs : s.halted = false) (hexact : ScoreboardExact s)
    (h : advanceUnit c s = .next t) (hp : NoHazard s) : NoHazard t := by
  have htick : NoHazard (s.tickHead c) := hp.congr (s.tickHead_err c)
  rcases advanceUnit_cases c s hs with
    ⟨-, hu⟩ | ⟨e, rest, hq, ⟨-, hu⟩ | ⟨-, ⟨u, heff, hu⟩ | ⟨hunheld, -⟩ | ⟨u, heff, -, -, hu⟩⟩⟩
  · exact next_unique h hu ▸ hp
  · exact next_unique h hu ▸ htick
  · exact next_unique h hu ▸ Effect.noHazard heff htick
  · have hall : s.holdsAll (markSet e.record.instr) = true :=
      (s.holdsAll_eq_true _).2 fun x hx => hexact.busy_of_mem (hq ▸ List.mem_cons_self) hx
    simp [hall] at hunheld
  · have hcomplete : NoHazard u := by
      rcases heff with ⟨-, heff⟩ | ⟨-, rfl⟩
      · exact Effect.noHazard heff htick
      · exact htick
    exact next_unique h hu ▸ hcomplete.congr (u.retireHead_err c e.record)

/-- The scoreboard is exact, and no `HazardViolation` is recorded. -/
structure HazardFree (s : State) : Prop where
  scoreboard : ScoreboardExact s
  noHazard : NoHazard s

theorem unlessHalted_hazardFree {c : QueueClass} {s t : State} (h : unlessHalted (advanceUnit c) s = .next t)
    (hp : HazardFree s) : HazardFree t := by
  refine ⟨(unitResult_of_share h).scoreboardExact hp.scoreboard, ?_⟩
  cases hs : s.halted with
  | true =>
    obtain rfl : s = t := by simpa [unlessHalted, hs] using h
    exact hp.noHazard
  | false => exact advanceUnit_noHazard hs hp.scoreboard (by simpa [unlessHalted, hs] using h) hp.noHazard

/-- An accepted dispatch finds its marked set free, so the only error of the phase is a branch target (R128, R231). -/
theorem DispatchResult.noHazard {s : State} {f : Flow} (h : DispatchResult s f) (hp : NoHazard s) : NoHazard f.state := by
  cases h with
  | empty => exact hp
  | stalled => exact hp
  | issued r => exact hp.congr (s.issue_err r)
  | badTarget => exact s.raise_noHazard (by simp [branchTargetFault])
  | branched r => exact hp.congr (State.issue_err _ r)

theorem decodePhase_noHazard {s : State} (hp : NoHazard s) : NoHazard (decodePhase s) := by
  unfold decodePhase
  split
  · exact hp
  · split
    · exact s.raise_noHazard (by simp [decodeErrorRecord])
    · exact hp.congr rfl

theorem fetchPhase_err (s : State) : (fetchPhase s).err = s.err := by
  unfold fetchPhase
  split
  · split <;> rfl
  · rfl

theorem frontEnd_noHazard {s : State} (hp : NoHazard s) : NoHazard (frontEnd s) := by
  unfold frontEnd
  split
  · exact decodePhase_noHazard hp
  · exact (decodePhase_noHazard hp).congr (fetchPhase_err _)

theorem endCycle_noHazard (stalled : Option StallReason) {s : State} (hp : NoHazard s) : NoHazard (endCycle stalled s) := by
  rcases endCycle_cases stalled s with ⟨-, -, herr⟩ | ⟨-, ⟨-, -, herr⟩ | ⟨-, herr⟩ | ⟨-, herr⟩⟩
  · exact hp.congr herr
  · exact hp.congr herr
  · exact (s.raise_noHazard (info := cycleLimitRecord) (by simp [cycleLimitRecord])).congr herr
  · exact hp.congr herr

/-- Whatever follows the execute phase records no `HazardViolation`, in any state. -/
theorem afterExecute_noHazard {s t : State} (h : afterExecute s = .next t) (hp : NoHazard s) : NoHazard t := by
  rcases afterExecute_cases s with ⟨-, ht⟩ | ⟨hrun, f, hf, hrest⟩
  · exact next_unique h ht ▸ endCycle_noHazard none hp
  · have hpf := (dispatchResult_of_phase hrun hf).noHazard hp
    rcases hrest with ⟨-, ht⟩ | ⟨-, -, -, ht⟩
    · exact next_unique h ht ▸ endCycle_noHazard _ hpf
    · exact next_unique h ht ▸ endCycle_noHazard none (frontEnd_noHazard hpf)

theorem step_hazardFree {s t : State} (h : step s = .next t) (hp : HazardFree s) : HazardFree t := by
  refine ⟨step_scoreboardExact h hp.scoreboard, ?_⟩
  rcases step_eq_next h with ⟨-, rfl⟩ | ⟨hs, -, hrun⟩
  · exact hp.noHazard
  · obtain ⟨u, hexec, hafter⟩ := andThen_eq_next hrun
    obtain ⟨s1, s2, h1, h2, h3⟩ := executePhase_shares hs hexec
    have hu : HazardFree u := unlessHalted_hazardFree h3 (unlessHalted_hazardFree h2 (unlessHalted_hazardFree h1 hp))
    exact afterExecute_noHazard hafter hu.noHazard

/-! ### Runs -/

/-- What every step keeps, every run keeps. -/
theorem run_keeps {P : State → Prop} (hstep : ∀ {s t}, step s = .next t → P s → P t) :
    ∀ {n : Nat} {s t : State}, run n s = .next t → P s → P t
  | 0, _, _, h, hp => Host.Outcome.next.inj h ▸ hp
  | _ + 1, _, _, h, hp => by
    obtain ⟨u, hu, hrest⟩ := andThen_eq_next h
    exact run_keeps hstep hrest (hstep hu hp)

/-- A launch starts with nothing in flight, every register free and no error (R41, R312). -/
theorem launchState_hazardFree (l : Launch) : HazardFree (launchState l) := by
  refine ⟨fun x => ?_, fun info h => ?_⟩
  · have hfree : (launchState l).busy.get x = false := Scoreboard.get_free x
    rw [hfree]
    rfl
  · cases h

/-- Settles O40: an exact scoreboard rules out both checks, every step keeps it exact, and every launch starts with it. -/
theorem hazardViolationIsNeverRaised : Obligations.HazardViolationIsNeverRaised := by
  refine ⟨fun s t hexact h hp => (step_hazardFree h ⟨hexact, hp⟩).noHazard, fun s r ⟨x, hx, hbusy⟩ => ?_,
    fun s c e rest _ hq hdue ⟨x, hx, hfree⟩ hrun => ?_, rfl, fun l s t n hboot hrun => ?_⟩
  · rw [State.enqueue_of_busy hx hbusy]
    exact ⟨rfl, rfl⟩
  · rw [← State.tickHead_of_cons hq] at hrun
    exact ⟨_, advanceUnit_of_unheld hq hdue hx hfree hrun, rfl, rfl⟩
  · obtain ⟨-, -, rfl⟩ := (boot_eq_next_iff l s).1 hboot
    exact (run_keeps step_hazardFree hrun (launchState_hazardFree l)).noHazard

end Sys2Proof.Machine
end

section
/-! PROOFS. Dispatch and retire as single actions: the stall, the accepted dispatch, what an entry captures, and the head's
timer (`40_dispatch_scoreboard.md` R121 to R132). -/

namespace Sys2Proof.Machine

/-! ### A stall -/

theorem dispatchPhase_of_stall {s : State} {r : Record} {reason : StallReason} (hdl : s.dl = some r)
    (hst : s.stallReason r = some reason) :
    dispatchPhase s = .next { state := s, stalled := some reason, squashed := false } := by
  simp [dispatchPhase, hdl, hst]

theorem afterExecute_of_stall {s : State} {r : Record} {reason : StallReason} (hs : s.halted = false) (hdl : s.dl = some r)
    (hst : s.stallReason r = some reason) : afterExecute s = .next (endCycle (some reason) s) := by
  simp [afterExecute, hs, dispatchPhase_of_stall hdl hst]

/-- A busy register of the check set goes before a full queue (R126, R128). -/
theorem State.stallReason_eq_some {s : State} {r : Record} {reason : StallReason}
    (h : (reason = .registerBusy ∧ ∃ x ∈ checkSet r.instr, s.busy.get x = true) ∨
      (reason = .queueFull ∧ (∀ x ∈ checkSet r.instr, s.busy.get x = false) ∧
        s.cap r.instr.queueClass ≤ (s.queue r.instr.queueClass).length)) : s.stallReason r = some reason := by
  rcases h with ⟨rfl, x, hx, hbusy⟩ | ⟨rfl, hfree, hfull⟩
  · have hany : s.anyBusy (checkSet r.instr) = true := List.any_eq_true.2 ⟨x, hx, hbusy⟩
    rw [State.stallReason, if_pos hany]
  · have hany : s.anyBusy (checkSet r.instr) = false := (s.anyBusy_eq_false _).2 hfree
    rw [State.stallReason, if_neg (by simp [hany]), if_pos hfull]

theorem State.drained_of_dl {s : State} {r : Record} (hdl : s.dl = some r) : s.drained = false := by
  simp [State.drained, hdl]

/-- Below the cycle limit, a stalled core with a record in DL ends its cycle as `Stalled` (R259, R261). -/
theorem endCycle_of_stall {s : State} {r : Record} (reason : StallReason) (hs : s.halted = false) (hdl : s.dl = some r)
    (hlimit : ∀ n, s.cfg.maxCycles = some n → s.cycle + 1 < n) :
    endCycle (some reason) s = { s with cycle := s.cycle + 1, status := .stalled reason } := by
  have hhalted : ({ s with cycle := s.cycle + 1 } : State).halted = false := hs
  have hdrained : ({ s with cycle := s.cycle + 1 } : State).drained = false := State.drained_of_dl hdl
  have hreached : ({ s with cycle := s.cycle + 1 } : State).limitReached = false := by
    cases hmax : s.cfg.maxCycles with
    | none => simp [State.limitReached, hmax]
    | some n => simpa [State.limitReached, hmax] using hlimit n hmax
  simp [endCycle, hhalted, hdrained, hreached]

/-- Settles O21: a stalled dispatch answers the state it found, and decode and fetch do not run. -/
theorem stallHoldsTheFrontEnd : Obligations.StallHoldsTheFrontEnd := by
  intro s r reason hs hdl hwhy
  refine ⟨_, afterExecute_of_stall hs hdl (State.stallReason_eq_some hwhy), endCycle_frame _ _, fun hlimit => ?_⟩
  rw [endCycle_of_stall reason hs hdl hlimit]
  exact ⟨rfl, rfl⟩

/-! ### An accepted dispatch -/

theorem State.stallReason_of_free {s : State} {r : Record} (hfree : ∀ x ∈ checkSet r.instr, s.busy.get x = false)
    (hroom : (s.queue r.instr.queueClass).length < s.cap r.instr.queueClass) : s.stallReason r = none := by
  have hany : s.anyBusy (checkSet r.instr) = false := (s.anyBusy_eq_false _).2 hfree
  rw [State.stallReason, if_neg (by simp [hany]), if_neg (Nat.not_le.2 hroom)]

theorem dispatchPhase_of_issue {s : State} {r : Record} (hdl : s.dl = some r) (hb : r.instr.mnemonic ≠ .b)
    (hst : s.stallReason r = none) :
    dispatchPhase s = .next { state := s.issue r, stalled := none, squashed := false } := by
  have henqueue : s.enqueue r = s.issue r := s.enqueue_of_free r (State.stallReason_eq_none hst).1
  simp [dispatchPhase, hdl, hst, State.dispatchRecord, hb, henqueue]

/-- An accepted dispatch changes the queues, the scoreboard and DL only. -/
theorem State.issue_frame (s : State) (r : Record) :
    s.issue r = { s with
      qCompute := (s.issue r).qCompute, qData := (s.issue r).qData, qScalar := (s.issue r).qScalar,
      busy := (s.issue r).busy, dl := none } := by
  unfold State.issue State.setQueue
  cases r.instr.queueClass <;> rfl

theorem State.issue_busy_iff (s : State) (r : Record) (x : RegName) :
    (s.issue r).busy.get x = true ↔ x ∈ markSet r.instr ∨ s.busy.get x = true := by
  rw [State.issue_busy, Scoreboard.get_putAll]
  by_cases hx : x ∈ markSet r.instr <;> simp [hx]

/-- Settles O22: with the check set free and room in the queue, the phase is `State.issue`. -/
theorem dispatchMarksSnapshotsAndEnqueues : Obligations.DispatchMarksSnapshotsAndEnqueues := fun s r hdl hb hfree hroom =>
  ⟨s.issue r, dispatchPhase_of_issue hdl hb (State.stallReason_of_free hfree hroom), s.issue_frame r,
    s.issue_queue_same r, s.issue_queue_other r, s.issue_busy_iff r⟩

/-! ### What an entry captures -/

/-- A lane of VMR is true when its value is not 0 (R24). -/
theorem truthMask_iff (vmr : Lanes) (l : Fin 64) : (truthMask vmr)[l.val] = true ↔ vmr[l.val].toInt ≠ 0 := by
  have hzero : vmr[l.val].toInt = 0 ↔ vmr[l.val] = 0 := BitVec.toInt_inj (y := (0 : Word))
  rw [Ne, hzero]
  simp [truthMask]

/-- A vector instruction captures VL and the mask. -/
theorem captures_of_vector {i : Instr} (h : i.queueClass = .vectorCompute ∨ i.queueClass = .vectorData) :
    capturesVL i = true ∧ capturesVLR i = false ∧ capturesMask i = true ∧ snapSet i = [.length, .mask] := by
  have hvl : capturesVL i = true := by rcases h with h | h <;> simp [capturesVL, h]
  have hmask : capturesMask i = true := by simp [capturesMask, hvl]
  refine ⟨hvl, ?_, hmask, ?_⟩
  · refine decide_eq_false fun hm => ?_
    simp [Instr.queueClass, hm, Mnemonic.queueClass] at h
  · cases hm : i.mnemonic <;> simp [Instr.queueClass, hm, Mnemonic.queueClass] at h <;> simp [snapSet, hm]

theorem capturesVL_of_scalarOps {i : Instr} (h : i.queueClass = .scalarOps) : capturesVL i = false := by
  simp [capturesVL, h]

/-- `MFCL` captures VLR as it is. -/
theorem captures_of_mfcl {i : Instr} (h : i.mnemonic = .mfcl) :
    capturesVL i = false ∧ capturesVLR i = true ∧ capturesMask i = false ∧ snapSet i = [.length] := by
  have hvl : capturesVL i = false := capturesVL_of_scalarOps (by rw [Instr.queueClass, h]; rfl)
  simp [hvl, capturesVLR, capturesMask, snapSet, h]

/-- `POP` captures the mask. -/
theorem captures_of_pop {i : Instr} (h : i.mnemonic = .pop) :
    capturesVL i = false ∧ capturesVLR i = false ∧ capturesMask i = true ∧ snapSet i = [.mask] := by
  have hvl : capturesVL i = false := capturesVL_of_scalarOps (by rw [Instr.queueClass, h]; rfl)
  simp [hvl, capturesVLR, capturesMask, snapSet, h]

/-- `MTCL` and `B` capture nothing. -/
theorem captures_of_mtcl_or_b {i : Instr} (h : i.mnemonic = .mtcl ∨ i.mnemonic = .b) :
    capturesVL i = false ∧ capturesVLR i = false ∧ capturesMask i = false ∧ snapSet i = [] := by
  have hvl : capturesVL i = false := capturesVL_of_scalarOps (by rcases h with h | h <;> rw [Instr.queueClass, h] <;> rfl)
  rcases h with h | h <;> simp [hvl, capturesVLR, capturesMask, snapSet, h]

/-- No instruction marks what it captures (R125). -/
theorem not_mem_markSet_of_snapSet {i : Instr} {x : RegName} (h : x ∈ snapSet i) : x ∉ markSet i := by
  have hx : (x = .length ∧ i.mnemonic ≠ .mtcl) ∨ x = .mask := by
    cases hm : i.mnemonic <;> simp_all [snapSet]
  rw [mem_markSet]
  rcases hx with ⟨rfl, hm⟩ | rfl
  · simpa using hm
  · simp

/-- Settles O23, class by class. -/
theorem dispatchSnapshotsByClass : Obligations.DispatchSnapshotsByClass := by
  intro s r
  refine ⟨rfl, rfl, fun h => ?_, fun h => ?_, fun h => ?_, fun h => ?_, truthMask_iff s.vmr, fun x hx =>
    ⟨List.mem_append_right _ hx, not_mem_markSet_of_snapSet hx⟩⟩
  · obtain ⟨hvl, hvlr, hmask, hsnap⟩ := captures_of_vector h
    simp [State.newEntry, hvl, hvlr, hmask, hsnap, activeLength, clamp, mvl]
  · obtain ⟨hvl, hvlr, hmask, hsnap⟩ := captures_of_mfcl h
    simp [State.newEntry, hvl, hvlr, hmask, hsnap]
  · obtain ⟨hvl, hvlr, hmask, hsnap⟩ := captures_of_pop h
    simp [State.newEntry, hvl, hvlr, hmask, hsnap]
  · obtain ⟨hvl, hvlr, hmask, hsnap⟩ := captures_of_mtcl_or_b h
    simp [State.newEntry, hvl, hvlr, hmask, hsnap]

/-! ### The head's timer -/

theorem advanceUnit_of_empty {s : State} {c : QueueClass} (hq : s.queue c = []) : advanceUnit c s = .next s := by
  simp [advanceUnit, s.tickHead_of_empty c hq, hq]

theorem advanceUnit_of_not_due {s : State} {c : QueueClass} {e : Entry} {rest : List Entry} (hq : s.queue c = e :: rest)
    (hnot : e.elapsed + 1 ≠ e.record.cycleLatency) : advanceUnit c s = .next (s.tickHead c) := by
  simp [advanceUnit, s.tickHead_queue_same c e rest hq, Entry.due, hnot]

theorem State.setQueue_setQueue (s : State) (c : QueueClass) (q q' : List Entry) :
    (s.setQueue c q).setQueue c q' = s.setQueue c q' := by
  cases c <;> rfl

/-- A `B` entry holds nothing, so that its retirement only takes it off its queue. -/
theorem State.retireHead_of_branch {s : State} {c : QueueClass} {r : Record} (hb : r.instr.mnemonic = .b) :
    s.retireHead c r = s.setQueue c (s.queue c).tail := by
  rw [State.retireHead, markSet_of_branch hb]
  cases c <;> rfl

theorem advanceUnit_of_due_branch {s : State} {c : QueueClass} {e : Entry} {rest : List Entry} (hs : s.halted = false)
    (hq : s.queue c = e :: rest) (hdue : e.elapsed + 1 = e.record.cycleLatency) (hb : e.record.instr.mnemonic = .b) :
    advanceUnit c s = .next (s.setQueue c rest) := by
  have hcomplete : completeEntry e (s.tickHead c) = .next (s.tickHead c) := if_pos hb
  have hhalted : ¬ (s.tickHead c).halted = true := by simp [hs]
  have hholds : s.holdsAll (markSet e.record.instr) = true := by rw [markSet_of_branch hb]; rfl
  rw [advanceUnit_of_due hq hdue hcomplete, if_neg hhalted, if_pos hholds, State.retireHead_of_branch hb,
    State.tickHead_of_cons hq, State.setQueue_queue_same, List.tail_cons, State.setQueue_setQueue]

/-- Settles O25: the three cases of a unit's share, and `retireHead` for the last. -/
theorem headTimerCompletesAndRetires : Obligations.HeadTimerCompletesAndRetires := by
  intro s c hs
  refine ⟨advanceUnit_of_empty, fun e rest hq => ?_⟩
  rw [← State.tickHead_of_cons hq]
  refine ⟨advanceUnit_of_not_due hq, advanceUnit_of_due_branch hs hq, fun hdue hb t ht => ?_⟩
  have hcomplete : completeEntry e (s.tickHead c) = .next t := (completeEntry_of_ne_branch hb _).trans ht
  have hadv := advanceUnit_of_due hq hdue hcomplete
  refine ⟨fun hhalted => by rw [hadv, if_pos hhalted], fun hrun hheld => ?_⟩
  refine ⟨t.retireHead c e.record, ?_, ?_, fun x => ?_⟩
  · rw [hadv, if_neg (by simp [hrun]), if_pos ((s.holdsAll_eq_true _).2 hheld)]
  · have htail : (t.queue c).tail = rest := by
      rw [completeEntry_queue hcomplete hrun, s.tickHead_queue_same c e rest hq, List.tail_cons]
    rw [State.retireHead, htail]
  · rw [State.retireHead_busy, completeEntry_busy hcomplete hrun, State.tickHead_busy, Scoreboard.get_putAll]
    by_cases hx : x ∈ markSet e.record.instr <;> simp [hx]

end Sys2Proof.Machine
end

section
/-! PROOFS. What the Vector-Compute instructions answer: the active lanes written, or the lowest fault
(`41_vector_compute.md` R150 to R168). -/

namespace Sys2Proof.Machine

/-! ### Completion, lane by lane (R150) -/

/-- A write of active lanes writes those lanes of that register and nothing else. -/
theorem writesActiveLanes_writeLanes (s : State) (c : QueueClass) (d : VReg) (f : Fin 64 → Word) {val : Fin 64 → Int}
    (hval : ∀ l, s.active c l = true → (f l).toInt = val l) :
    WritesActiveLanes (.next (s.writeLanes d (s.active c) f)) s c d val := by
  refine ⟨_, rfl, rfl, ⟨fun _ => rfl, fun _ => rfl⟩, fun r hr => s.readV_writeLanes_other d r _ f hr,
    fun l => ⟨fun hact => ?_, fun hact => ?_⟩⟩
  · rw [State.lane_writeLanes_same, if_pos hact, hval l hact]
  · rw [State.lane_writeLanes_same, if_neg (by simp [hact])]

section

variable {m : Mnemonic} {d : VReg} {op : Fin 64 → LaneResult} {s : State}

theorem computeLanes_writes {val : Fin 64 → Int}
    (hval : ∀ l, s.active .vectorCompute l = true → ∃ w, op l = .value w ∧ w.toInt = val l) :
    WritesActiveLanes (computeLanes m d op s) s .vectorCompute d val := by
  have hnone : firstFault (s.active .vectorCompute) op = none := (firstFault_eq_none _ _).2 fun l hact =>
    (hval l hact).imp fun _ => And.left
  rw [computeLanes, hnone]
  refine writesActiveLanes_writeLanes s .vectorCompute d _ fun l hact => ?_
  obtain ⟨w, hop, hw⟩ := hval l hact
  rw [hop]
  exact hw

/-- Of lane results that are faults where a lane is bad and values elsewhere: the values are written, or the lowest bad lane
faults (R150). -/
theorem computeLanes_writesOrHalts {val : Fin 64 → Int} {bad : Fin 64 → Prop} {det : Fin 64 → Detail}
    (hgood : ∀ l, ¬ bad l → ∃ w, op l = .value w ∧ w.toInt = val l) (hbad : ∀ l, bad l → op l = .fault (det l)) :
    ((∀ l, s.active .vectorCompute l = true → ¬ bad l) →
        WritesActiveLanes (computeLanes m d op s) s .vectorCompute d val) ∧
      ∀ l, LowestActive s .vectorCompute bad l →
        HaltsWith (computeLanes m d op s) s (arithmeticFault (s.headIndex .vectorCompute) m l (det l)) := by
  refine ⟨fun hall => computeLanes_writes fun l hact => hgood l (hall l hact), fun l ⟨hact, hl, hmin⟩ => ?_⟩
  have hfirst : firstFault (s.active .vectorCompute) op = some (l, det l) :=
    (firstFault_eq_some _ _ _ _).2 ⟨hact, hbad l hl, fun k hk hactk => (hgood k (hmin k hk hactk)).imp fun _ => And.left⟩
  rw [computeLanes, hfirst]
  rfl

end

/-! ### The range law (R152) -/

theorem rangeLaw_of_inRange32 {v : Int} (h : inRange32 v = true) : ∃ w, rangeLaw v = .value w ∧ w.toInt = v :=
  ⟨_, if_pos h, toInt_ofInt_of_inRange32 h⟩

theorem rangeLaw_of_not_inRange32 {v : Int} (h : inRange32 v = false) : rangeLaw v = .fault .overflow :=
  if_neg (by simp [h])

/-- An instruction that range-checks exact values writes them, or overflows on the lowest active lane out of range. -/
theorem computeLanes_rangeLaw (m : Mnemonic) (d : VReg) (val : Fin 64 → Int) (s : State) :
    WritesOrOverflows (computeLanes m d (fun l => rangeLaw (val l)) s) s m d val := by
  obtain ⟨hwrites, hhalts⟩ := computeLanes_writesOrHalts (m := m) (d := d) (s := s)
    (fun l (hl : ¬ inRange32 (val l) = false) => rangeLaw_of_inRange32 (eq_true_of_ne_false hl))
    fun _ => rangeLaw_of_not_inRange32
  exact ⟨fun hrange => hwrites fun l hact => by simp [hrange l hact], hhalts⟩

/-- Settles O9: the three are the range law on the exact sum, difference or product. -/
theorem vectorVectorArithmeticIsExactOrFaults : Obligations.VectorVectorArithmeticIsExactOrFaults := fun s d s1 s2 =>
  ⟨computeLanes_rangeLaw .addvv d _ s, computeLanes_rangeLaw .subvv d _ s, computeLanes_rangeLaw .mulvv d _ s, rfl,
    by simp [Instr.mnemonic, Mnemonic.format, Instr.vectorRegs]⟩

/-- Settles O11: as for two vectors, with the scalar for the second operand of every lane. -/
theorem vectorScalarArithmeticIsExactOrFaults : Obligations.VectorScalarArithmeticIsExactOrFaults := fun s d v t =>
  ⟨computeLanes_rangeLaw .addvs d _ s, computeLanes_rangeLaw .subvs d _ s, computeLanes_rangeLaw .mulvs d _ s, rfl,
    by simp [Instr.mnemonic, Mnemonic.format, Instr.vectorRegs, Instr.scalarRegs, mem_markSet]⟩

/-! ### The division law (R153) -/

/-- A quotient is no larger than its dividend. -/
theorem natAbs_quotientOf_le (round : DivRound) (a b : Int) : (quotientOf round a b).natAbs ≤ a.natAbs := by
  cases round with
  | towardZero => exact Int.natAbs_tdiv_le_natAbs a b
  | floor => exact Int.natAbs_fdiv_le_natAbs a b

/-- In either rounding the remainder is smaller than the divisor. -/
theorem natAbs_remainder_lt (round : DivRound) (a : Int) {b : Int} (hb : b ≠ 0) :
    (a - b * quotientOf round a b).natAbs < b.natAbs := by
  cases round with
  | towardZero =>
    have hmod : a - b * a.tdiv b = a.tmod b := (Int.tmod_def a b).symm
    rw [quotientOf, hmod, Int.natAbs_tmod]
    exact Nat.mod_lt _ (Int.natAbs_pos.2 hb)
  | floor =>
    have hmod : a - b * a.fdiv b = a.fmod b := (Int.fmod_def a b).symm
    rw [quotientOf, hmod]
    rcases Int.lt_or_gt_of_ne hb with hneg | hpos
    · have hflip : (-a).fmod (-b) = -a.fmod b := Int.neg_fmod_neg ..
      have := Int.fmod_nonneg_of_pos (-a) (Int.neg_pos_of_neg hneg)
      have := Int.fmod_lt_of_pos (-a) (Int.neg_pos_of_neg hneg)
      omega
    · have := Int.fmod_nonneg_of_pos a hpos
      have := Int.fmod_lt_of_pos a hpos
      omega

/-- The one quotient of two words that is outside 32 bits is 2^31, of `INT_MIN` by -1. -/
theorem inRange32_quotientOf_iff (round : DivRound) (a b : Word) (hb : b.toInt ≠ 0) :
    inRange32 (quotientOf round a.toInt b.toInt) = true ↔ ¬ (a.toInt = intMin ∧ b.toInt = -1) := by
  have hle := natAbs_quotientOf_le round a.toInt b.toInt
  have hrem := natAbs_remainder_lt round a.toInt hb
  have hlo : -2147483648 ≤ a.toInt := a.le_toInt
  have hhi : a.toInt < 2147483648 := a.toInt_lt
  rw [inRange32_iff, intMin]
  generalize quotientOf round a.toInt b.toInt = q at *
  constructor
  · rintro ⟨-, hq⟩ ⟨ha, hb1⟩
    rw [ha, hb1] at hrem
    omega
  · -- The bound on the quotient leaves 2^31 alone outside the range, and the remainder then makes the divisor -1.
    intro hnot
    by_contra hout
    obtain rfl : q = 2147483648 := by omega
    omega

theorem divLane_of_not_divisionFaults (round : DivRound) {a b : Word} (h : ¬ DivisionFaults a.toInt b.toInt) :
    ∃ w, divLane round a b = .value w ∧ w.toInt = quotientOf round a.toInt b.toInt := by
  obtain ⟨hb, hmin⟩ := not_or.1 h
  rw [divLane, divisionLaw, if_neg hb]
  exact rangeLaw_of_inRange32 ((inRange32_quotientOf_iff round a b hb).2 hmin)

theorem divLane_of_divisionFaults (round : DivRound) {a b : Word} (h : DivisionFaults a.toInt b.toInt) :
    divLane round a b = .fault (if b.toInt = 0 then .divideByZero else .overflow) := by
  by_cases hb : b.toInt = 0
  · rw [divLane, divisionLaw, if_pos hb, if_pos hb]
  · have hout : inRange32 (quotientOf round a.toInt b.toInt) = false := eq_false_of_ne_true fun hin =>
      (inRange32_quotientOf_iff round a b hb).1 hin (h.resolve_left hb)
    rw [divLane, divisionLaw, if_neg hb, if_neg hb]
    exact rangeLaw_of_not_inRange32 hout

/-- A dividing instruction writes the quotients, or faults on the lowest active lane whose division does. -/
theorem computeLanes_divLane (m : Mnemonic) (d : VReg) (a b : Fin 64 → Word) (s : State) :
    DividesOrFaults (computeLanes m d (fun l => divLane s.cfg.divRound (a l) (b l)) s) s m d
      (fun l => (a l).toInt) (fun l => (b l).toInt) :=
  computeLanes_writesOrHalts (fun _ => divLane_of_not_divisionFaults _) fun _ => divLane_of_divisionFaults _

/-- The two roundings differ exactly on an inexact quotient below 0. -/
theorem tdiv_ne_fdiv_iff (a b : Int) :
    a.tdiv b ≠ a.fdiv b ↔ ((a < 0 ∧ 0 < b) ∨ (0 < a ∧ b < 0)) ∧ ¬ b ∣ a := by
  rw [Int.fdiv_eq_tdiv]
  by_cases hdvd : b ∣ a
  · simp [hdvd]
  · have ha : a ≠ 0 := fun h => hdvd (h ▸ Int.dvd_zero b)
    rw [if_neg hdvd]
    rcases lt_trichotomy b 0 with hb | rfl | hb
    · rw [Int.sign_eq_neg_one_of_neg hb]
      split_ifs <;> omega
    · simp
    · rw [Int.sign_eq_one_of_pos hb]
      split_ifs <;> omega

/-- Settles O10: both are `divLane` of the lane and the divisor. -/
theorem divisionWritesQuotientsOrFaults : Obligations.DivisionWritesQuotientsOrFaults := fun s d v1 v2 t =>
  ⟨computeLanes_divLane .divvv d (s.lane v1) (s.lane v2) s, computeLanes_divLane .divvs d (s.lane v1) (fun _ => s.readS t) s,
    rfl, rfl, rfl, rfl, rfl, rfl, rfl, tdiv_ne_fdiv_iff⟩

/-! ### The permutes (R160 to R163) -/

theorem State.lane_ofNat (s : State) (i : VReg) {k : Nat} (h : k < 64) : s.lane i (Fin.ofNat 64 k) = (s.readV i)[k] := by
  simp [State.lane, Nat.mod_eq_of_lt h]

theorem interleaveLane_readV (s : State) (a b : VReg) (base : Nat) (hbase : base ≤ 32) (l : Fin 64) :
    interleaveLane base hbase (s.readV a) (s.readV b) l =
      if l.val % 2 = 0 then s.lane a (Fin.ofNat 64 (base + l.val / 2)) else s.lane b (Fin.ofNat 64 (base + l.val / 2)) := by
  have h : base + l.val / 2 < 64 := by omega
  rw [s.lane_ofNat a h, s.lane_ofNat b h]
  rfl

theorem packLane_readV (s : State) (a b : VReg) (odd : Nat) (hodd : odd ≤ 1) (l : Fin 64) :
    packLane odd hodd (s.readV a) (s.readV b) l =
      if l.val < 32 then s.lane a (Fin.ofNat 64 (2 * l.val + odd))
      else s.lane b (Fin.ofNat 64 (2 * (l.val - 32) + odd)) := by
  unfold packLane
  split
  · rw [s.lane_ofNat a]
  · rw [s.lane_ofNat b]

/-- Settles O12: a permute's lane results are all values, those of the rule's source lanes. -/
theorem permutesMoveLanesAndNeverFault : Obligations.PermutesMoveLanesAndNeverFault := by
  intro s d s1 s2
  refine ⟨?_, ?_, ?_, ?_, rfl, by simp [Instr.mnemonic, Mnemonic.format, Instr.vectorRegs]⟩
  · exact computeLanes_writes fun l _ => ⟨_, rfl, by rw [interleaveLane_readV, Nat.zero_add]⟩
  · exact computeLanes_writes fun l _ => ⟨_, rfl, by rw [interleaveLane_readV]⟩
  · exact computeLanes_writes fun l _ => ⟨_, rfl, by rw [packLane_readV]; rfl⟩
  · exact computeLanes_writes fun l _ => ⟨_, rfl, by rw [packLane_readV]⟩

/-! ### Active lanes (R151) -/

theorem State.active_of_head {s : State} {c : QueueClass} {e : Entry} {rest : List Entry} {vl : Nat} {m : Mask}
    (hq : s.queue c = e :: rest) (hvl : e.snapVL = some vl) (hmask : e.snapMask = some m) (l : Fin 64) :
    s.active c l = true ↔ l.val < vl ∧ m[l.val] = true := by
  simp [State.active, State.snapVL, State.snapMask, hq, hvl, hmask]

theorem lt_activeLength_iff (n : Nat) (v : Word) : n < activeLength v ↔ (n : Int) < min (max v.toInt 0) 64 := by
  rw [activeLength, Int.lt_toNat]
  rfl

theorem newEntry_snapMask {s : State} {r : Record} (h : capturesVL r.instr = true) :
    (s.newEntry r).snapMask = some (truthMask s.vmr) :=
  if_pos (by simp [capturesMask, h])

/-- A Vector-Compute instruction completes by `computeLanes`. -/
theorem exec_of_vectorCompute {i : Instr} (h : i.queueClass = .vectorCompute) (s : State) :
    ∃ m d op, exec i s = computeLanes m d op s := by
  cases i with
  | pop | mtcl | mfcl | b | lv | sv | lvws | svws => cases h
  | _ => exact ⟨_, _, _, rfl⟩

theorem computeLanes_of_no_active (m : Mnemonic) (d : VReg) (op : Fin 64 → LaneResult) {s : State}
    (h : ∀ l, s.active .vectorCompute l = false) : computeLanes m d op s = .next s := by
  have hnone : firstFault (s.active .vectorCompute) op = none :=
    (firstFault_eq_none _ _).2 fun l hact => absurd hact (by simp [h l])
  rw [computeLanes, hnone]
  exact congrArg Host.Outcome.next (s.writeLanes_none d _ _ h)

/-- Settles O13: the snapshots of the head entry, those a dispatch takes, and a completion with no active lane. -/
theorem activeLanesComeFromTheSnapshots : Obligations.ActiveLanesComeFromTheSnapshots := by
  refine ⟨fun s c e rest vl m l hq hvl hmask => State.active_of_head hq hvl hmask l,
    fun s t c r rest l hcap hq => ?_, fun s i hi hinactive => ?_⟩
  · rw [State.active_of_head hq (newEntry_snapVL hcap) (newEntry_snapMask hcap), lt_activeLength_iff, truthMask_iff]
  · obtain ⟨m, d, op, hexec⟩ := exec_of_vectorCompute hi s
    rw [hexec, computeLanes_of_no_active m d op hinactive]

end Sys2Proof.Machine
end

section
/-! PROOFS. What the vector loads and stores answer: the active words read or written, or the lowest fault
(`42_vector_data.md` R191 to R201). -/

namespace Sys2Proof.Machine

/-! ### Addresses (R192, R194) -/

/-- With unit stride, lane `l` addresses the word `l` above the base (R198, R199). -/
theorem effectiveAddress_one (base : Word) : effectiveAddress base 1 = fun l => base.toInt + (l.val : Int) := by
  funext l
  rw [effectiveAddress, mul_one]

theorem State.inVdm_iff_not_outsideVdm (s : State) (a : Int) : s.inVdm a = true ↔ ¬ OutsideVdm s a := by
  simp [State.inVdm, OutsideVdm]

section

variable {addr : Fin 64 → Int} {s : State}

theorem firstBadAddress_of_inside (hin : ∀ l, s.active .vectorData l = true → ¬ OutsideVdm s (addr l)) :
    s.firstBadAddress addr = none :=
  (s.firstBadAddress_eq_none addr).2 fun l hact => (s.inVdm_iff_not_outsideVdm _).2 (hin l hact)

theorem firstBadAddress_of_lowestActive {l : Fin 64}
    (hl : LowestActive s .vectorData (fun k => OutsideVdm s (addr k)) l) : s.firstBadAddress addr = some (l, addr l) := by
  obtain ⟨hact, hout, hmin⟩ := hl
  refine (s.firstBadAddress_eq_some addr l _).2
    ⟨hact, ?_, rfl, fun k hk hactk => (s.inVdm_iff_not_outsideVdm _).2 (hmin k hk hactk)⟩
  exact Bool.eq_false_iff.2 fun hin => (s.inVdm_iff_not_outsideVdm _).1 hin hout

/-- A completion that raises what `firstBadAddress` finds faults as R193 says, be it a load or a store. -/
theorem faultsOutsideVdm_of_raises {o : Host.Outcome State Fault Refusal} {m : Mnemonic}
    (hraise : ∀ l a, s.firstBadAddress addr = some (l, a) →
      o = .next (s.raise (dataAddressFault (s.headIndex .vectorData) m l a))) : FaultsOutsideVdm o s m addr :=
  fun l hl => hraise l (addr l) (firstBadAddress_of_lowestActive hl)

end

/-! ### Loads (R193) -/

theorem loadLanes_loadsOrFaults (m : Mnemonic) (d : VReg) (addr : Fin 64 → Int) (s : State) :
    LoadsOrFaults (loadLanes m d addr s) s m d addr := by
  refine ⟨fun hin => ?_, faultsOutsideVdm_of_raises fun l a hbad => by rw [loadLanes, hbad]⟩
  rw [loadLanes, firstBadAddress_of_inside hin]
  exact writesActiveLanes_writeLanes s .vectorData d _ fun _ _ => rfl

/-- A load gives two active lanes with one address the same word (R195). -/
theorem loadLanes_same_address {m : Mnemonic} {d : VReg} {addr : Fin 64 → Int} {s t : State}
    (h : loadLanes m d addr s = .next t) (hrun : t.halted = false) {k l : Fin 64} (hk : s.active .vectorData k = true)
    (hl : s.active .vectorData l = true) (haddr : addr k = addr l) : t.lane d k = t.lane d l := by
  rcases loadLanes_cases m d addr s with ⟨j, a, -, ht⟩ | ⟨-, ht⟩
  all_goals obtain rfl := next_unique h ht
  · cases hrun
  · rw [State.lane_writeLanes_same, State.lane_writeLanes_same, if_pos hk, if_pos hl, haddr]

/-! ### Stores (R193, R195) -/

/-- Addresses inside VDM are not negative, so lanes with different addresses store to different words. -/
theorem storeLanes_storesOrFaults (m : Mnemonic) (v : VReg) (addr : Fin 64 → Int) (s : State) :
    StoresOrFaults (storeLanes m v addr s) s m v addr := by
  refine ⟨fun hin => ?_, faultsOutsideVdm_of_raises fun l a hbad => by rw [storeLanes, hbad]⟩
  have hnonneg : ∀ l, s.active .vectorData l = true → ((addr l).toNat : Int) = addr l :=
    fun l hact => Int.toNat_of_nonneg (Int.not_lt.1 fun hneg => hin l hact (.inl hneg))
  refine ⟨{ s with vdm := storeActive (s.active .vectorData) addr (s.lane v) s.vdm }, ?_, rfl,
    fun l hact hlast => read_storeActive_last _ _ _ _ l hact fun k hk hactk heq => hlast k hk hactk ?_,
    fun a hfree => read_storeActive_other _ _ _ _ a fun l hact heq => hfree l hact ?_⟩
  · rw [storeLanes, firstBadAddress_of_inside hin]
  · rw [← hnonneg k hactk, heq, hnonneg l hact]
  · rw [← hnonneg l hact, heq]

/-! ### The four instructions -/

/-- No line decodes to an instruction of the Vector-Data unit with the extension off (R191). -/
theorem decodeLine_base_ne_of_vectorData {i : Instr} (h : i.queueClass = .vectorData) (toks : Line) :
    decodeLine false toks ≠ .ok i :=
  fun hdec => decodeLine_base_queueClass hdec h

/-- Settles O14: both loads are `loadLanes` of their lane addresses. -/
theorem loadsReadActiveWordsOrFault : Obligations.LoadsReadActiveWordsOrFault := by
  intro s d b r
  refine ⟨?_, loadLanes_loadsOrFaults .lvws d _ s, rfl, rfl, rfl, rfl, rfl, rfl, rfl, rfl,
    fun toks => ⟨decodeLine_base_ne_of_vectorData rfl toks, decodeLine_base_ne_of_vectorData rfl toks⟩⟩
  rw [← effectiveAddress_one]
  exact loadLanes_loadsOrFaults .lv d _ s

/-- Settles O15: both stores are `storeLanes` of their lane addresses, and `LVWS` is a load. -/
theorem storesWriteActiveWordsOrFault : Obligations.StoresWriteActiveWordsOrFault := by
  intro s v b r
  refine ⟨?_, storeLanes_storesOrFaults .svws v _ s,
    fun t d h hrun k l hk hl haddr => loadLanes_same_address h hrun hk hl haddr, rfl, rfl, rfl, rfl, rfl, rfl, rfl, rfl,
    fun toks => ⟨decodeLine_base_ne_of_vectorData rfl toks, decodeLine_base_ne_of_vectorData rfl toks⟩⟩
  rw [← effectiveAddress_one]
  exact storeLanes_storesOrFaults .sv v _ s

end Sys2Proof.Machine
end

section
/-! PROOFS. The Scalar-Ops instructions: what `POP` counts, what `MFCL` returns, and the branch with the cycle it dispatches
in (`43_scalar_ops.md` R221 to R231). -/

namespace Sys2Proof.Machine

/-! ### `POP` (R221) -/

theorem countTrue_eq_card (m : Mask) :
    countTrue m = ((Finset.univ : Finset (Fin 64)).filter fun l => m[l.val] = true).card := by
  have hlanes : (fun l : Fin 64 => m[l.val]) = fun l => decide (m[l.val] = true) := by simp
  rw [countTrue, List.countP_eq_length_filter, hlanes]
  rfl

/-- A mask has 64 lanes. -/
theorem countTrue_le (m : Mask) : countTrue m ≤ 64 :=
  List.countP_le_length.trans_eq List.length_finRange

/-- A count of lanes is a small number, which a word holds as it is (R221). -/
theorem toInt_countTrue (m : Mask) : (BitVec.ofNat 32 (countTrue m)).toInt = (countTrue m : Int) := by
  have hle := countTrue_le m
  rw [BitVec.toInt_ofNat']
  exact Int.bmod_eq_of_le (by omega) (by omega)

/-- `POP` writes the number of true lanes of the mask its head entry captured. -/
theorem exec_pop_writesScalar (d : SReg) {s : State} {m : Mask} (hm : s.snapMask .scalarOps = m) :
    WritesScalar (exec (.pop d) s) s d
      (((Finset.univ : Finset (Fin 64)).filter fun l => m[l.val] = true).card : Int) := by
  rw [← hm, ← countTrue_eq_card, ← toInt_countTrue]
  exact writesScalar_writeS s d _

theorem State.snapMask_of_head {s : State} {c : QueueClass} {e : Entry} {rest : List Entry} {m : Mask}
    (hq : s.queue c = e :: rest) (hm : e.snapMask = some m) : s.snapMask c = m := by
  simp [State.snapMask, hq, hm]

/-- Settles O16: the count of the captured mask, whose lanes `truthMask_iff` reads when it is that of VMR. -/
theorem popCountsTheTrueMaskLanes : Obligations.PopCountsTheTrueMaskLanes := by
  intro s d
  refine ⟨exec_pop_writesScalar d rfl, fun e rest m hq hm => exec_pop_writesScalar d (State.snapMask_of_head hq hm),
    fun hvmr => ?_, rfl, rfl, rfl⟩
  have hpop := exec_pop_writesScalar d hvmr
  simpa only [truthMask_iff] using hpop

/-! ### `MFCL` (R223) -/

theorem State.snapVLR_of_head {s : State} {c : QueueClass} {e : Entry} {rest : List Entry} {v : Word}
    (hq : s.queue c = e :: rest) (hv : e.snapVLR = some v) : s.snapVLR c = v := by
  simp [State.snapVLR, hq, hv]

/-- `MFCL` writes the VLR its head entry captured, unclamped. -/
theorem exec_mfcl_writesScalar (d : SReg) {s : State} {v : Word} (hv : s.snapVLR .scalarOps = v) :
    WritesScalar (exec (.mfcl d) s) s d v.toInt := by
  rw [← hv]
  exact writesScalar_writeS s d _

/-- Settles O18: `MFCL` writes `snapVLR`, which is the head entry's where it captured one. -/
theorem moveFromLengthWritesTheCapturedVlr : Obligations.MoveFromLengthWritesTheCapturedVlr := fun _ d =>
  ⟨fun _ _ _ hq hv => exec_mfcl_writesScalar d (State.snapVLR_of_head hq hv), exec_mfcl_writesScalar d rfl, rfl, rfl, rfl⟩

/-! ### `B` (R230, R231) -/

/-- A target below 0 or above the end of IMEM is illegal (R231). -/
theorem legalTarget_eq_false {v : Int} (h : v < 0 ∨ 65536 < v) : legalTarget v = false := by
  refine Bool.eq_false_iff.2 fun hlegal => ?_
  obtain ⟨hlo, hhi⟩ : 0 ≤ v ∧ v ≤ 65536 := (legalTarget_iff v).1 hlegal
  omega

/-- Settles O19: the two answers of `exec_b_of_dl`. -/
theorem branchRedirectsFetchOrFaults : Obligations.BranchRedirectsFetchOrFaults := by
  intro s r off hdl _
  rw [exec_b_of_dl off hdl]
  refine ⟨fun hin => ?_, fun hout => ?_⟩
  · rw [if_pos ((legalTarget_iff _).2 hin)]
    rfl
  · rw [if_neg (by simp [legalTarget_eq_false hout])]
    rfl

/-! ### The cycle that dispatches `B` (R230, R231) -/

/-- The registers a branch names are none, so that only a full queue stalls it. -/
theorem State.stallReason_of_branch {s : State} {r : Record} {off : Int} (hb : r.instr = .b off)
    (hroom : s.qScalar.length < s.cfg.scalarQueueDepth) : s.stallReason r = none := by
  refine State.stallReason_of_free (fun x hx => ?_) ?_
  · rw [hb] at hx
    cases hx
  · rw [hb]
    exact hroom

/-- The accepted dispatch of a branch marks nothing and captures nothing. -/
theorem State.issue_of_branch {r : Record} {off : Int} (hb : r.instr = .b off) (s : State) :
    s.issue r = { s with
      dl := none
      qScalar := s.qScalar ++ [{ record := r, elapsed := 0, snapVL := none, snapVLR := none, snapMask := none }] } := by
  rw [State.issue, State.newEntry, hb]
  rfl

section

variable {s : State} {r : Record} {off : Int}

/-- What a dispatched branch leaves: with a legal target, fetch redirected, its entry appended, and decode and fetch squashed;
else the raise alone (R230, R231). -/
theorem dispatchPhase_of_branch (hs : s.halted = false) (hdl : s.dl = some r) (hb : r.instr = .b off)
    (hst : s.stallReason r = none) :
    dispatchPhase s = .next (if legalTarget ((r.p : Int) + off) = true then
        { state := (s.redirect ((r.p : Int) + off)).issue r, stalled := none, squashed := true }
      else
        { state := s.raise (branchTargetFault r.p ((r.p : Int) + off)), stalled := none, squashed := false }) := by
  have hmnemonic : r.instr.mnemonic = .b := by rw [hb]; rfl
  have hphase : dispatchPhase s = s.dispatchRecord r := by simp [dispatchPhase, hdl, hst]
  rw [hphase, State.dispatchRecord, if_pos hmnemonic, hb, exec_b_of_dl off hdl]
  split
  · have hrun : (s.redirect ((r.p : Int) + off)).halted = false := hs
    have henqueue := (s.redirect ((r.p : Int) + off)).enqueue_of_free r (State.stallReason_eq_none hst).1
    rw [andThen_next, if_neg (by simp [hrun]), henqueue]
    rfl
  · rw [andThen_next, if_pos (State.raise_halted ..)]

/-- After a raise or a squash at dispatch, the cycle ends at once (R252). -/
theorem afterExecute_of_ended {f : Flow} (hs : s.halted = false) (hf : dispatchPhase s = .next f)
    (hend : f.state.halted = true ∨ f.squashed = true) : afterExecute s = .next (endCycle f.stalled f.state) := by
  rcases hend with h | h <;> simp [afterExecute, hs, hf, h]

end

/-- Settles O20: the two flows of a dispatched branch, each of which ends the cycle. -/
theorem dispatchedBranchSquashesTheFrontEnd : Obligations.DispatchedBranchSquashesTheFrontEnd := by
  intro s r off hs hdl hb hroom
  have hphase := dispatchPhase_of_branch hs hdl hb (State.stallReason_of_branch hb hroom)
  refine ⟨by rw [hb]; exact ⟨rfl, rfl⟩, fun hin => ?_, fun hout => ?_⟩
  · rw [if_pos ((legalTarget_iff _).2 hin), State.issue_of_branch hb] at hphase
    exact afterExecute_of_ended hs hphase (.inr rfl)
  · rw [if_neg (by simp [legalTarget_eq_false hout])] at hphase
    exact afterExecute_of_ended hs hphase (.inl rfl)

end Sys2Proof.Machine
end

section
/-! PROOFS. The cycle as a whole: how it ends, the order of its phases, and the cycle that runs a placed line
(`44_pipeline_controller.md` R250 to R261; log 6, log 8). -/

namespace Sys2Proof.Machine

/-! ### The end of a cycle (R259 to R261) -/

theorem State.drained_iff (s : State) : s.drained = true ↔
    s.progLen ≤ s.pc ∧ s.fl = none ∧ s.dl = none ∧ s.qCompute = [] ∧ s.qData = [] ∧ s.qScalar = [] := by
  simp [State.drained, and_assoc]

theorem State.limitReached_iff (s : State) : s.limitReached = true ↔ ∃ n, s.cfg.maxCycles = some n ∧ n ≤ s.cycle := by
  cases hmax : s.cfg.maxCycles <;> simp [State.limitReached, hmax]

/-- The end of a cycle, with its tests read off the state before the count. -/
theorem endCycle_eq (stalled : Option StallReason) (s : State) :
    endCycle stalled s =
      if s.halted then { s with cycle := s.cycle + 1 }
      else if s.drained then { s with cycle := s.cycle + 1, status := .haltedNormal }
      else if ({ s with cycle := s.cycle + 1 } : State).limitReached then
        ({ s with cycle := s.cycle + 1 } : State).raise cycleLimitRecord
      else { s with
        cycle := s.cycle + 1
        status := (match stalled with | some reason => .stalled reason | none => .running) } := by
  cases stalled <;> rfl

theorem endCycle_of_halted {s : State} (stalled : Option StallReason) (hs : s.halted = true) :
    endCycle stalled s = { s with cycle := s.cycle + 1 } := by
  rw [endCycle_eq, if_pos hs]

theorem endCycle_of_drained {s : State} (stalled : Option StallReason) (hs : s.halted = false) (hd : s.drained = true) :
    endCycle stalled s = { s with cycle := s.cycle + 1, status := .haltedNormal } := by
  rw [endCycle_eq, if_neg (Bool.eq_false_iff.1 hs), if_pos hd]

theorem endCycle_of_limit {s : State} (stalled : Option StallReason) (hs : s.halted = false) (hd : s.drained = false)
    (hlimit : ∃ n, s.cfg.maxCycles = some n ∧ n ≤ s.cycle + 1) :
    endCycle stalled s = ({ s with cycle := s.cycle + 1 } : State).raise cycleLimitRecord := by
  rw [endCycle_eq, if_neg (Bool.eq_false_iff.1 hs), if_neg (Bool.eq_false_iff.1 hd),
    if_pos ((State.limitReached_iff _).2 hlimit)]

/-- Neither drained nor at the cycle limit, the core goes on. -/
theorem endCycle_of_going_on {s : State} (stalled : Option StallReason) (hs : s.halted = false) (hd : s.drained = false)
    (hlimit : ∀ n, s.cfg.maxCycles = some n → s.cycle + 1 < n) :
    endCycle stalled s = { s with
      cycle := s.cycle + 1
      status := (match stalled with | some reason => .stalled reason | none => .running) } := by
  have hbelow : ¬ ({ s with cycle := s.cycle + 1 } : State).limitReached = true := fun hreached => by
    obtain ⟨n, hmax, hle⟩ := (State.limitReached_iff _).1 hreached
    exact Nat.not_lt.2 hle (hlimit n hmax)
  rw [endCycle_eq, if_neg (Bool.eq_false_iff.1 hs), if_neg (Bool.eq_false_iff.1 hd), if_neg hbelow]

/-- Settles O45: the four branches of `endCycle`, in their order. -/
theorem cycleEndsByRaiseDrainLimitOrStall : Obligations.CycleEndsByRaiseDrainLimitOrStall :=
  ⟨fun stalled _ => ⟨endCycle_of_halted stalled, endCycle_of_drained stalled, endCycle_of_limit stalled,
    endCycle_of_going_on stalled⟩, State.drained_iff⟩

/-- Settles O29, by the two statuses in which `State.halted` holds. -/
theorem haltedStatesAreAbsorbing : Obligations.HaltedStatesAreAbsorbing := fun s hs =>
  step_halted s (s.halted_iff.2 hs)

/-! ### The order of the phases (R252, R253) -/

/-- A raise in a unit's share skips the units after it. -/
theorem unlessHalted_of_halted {s : State} (f : State → Host.Outcome State Fault Refusal) (hs : s.halted = true) :
    unlessHalted f s = .next s :=
  if_pos hs

theorem unlessHalted_of_running {s : State} (f : State → Host.Outcome State Fault Refusal) (hs : s.halted = false) :
    unlessHalted f s = f s :=
  if_neg (Bool.eq_false_iff.1 hs)

/-- The execute phase, from the shares of the three units. -/
theorem executePhase_of_shares {s s1 s2 s3 : State} (h1 : advanceUnit .vectorCompute s = .next s1)
    (h2 : unlessHalted (advanceUnit .vectorData) s1 = .next s2) (h3 : unlessHalted (advanceUnit .scalarOps) s2 = .next s3) :
    executePhase s = .next s3 := by
  rw [executePhase, h1, andThen_next, h2, andThen_next, h3]

/-- A legally configured core that is not halted ends its step by what follows the execute phase. -/
theorem step_of_execute {s t : State} (hs : s.halted = false) (hc : legalConfig s.cfg = true)
    (h : executePhase s = .next t) : step s = afterExecute t := by
  rw [step_running s hs hc, runCycle, h, andThen_next]

theorem afterExecute_of_halted {s : State} (hs : s.halted = true) : afterExecute s = .next (endCycle none s) :=
  if_pos hs

/-- After a dispatch that neither raised, stalled nor squashed, decode and fetch run. -/
theorem afterExecute_of_front {s : State} {f : Flow} (hs : s.halted = false) (hf : dispatchPhase s = .next f)
    (hrun : f.state.halted = false) (hst : f.stalled = none) (hsq : f.squashed = false) :
    afterExecute s = .next (endCycle none (frontEnd f.state)) := by
  simp [afterExecute, hs, hf, hrun, hst, hsq]

/-- A raise in the execute phase ends the cycle with the counter alone. -/
theorem step_of_execute_raised {s t : State} (hs : s.halted = false) (hc : legalConfig s.cfg = true)
    (h : executePhase s = .next t) (ht : t.halted = true) : step s = .next { t with cycle := t.cycle + 1 } := by
  rw [step_of_execute hs hc h, afterExecute_of_halted ht, endCycle_of_halted none ht]

/-- Settles O26, one phase after the other. -/
theorem stepRunsThePhasesInOrder : Obligations.StepRunsThePhasesInOrder := by
  intro s hs hc s1 h1
  refine ⟨fun hraise1 => ?_, fun hrun1 s2 h2 => ⟨fun hraise2 => ?_, fun hrun2 s3 h3 => ?_⟩⟩
  · exact step_of_execute_raised hs hc
      (executePhase_of_shares h1 (unlessHalted_of_halted _ hraise1) (unlessHalted_of_halted _ hraise1)) hraise1
  · exact step_of_execute_raised hs hc
      (executePhase_of_shares h1 ((unlessHalted_of_running _ hrun1).trans h2) (unlessHalted_of_halted _ hraise2)) hraise2
  · have hexec : executePhase s = .next s3 :=
      executePhase_of_shares h1 ((unlessHalted_of_running _ hrun1).trans h2) ((unlessHalted_of_running _ hrun2).trans h3)
    refine ⟨step_of_execute_raised hs hc hexec, fun hrun3 f hf => ?_⟩
    rw [step_of_execute hs hc hexec]
    refine ⟨fun hraise => ?_, fun hrun => ⟨fun hend => ?_, afterExecute_of_front hrun3 hf hrun⟩⟩
    · rw [afterExecute_of_ended hrun3 hf (.inl hraise), endCycle_of_halted _ hraise]
    · rcases hend with hst | hsq
      · simp [afterExecute, hrun3, hf, hst]
      · exact afterExecute_of_ended hrun3 hf (.inr hsq)

/-! ### A core with one unit at work -/

/-- When the other two queues are empty, one unit's share is the execute phase. -/
theorem executePhase_of_only {s t : State} {c : QueueClass} (hs : s.halted = false)
    (hempty : ∀ c', c' ≠ c → s.queue c' = []) (h : advanceUnit c s = .next t) : executePhase s = .next t := by
  have hshare : UnitResult c s t := unitResult_of_share ((unlessHalted_of_running _ hs).trans h)
  have hbefore : ∀ {c'}, c' ≠ c → advanceUnit c' s = .next s := fun hne => advanceUnit_of_empty (hempty _ hne)
  have hafter : ∀ {c'}, c' ≠ c → unlessHalted (advanceUnit c') t = .next t := fun {c'} hne => by
    have hq : t.queue c' = [] := (hshare.queue_other hne).trans (hempty c' hne)
    rw [unlessHalted, advanceUnit_of_empty hq, ite_self]
  cases c with
  | vectorCompute => exact executePhase_of_shares h (hafter (by decide)) (hafter (by decide))
  | vectorData =>
    exact executePhase_of_shares (hbefore (by decide)) ((unlessHalted_of_running _ hs).trans h) (hafter (by decide))
  | scalarOps =>
    exact executePhase_of_shares (hbefore (by decide)) ((unlessHalted_of_running _ hs).trans (hbefore (by decide)))
      ((unlessHalted_of_running _ hs).trans h)

/-- With all queues empty the execute phase does nothing. -/
theorem executePhase_of_empty {s : State} (hs : s.halted = false) (hempty : ∀ c, s.queue c = []) :
    executePhase s = .next s :=
  executePhase_of_only (c := .vectorCompute) hs (fun c _ => hempty c) (advanceUnit_of_empty (hempty _))

theorem dispatchPhase_of_dl_none {s : State} (hdl : s.dl = none) :
    dispatchPhase s = .next { state := s, stalled := none, squashed := false } := by
  simp [dispatchPhase, hdl]

/-- With DL empty dispatch does nothing, so that the front end and the end of the cycle follow (R254). -/
theorem afterExecute_of_dl_none {s : State} (hs : s.halted = false) (hdl : s.dl = none) :
    afterExecute s = .next (endCycle none (frontEnd s)) :=
  afterExecute_of_front hs (dispatchPhase_of_dl_none hdl) hs rfl rfl


/-! ### The placed line (log 6, log 8) -/

theorem decodeLine_of_decodeTableWord {nbits w : Nat} {i : Instr} (h : decodeTableWord nbits w = some i) :
    decodeLine true (lineOfWord nbits w) = .ok i := by
  unfold decodeTableWord at h
  split at h
  · next j hj => rw [hj, Option.some.inj h]
  · cases h

theorem State.withFetchWord_of_decoded {nbits w : Nat} {i : Instr} (h : decodeTableWord nbits w = some i) (s : State) :
    s.withFetchWord nbits w = s.withInstr i (lineOfWord nbits w) := by
  rw [State.withFetchWord, State.withLine, decodeLine_of_decodeTableWord h]

theorem State.withInstr_halted (s : State) (i : Instr) (toks : Line) : (s.withInstr i toks).halted = false := by
  unfold State.withInstr
  split
  · rfl
  · exact State.setQueue_halted ..

/-- Placing an instruction changes the extension switch only. -/
theorem State.withInstr_cfg (s : State) (i : Instr) (toks : Line) :
    (s.withInstr i toks).cfg = { s.cfg with vdataExt := s.cfg.vdataExt || i.isExtension } := by
  unfold State.withInstr
  split
  · rfl
  · exact State.setQueue_cfg ..

theorem State.withInstr_legalConfig {s : State} (h : legalConfig s.cfg = true) (i : Instr) (toks : Line) :
    legalConfig (s.withInstr i toks).cfg = true := by
  rw [State.withInstr_cfg]
  exact h

/-- The record of a placed instruction. -/
def State.placedRecord (s : State) (i : Instr) (toks : Line) : Record := makeRecord (s.withInstr i toks).cfg s.pc i

/-- A placed `B` stands in DL, and all queues are empty. -/
theorem State.withInstr_of_branch {i : Instr} (hb : i.mnemonic = .b) (s : State) (toks : Line) :
    (s.withInstr i toks).dl = some (s.placedRecord i toks) ∧ ∀ c, (s.withInstr i toks).queue c = [] := by
  rw [State.placedRecord, State.withInstr_cfg, State.withInstr, if_pos hb]
  exact ⟨rfl, fun c => by cases c <;> rfl⟩

/-- A placed instruction other than `B` is the only entry in flight, its timer one short of its latency. -/
theorem State.withInstr_queue {i : Instr} (hb : i.mnemonic ≠ .b) (s : State) (toks : Line) :
    (∃ e, (s.withInstr i toks).queue i.queueClass = [e] ∧ e.record = s.placedRecord i toks ∧
        e.elapsed = e.record.cycleLatency - 1) ∧
      ∀ c, c ≠ i.queueClass → (s.withInstr i toks).queue c = [] := by
  rw [State.placedRecord, State.withInstr_cfg, State.withInstr, if_neg hb]
  refine ⟨⟨_, State.setQueue_queue_same .., rfl, rfl⟩, fun c hc => (State.setQueue_queue_other _ _ _ _ hc).trans ?_⟩
  cases c <;> rfl

/-- A placed instruction other than `B` holds its registers, and DL is empty. -/
theorem State.withInstr_holds {i : Instr} (hb : i.mnemonic ≠ .b) (s : State) (toks : Line) :
    (s.withInstr i toks).holdsAll (markSet i) = true ∧ (s.withInstr i toks).dl = none := by
  rw [State.withInstr, if_neg hb]
  refine ⟨(State.holdsAll_eq_true _ _).2 fun x hx => ?_, State.setQueue_dl ..⟩
  exact (Scoreboard.get_putAll _ _ _ _).trans (if_pos hx)

/-! ### The cycle that runs one instruction -/

/-- Every queue of a legal configuration has room for an entry (R7, R313). -/
theorem cap_pos {s : State} (hc : legalConfig s.cfg = true) (c : QueueClass) : 0 < s.cap c := by
  simp only [legalConfig, Bool.and_eq_true, decide_eq_true_eq] at hc
  obtain ⟨⟨⟨⟨⟨⟨hcompute, hdata⟩, hscalar⟩, -⟩, -⟩, -⟩, -⟩ := hc
  cases c with
  | vectorCompute => exact hcompute
  | vectorData => exact hdata
  | scalarOps => exact hscalar

/-- A step in which the only entry in flight is due and DL is empty: the entry's instruction runs on the ticked state, then
it retires, the front end runs and the cycle ends; a raise ends the cycle at once (R132, R252). -/
theorem step_of_only_due {s t : State} {c : QueueClass} {e : Entry} (hs : s.halted = false)
    (hc : legalConfig s.cfg = true) (hq : s.queue c = [e]) (hempty : ∀ c', c' ≠ c → s.queue c' = [])
    (hdue : e.elapsed + 1 = e.record.cycleLatency) (hb : e.record.instr.mnemonic ≠ .b)
    (hheld : s.holdsAll (markSet e.record.instr) = true) (hdl : s.dl = none)
    (ht : exec e.record.instr (s.tickHead c) = .next t) :
    (t.halted = true → step s = .next (endCycle none t)) ∧
      (t.halted = false → step s = .next (endCycle none (frontEnd (t.retireHead c e.record)))) := by
  have hadv := advanceUnit_of_due hq hdue ((completeEntry_of_ne_branch hb _).trans ht)
  refine ⟨fun hraise => ?_, fun hrun => ?_⟩
  · rw [if_pos hraise] at hadv
    rw [step_of_execute hs hc (executePhase_of_only hs hempty hadv), afterExecute_of_halted hraise]
  · rw [if_neg (Bool.eq_false_iff.1 hrun), if_pos hheld] at hadv
    have htdl : t.dl = none := by
      obtain ⟨eff, -, heff⟩ := exec_eq_next ht
      rw [(Effect.sameControl heff).dl, State.tickHead_dl, hdl]
    rw [step_of_execute hs hc (executePhase_of_only hs hempty hadv),
      afterExecute_of_dl_none ((t.retireHead_halted c _).trans hrun) ((t.retireHead_dl c _).trans htdl)]

/-- A step in which a `B` in DL meets empty queues: its effect at dispatch, its entry appended, and the end of the cycle; a
raise ends the cycle at once (R230, R231, R252). -/
theorem step_of_lone_branch {s t : State} {r : Record} (hs : s.halted = false) (hc : legalConfig s.cfg = true)
    (hempty : ∀ c, s.queue c = []) (hdl : s.dl = some r) (hb : r.instr.mnemonic = .b) (ht : exec r.instr s = .next t) :
    (t.halted = true → step s = .next (endCycle none t)) ∧
      (t.halted = false → step s = .next (endCycle none (t.enqueue r))) := by
  have hst : s.stallReason r = none := by
    obtain ⟨off, hoff⟩ := eq_b_of_mnemonic hb
    have hscalar : s.qScalar = [] := hempty .scalarOps
    exact State.stallReason_of_branch hoff (by rw [hscalar]; exact cap_pos hc .scalarOps)
  have hphase : dispatchPhase s = .next (if t.halted then { state := t, stalled := none, squashed := false }
      else { state := t.enqueue r, stalled := none, squashed := true }) := by
    simp only [dispatchPhase, hdl, hst, State.dispatchRecord, if_pos hb, ht, andThen_next]
    split <;> rfl
  rw [step_of_execute hs hc (executePhase_of_empty hs hempty)]
  refine ⟨fun hraise => ?_, fun hrun => ?_⟩
  · rw [if_pos hraise] at hphase
    exact afterExecute_of_ended hs hphase (.inl hraise)
  · rw [if_neg (Bool.eq_false_iff.1 hrun)] at hphase
    exact afterExecute_of_ended hs hphase (.inr rfl)

/-- Settles O27: a placed instruction is the only one in flight, due in the next cycle, or a `B` alone in DL. -/
theorem stepRunsThePlacedInstruction : Obligations.StepRunsThePlacedInstruction := by
  intro s nbits w i t hc hdecode
  rw [State.withFetchWord_of_decoded hdecode s]
  have hs := s.withInstr_halted i (lineOfWord nbits w)
  have hc' := State.withInstr_legalConfig hc i (lineOfWord nbits w)
  refine ⟨fun hb ht => ?_, fun hb ht => ?_⟩
  · obtain ⟨⟨e, hq, hrecord, helapsed⟩, hempty⟩ := State.withInstr_queue hb s (lineOfWord nbits w)
    obtain ⟨hheld, hdl⟩ := State.withInstr_holds hb s (lineOfWord nbits w)
    have hinstr : e.record.instr = i := congrArg Record.instr hrecord
    have hpos : 0 < e.record.cycleLatency := by
      rw [hrecord]
      exact latency_pos hc' i.mnemonic
    have hstep := step_of_only_due hs hc' hq hempty (by omega) (by rwa [hinstr]) (by rwa [hinstr]) hdl (by rwa [hinstr])
    rwa [hrecord] at hstep
  · obtain ⟨hdl, hempty⟩ := State.withInstr_of_branch hb s (lineOfWord nbits w)
    exact step_of_lone_branch hs hc' hempty hdl hb ht

end Sys2Proof.Machine
end

section
/-! PROOFS. A program of one instruction from fetch to its normal halt (`44_pipeline_controller.md` R264; log 7). -/

namespace Sys2Proof.Machine

/-! ### What a meaning reads (log 7) -/

/-- The data of `s`, which meanings read and write, with the control of `b`, which they leave alone. -/
def State.withControl (s b : State) : State :=
  { s with
    pc := b.pc, cycle := b.cycle, status := b.status, fl := b.fl, dl := b.dl
    qCompute := b.qCompute, qData := b.qData, qScalar := b.qScalar, busy := b.busy, err := b.err }

/-- The unit of `Q[c]` finds the same snapshots in `w` as in `s`. -/
structure SameSnapshots (c : QueueClass) (s w : State) : Prop where
  vl : w.snapVL c = s.snapVL c
  vlr : w.snapVLR c = s.snapVLR c
  mask : w.snapMask c = s.snapMask c

theorem SameSnapshots.active {c : QueueClass} {s w : State} (h : SameSnapshots c s w) : w.active c = s.active c := by
  funext l
  rw [State.active, State.active, h.vl, h.mask]

section

variable {s b t : State}

theorem computeLanes_withControl {m : Mnemonic} {d : VReg} {op : Fin 64 → LaneResult}
    (hsnap : SameSnapshots .vectorCompute s (s.withControl b)) (hrun : t.halted = false)
    (h : computeLanes m d op s = .next t) : computeLanes m d op (s.withControl b) = .next (t.withControl b) := by
  rcases computeLanes_cases m d op s with ⟨l, det, -, h'⟩ | ⟨hnone, h'⟩
  · obtain rfl := next_unique h h'
    cases hrun
  · obtain rfl := next_unique h h'
    rw [computeLanes, hsnap.active, hnone]
    rfl

theorem firstBadAddress_withControl (hsnap : SameSnapshots .vectorData s (s.withControl b)) (addr : Fin 64 → Int) :
    (s.withControl b).firstBadAddress addr = s.firstBadAddress addr := by
  rw [State.firstBadAddress, hsnap.active]
  rfl

theorem loadLanes_withControl {m : Mnemonic} {d : VReg} {addr : Fin 64 → Int}
    (hsnap : SameSnapshots .vectorData s (s.withControl b)) (hrun : t.halted = false)
    (h : loadLanes m d addr s = .next t) : loadLanes m d addr (s.withControl b) = .next (t.withControl b) := by
  rcases loadLanes_cases m d addr s with ⟨l, a, -, h'⟩ | ⟨hnone, h'⟩
  · obtain rfl := next_unique h h'
    cases hrun
  · obtain rfl := next_unique h h'
    rw [loadLanes, firstBadAddress_withControl hsnap addr, hnone, hsnap.active]
    rfl

theorem storeLanes_withControl {m : Mnemonic} {v : VReg} {addr : Fin 64 → Int}
    (hsnap : SameSnapshots .vectorData s (s.withControl b)) (hrun : t.halted = false)
    (h : storeLanes m v addr s = .next t) : storeLanes m v addr (s.withControl b) = .next (t.withControl b) := by
  rcases storeLanes_cases m v addr s with ⟨l, a, -, h'⟩ | ⟨hnone, h'⟩
  · obtain rfl := next_unique h h'
    cases hrun
  · obtain rfl := next_unique h h'
    rw [storeLanes, firstBadAddress_withControl hsnap addr, hnone, hsnap.active]
    rfl

/-- An instruction other than `B` that raises nothing reads the data and its snapshots, and writes data only. -/
theorem exec_withControl {i : Instr} (hsnap : SameSnapshots i.queueClass s (s.withControl b)) (hb : i.mnemonic ≠ .b)
    (hrun : t.halted = false) (h : exec i s = .next t) : exec i (s.withControl b) = .next (t.withControl b) := by
  cases i with
  | addvv | subvv | mulvv | divvv => exact computeLanes_withControl hsnap hrun h
  | unpacklo | unpackhi | packlo | packhi => exact computeLanes_withControl hsnap hrun h
  | addvs | subvs | mulvs | divvs => exact computeLanes_withControl hsnap hrun h
  | lv | lvws => exact loadLanes_withControl hsnap hrun h
  | sv | svws => exact storeLanes_withControl hsnap hrun h
  | pop d =>
    obtain rfl := Host.Outcome.next.inj h
    have hmask : (s.withControl b).snapMask .scalarOps = s.snapMask .scalarOps := hsnap.mask
    rw [exec, execPop, hmask]
    rfl
  | mfcl d =>
    obtain rfl := Host.Outcome.next.inj h
    have hvlr : (s.withControl b).snapVLR .scalarOps = s.snapVLR .scalarOps := hsnap.vlr
    rw [exec, execMfcl, hvlr]
    rfl
  | mtcl r =>
    obtain rfl := Host.Outcome.next.inj h
    rfl
  | b off => exact absurd rfl hb

end

/-- An instruction other than `B` that raises nothing leaves the control as it was. -/
theorem exec_eq_withControl {i : Instr} {s t : State} (hb : i.mnemonic ≠ .b) (hrun : t.halted = false)
    (h : exec i s = .next t) : t = t.withControl s :=
  next_unique h (exec_withControl (b := s) ⟨rfl, rfl, rfl⟩ hb hrun h)

/-! ### The front end at the end of the program (R255, R257) -/

theorem decodePhase_of_empty {s : State} (hfl : s.fl = none) : decodePhase s = s := by
  simp [decodePhase, hfl]

theorem frontEnd_of_fetch {s : State} {toks : Line} (hs : s.halted = false) (hfl : s.fl = none) (hpc : s.pc < s.progLen)
    (hline : Memory.lookup s.imem s.pc = some toks) :
    frontEnd s = { s with fl := some { p := s.pc, toks := toks }, pc := s.pc + 1 } := by
  rw [frontEnd, decodePhase_of_empty hfl, if_neg (Bool.eq_false_iff.1 hs), fetchPhase_of_line hpc hline]

/-- Past the program, decode runs alone. -/
theorem frontEnd_of_decode {s : State} {f : Fetched} {i : Instr} (hs : s.halted = false) (hfl : s.fl = some f)
    (hdecode : decodeLine s.cfg.vdataExt f.toks = .ok i) (hpc : s.progLen ≤ s.pc) :
    frontEnd s = { s with dl := some (makeRecord s.cfg f.p i), fl := none } := by
  have hphase : decodePhase s = { s with dl := some (makeRecord s.cfg f.p i), fl := none } := by
    simp [decodePhase, hfl, decode, hdecode]
  rw [frontEnd, hphase, if_neg (by simpa [State.halted] using hs)]
  exact fetchPhase_of_end hpc

theorem frontEnd_of_empty {s : State} (hs : s.halted = false) (hfl : s.fl = none) (hpc : s.progLen ≤ s.pc) :
    frontEnd s = s := by
  rw [frontEnd, decodePhase_of_empty hfl, if_neg (Bool.eq_false_iff.1 hs), fetchPhase_of_end hpc]

/-- A drained core has nothing to decode and nothing to fetch, and halts. -/
theorem endCycle_frontEnd_of_drained {s : State} (hs : s.halted = false) (hd : s.drained = true) :
    endCycle none (frontEnd s) = { s with cycle := s.cycle + 1, status := .haltedNormal } := by
  obtain ⟨hpc, hfl, -⟩ := s.drained_iff.1 hd
  rw [frontEnd_of_empty hs hfl hpc, endCycle_of_drained none hs hd]

/-! ### A cycle after which the core goes on -/

theorem State.halted_of_running {s : State} (h : s.status = .running) : s.halted = false := by
  rw [State.halted, h]

theorem State.drained_of_queue {s : State} {c : QueueClass} (hq : s.queue c ≠ []) : s.drained = false :=
  Bool.eq_false_iff.2 fun hd => by
    obtain ⟨-, -, -, hcompute, hdata, hscalar⟩ := s.drained_iff.1 hd
    cases c with
    | vectorCompute => exact hq hcompute
    | vectorData => exact hq hdata
    | scalarOps => exact hq hscalar

/-- A running core that has not drained and has no cycle limit ends its cycle by the count alone. -/
theorem endCycle_of_running {s : State} (hstatus : s.status = .running) (hd : s.drained = false)
    (hmax : s.cfg.maxCycles = none) : endCycle none s = { s with cycle := s.cycle + 1 } := by
  rw [endCycle_of_going_on none (State.halted_of_running hstatus) hd (by simp [hmax]), ← hstatus]

/-- One step whose phases raise nothing, stall nothing and squash nothing, of a core that goes on. -/
theorem step_of_phases {s s1 s2 s3 : State} (hexec : executePhase s = .next s1) (hc : legalConfig s.cfg = true)
    (hdispatch : dispatchPhase s1 = .next { state := s2, stalled := none, squashed := false }) (hfront : frontEnd s2 = s3)
    (hs : s.status = .running) (hs1 : s1.status = .running) (hs2 : s2.status = .running) (hs3 : s3.status = .running)
    (hd : s3.drained = false) (hmax : s3.cfg.maxCycles = none) : step s = .next { s3 with cycle := s3.cycle + 1 } := by
  rw [step_of_execute (State.halted_of_running hs) hc hexec,
    afterExecute_of_front (State.halted_of_running hs1) hdispatch (State.halted_of_running hs2) rfl rfl, hfront,
    endCycle_of_running hs3 hd hmax]

/-- An entry that captured the snapshots of an idle state gives its unit what the idle state would. -/
theorem sameSnapshots_of_newEntry {c : QueueClass} {s w : State} {r : Record} {n : Nat} (hs : s.queue c = [])
    (hw : w.queue c = [{ s.newEntry r with elapsed := n }]) (hvlr : w.vlr = s.vlr) (hvmr : w.vmr = s.vmr) :
    SameSnapshots c s w where
  vl := by cases h : capturesVL r.instr <;> simp [State.snapVL, State.newEntry, hs, hw, hvlr, h]
  vlr := by cases h : capturesVLR r.instr <;> simp [State.snapVLR, State.newEntry, hs, hw, hvlr, h]
  mask := by cases h : capturesMask r.instr <;> simp [State.snapMask, State.newEntry, hs, hw, hvmr, h]

/-- Freeing what was marked on a free scoreboard frees it. -/
theorem Scoreboard.putAll_true_false_of_free (xs : List RegName) :
    (Scoreboard.free.putAll xs true).putAll xs false = Scoreboard.free := by
  refine Scoreboard.ext_get _ _ fun x => ?_
  rw [Scoreboard.get_putAll, Scoreboard.get_putAll, Scoreboard.get_free]
  split <;> rfl

/-! ### The states of a one-instruction run (R264) -/

theorem Idle.queue {s : State} (h : Idle s) (c : QueueClass) : s.queue c = [] := by
  cases c with
  | vectorCompute => exact h.compute
  | vectorData => exact h.data
  | scalarOps => exact h.scalar

/-- The record of the idle core's next instruction. -/
def State.nextRecord (s : State) (i : Instr) : Record := makeRecord s.cfg s.pc i

/-- One cycle after `s`: the line at `pc` in FL. -/
def State.afterFetch (s : State) (toks : Line) : State :=
  { s with pc := s.pc + 1, cycle := s.cycle + 1, fl := some { p := s.pc, toks := toks } }

/-- Two cycles after `s`: the record of that line in DL. -/
def State.afterDecode (s : State) (i : Instr) : State :=
  { s with pc := s.pc + 1, cycle := s.cycle + 2, dl := some (s.nextRecord i) }

/-- The entry of that record, with `k` cycles counted on its timer. -/
def State.soleEntry (s : State) (i : Instr) (k : Nat) : Entry := { s.newEntry (s.nextRecord i) with elapsed := k }

/-- `k + 3` cycles after `s`: that entry alone in flight, with `k` cycles counted. -/
def State.afterTicks (s : State) (i : Instr) (k : Nat) : State :=
  { s.setQueue i.queueClass [s.soleEntry i k] with
    pc := s.pc + 1
    cycle := s.cycle + (k + 3)
    busy := s.busy.putAll (markSet i) true }

theorem State.afterTicks_queue_same (s : State) (i : Instr) (k : Nat) :
    (s.afterTicks i k).queue i.queueClass = [s.soleEntry i k] :=
  s.setQueue_queue_same i.queueClass _

theorem Idle.afterTicks_queue_other {s : State} (h : Idle s) (i : Instr) (k : Nat) {c : QueueClass}
    (hc : c ≠ i.queueClass) : (s.afterTicks i k).queue c = [] :=
  (s.setQueue_queue_other i.queueClass c _ hc).trans (h.queue c)

section

variable {s : State} {toks : Line} {i : Instr}

theorem Idle.step_fetches (h : Idle s) (hc : legalConfig s.cfg = true) (hmax : s.cfg.maxCycles = none)
    (hpc : s.pc < s.progLen) (hline : Memory.lookup s.imem s.pc = some toks) : step s = .next (s.afterFetch toks) := by
  have hs := State.halted_of_running h.running
  exact step_of_phases (executePhase_of_empty hs h.queue) hc (dispatchPhase_of_dl_none h.dl)
    (frontEnd_of_fetch hs h.fl hpc hline) h.running h.running h.running h.running (by simp [State.drained]) hmax

theorem Idle.step_decodes (h : Idle s) (hc : legalConfig s.cfg = true) (hmax : s.cfg.maxCycles = none)
    (hend : s.progLen ≤ s.pc + 1) (hdecode : decodeLine s.cfg.vdataExt toks = .ok i) :
    step (s.afterFetch toks) = .next (s.afterDecode i) := by
  have hs : (s.afterFetch toks).halted = false := State.halted_of_running h.running
  have hqueue : ∀ c, (s.afterFetch toks).queue c = [] := fun c => by
    rw [← h.queue c]
    cases c <;> rfl
  have hfront := frontEnd_of_decode (s := s.afterFetch toks) hs rfl hdecode hend
  have hstep := step_of_phases (executePhase_of_empty hs hqueue) hc (dispatchPhase_of_dl_none h.dl)
    hfront h.running h.running h.running h.running (State.drained_of_dl rfl) hmax
  rw [hstep, State.afterDecode, ← h.fl]
  rfl

/-- The accepted dispatch of the decoded record, before the count of its cycle. -/
theorem Idle.issue_afterDecode (h : Idle s) :
    (s.afterDecode i).issue (s.nextRecord i) = { s.afterTicks i 0 with cycle := s.cycle + 2 } := by
  obtain ⟨-, -, -, hdl, hcompute, hdata, hscalar, -⟩ := h
  cases s
  subst hdl hcompute hdata hscalar
  cases i <;> rfl

theorem Idle.step_dispatches (h : Idle s) (hc : legalConfig s.cfg = true) (hmax : s.cfg.maxCycles = none)
    (hend : s.progLen ≤ s.pc + 1) (hb : i.mnemonic ≠ .b) : step (s.afterDecode i) = .next (s.afterTicks i 0) := by
  have hs : (s.afterDecode i).halted = false := State.halted_of_running h.running
  have hqueue : ∀ c, (s.afterDecode i).queue c = [] := fun c => by
    rw [← h.queue c]
    cases c <;> rfl
  have hfree : (s.afterDecode i).stallReason (s.nextRecord i) = none := by
    refine State.stallReason_of_free (fun x _ => ?_) ?_
    · have hbusy : (s.afterDecode i).busy = Scoreboard.free := h.free
      rw [hbusy, Scoreboard.get_free]
    · rw [hqueue]
      exact cap_pos hc _
  have hissue := dispatchPhase_of_issue (s := s.afterDecode i) rfl hb hfree
  have hstatus : ((s.afterDecode i).issue (s.nextRecord i)).status = .running := (State.issue_status ..).trans h.running
  have hfront : frontEnd ((s.afterDecode i).issue (s.nextRecord i)) = (s.afterDecode i).issue (s.nextRecord i) := by
    refine frontEnd_of_empty ((State.issue_halted ..).trans hs) ((State.issue_fl ..).trans h.fl) ?_
    rw [State.progLen_congr (State.issue_imem ..), State.issue_pc]
    exact hend
  have hdrained : ((s.afterDecode i).issue (s.nextRecord i)).drained = false := by
    refine State.drained_of_queue (c := (s.nextRecord i).instr.queueClass) ?_
    rw [State.issue_queue_same]
    exact List.append_ne_nil_of_right_ne_nil _ (List.cons_ne_nil _ _)
  have hstep := step_of_phases (executePhase_of_empty hs hqueue) hc hissue hfront
    h.running h.running hstatus hstatus hdrained (by rw [State.issue_cfg]; exact hmax)
  rw [hstep, h.issue_afterDecode]
  rfl

theorem State.afterTicks_tickHead (s : State) (i : Instr) (k : Nat) :
    (s.afterTicks i k).tickHead i.queueClass = { s.afterTicks i (k + 1) with cycle := s.cycle + (k + 3) } := by
  rw [State.tickHead_of_cons (s.afterTicks_queue_same i k), State.afterTicks, State.afterTicks]
  cases i.queueClass <;> rfl

/-- A cycle in which the sole entry's timer does not reach its latency. -/
theorem Idle.step_ticks (h : Idle s) (hc : legalConfig s.cfg = true) (hmax : s.cfg.maxCycles = none)
    (hend : s.progLen ≤ s.pc + 1) {k : Nat} (hnot : k + 1 ≠ s.cfg.latency i.mnemonic) :
    step (s.afterTicks i k) = .next (s.afterTicks i (k + 1)) := by
  have hstatus : ∀ k, (s.afterTicks i k).status = .running := fun k => (State.setQueue_status ..).trans h.running
  have hcfg : ∀ k, (s.afterTicks i k).cfg = s.cfg := fun k => State.setQueue_cfg ..
  have hs := State.halted_of_running (hstatus k)
  have hexec : executePhase (s.afterTicks i k) = .next { s.afterTicks i (k + 1) with cycle := s.cycle + (k + 3) } := by
    rw [← State.afterTicks_tickHead]
    exact executePhase_of_only hs (fun c hne => h.afterTicks_queue_other i k hne)
      (advanceUnit_of_not_due (s.afterTicks_queue_same i k) hnot)
  have hdl : (s.afterTicks i (k + 1)).dl = none := (State.setQueue_dl ..).trans h.dl
  have hfl : (s.afterTicks i (k + 1)).fl = none := (State.setQueue_fl ..).trans h.fl
  have hprog : (s.afterTicks i (k + 1)).progLen = s.progLen := State.progLen_congr (State.setQueue_imem ..)
  have hdrained : (s.afterTicks i (k + 1)).drained = false :=
    State.drained_of_queue (c := i.queueClass) (by rw [State.afterTicks_queue_same]; exact List.cons_ne_nil _ _)
  exact step_of_phases hexec (by rwa [hcfg]) (dispatchPhase_of_dl_none hdl)
    (frontEnd_of_empty (State.halted_of_running (hstatus (k + 1))) hfl (hprog.trans_le hend))
    (hstatus _) (hstatus _) (hstatus _) (hstatus _) hdrained ((congrArg Config.maxCycles (hcfg _)).trans hmax)

/-- Retirement gives the control of the idle state back, but for `pc` and the counter. -/
theorem Idle.retire_afterTicks (h : Idle s) (t : State) (i : Instr) (k : Nat) :
    (t.withControl ((s.afterTicks i k).tickHead i.queueClass)).retireHead i.queueClass (s.nextRecord i) =
      { t.withControl s with pc := s.pc + 1, cycle := s.cycle + (k + 3) } := by
  have hbusy : (s.busy.putAll (markSet i) true).putAll (markSet i) false = s.busy := by
    rw [h.free, Scoreboard.putAll_true_false_of_free]
  calc
    _ = { t.withControl s with
          pc := s.pc + 1
          cycle := s.cycle + (k + 3)
          busy := (s.busy.putAll (markSet i) true).putAll (markSet i) false } := by
      rw [State.afterTicks_tickHead, State.afterTicks]
      obtain ⟨-, -, -, -, hcompute, hdata, hscalar, -⟩ := h
      cases s
      subst hcompute hdata hscalar
      cases i.queueClass <;> rfl
    _ = _ := by rw [hbusy]; rfl

/-- The sole entry's instruction runs on the ticked state as it runs on the idle one (log 7). -/
theorem Idle.exec_afterTicks (h : Idle s) {t : State} (hb : i.mnemonic ≠ .b) (ht : exec i s = .next t)
    (hrun : t.halted = false) (k : Nat) :
    exec i ((s.afterTicks i k).tickHead i.queueClass) =
      .next (t.withControl ((s.afterTicks i k).tickHead i.queueClass)) := by
  have hdata : s.withControl ((s.afterTicks i k).tickHead i.queueClass) = (s.afterTicks i k).tickHead i.queueClass := by
    rw [State.afterTicks_tickHead, State.afterTicks]
    cases i.queueClass <;> rfl
  have hsnap : SameSnapshots i.queueClass s ((s.afterTicks i k).tickHead i.queueClass) :=
    sameSnapshots_of_newEntry (h.queue _)
      (State.tickHead_queue_same _ _ (s.soleEntry i k) [] (s.afterTicks_queue_same i k))
      ((State.tickHead_vlr ..).trans (State.setQueue_vlr ..)) ((State.tickHead_vmr ..).trans (State.setQueue_vmr ..))
  have hexec := exec_withControl (b := (s.afterTicks i k).tickHead i.queueClass) (by rwa [hdata]) hb hrun ht
  rwa [hdata] at hexec

/-- The cycle in which the sole entry is due: it completes and retires, and the core has drained. -/
theorem Idle.step_completes (h : Idle s) (hc : legalConfig s.cfg = true) (hend : s.progLen ≤ s.pc + 1) {t : State}
    (hb : i.mnemonic ≠ .b) (ht : exec i s = .next t) (hrun : t.halted = false) {k : Nat}
    (hdue : k + 1 = s.cfg.latency i.mnemonic) :
    step (s.afterTicks i k) = .next { t with
      pc := s.pc + 1, cycle := s.cycle + (k + 1 + 3), status := .haltedNormal } := by
  have hstatus : (s.afterTicks i k).status = .running := (State.setQueue_status ..).trans h.running
  have hcfg : (s.afterTicks i k).cfg = s.cfg := State.setQueue_cfg ..
  have hheld : (s.afterTicks i k).holdsAll (markSet i) = true :=
    (State.holdsAll_eq_true _ _).2 fun x hx => (Scoreboard.get_putAll _ _ _ _).trans (if_pos hx)
  have hresult : (t.withControl ((s.afterTicks i k).tickHead i.queueClass)).halted = false :=
    State.halted_of_running ((State.tickHead_status ..).trans hstatus)
  obtain ⟨-, hstep⟩ := step_of_only_due (State.halted_of_running hstatus) (by rwa [hcfg]) (s.afterTicks_queue_same i k)
    (fun c hne => h.afterTicks_queue_other i k hne) hdue hb hheld ((State.setQueue_dl ..).trans h.dl)
    (h.exec_afterTicks hb ht hrun k)
  have hcontrol : t.withControl s = t := (exec_eq_withControl hb hrun ht).symm
  have hprog : t.progLen = s.progLen := by
    obtain ⟨eff, -, heff⟩ := exec_eq_next ht
    exact State.progLen_congr (Effect.sameControl heff).imem
  have hretired := h.retire_afterTicks t i k
  rw [hcontrol] at hretired
  have hdrained : ({ t with pc := s.pc + 1, cycle := s.cycle + (k + 3) } : State).drained = true :=
    (State.drained_iff _).2 ⟨hprog.trans_le hend, (congrArg State.fl hcontrol).symm.trans h.fl,
      (congrArg State.dl hcontrol).symm.trans h.dl, (congrArg State.qCompute hcontrol).symm.trans h.compute,
      (congrArg State.qData hcontrol).symm.trans h.data, (congrArg State.qScalar hcontrol).symm.trans h.scalar⟩
  rw [hstep hresult]
  refine congrArg Host.Outcome.next (?_ : endCycle none (frontEnd (State.retireHead _ _ (s.nextRecord i))) = _)
  rw [hretired]
  exact endCycle_frontEnd_of_drained hrun hdrained

theorem andThen_next_self {σ : Type} (o : Host.Outcome σ Fault Refusal) : andThen o .next = o := by
  cases o <;> rfl

/-- The cycle that follows a run of `n` cycles. -/
theorem run_succ_of_next : ∀ {n : Nat} {s u : State}, run n s = .next u → run (n + 1) s = step u
  | 0, s, u, h => by
    obtain rfl := Host.Outcome.next.inj h
    exact andThen_next_self (step s)
  | n + 1, s, u, h => by
    obtain ⟨v, hv, hrest⟩ := andThen_eq_next h
    rw [run, hv, andThen_next, run_succ_of_next hrest]

/-- Fetch, decode, dispatch, and `k` counted cycles below the latency. -/
theorem Idle.run_ticks (h : Idle s) (hc : legalConfig s.cfg = true) (hmax : s.cfg.maxCycles = none)
    (hend : s.pc + 1 = s.progLen) (hline : Memory.lookup s.imem s.pc = some toks)
    (hdecode : decodeLine s.cfg.vdataExt toks = .ok i) (hb : i.mnemonic ≠ .b) :
    run 1 s = .next (s.afterFetch toks) ∧ run 2 s = .next (s.afterDecode i) ∧
      ∀ k, k < s.cfg.latency i.mnemonic → run (k + 3) s = .next (s.afterTicks i k) := by
  have hrun1 : run 1 s = .next (s.afterFetch toks) :=
    (run_succ_of_next (n := 0) rfl).trans (h.step_fetches hc hmax (by omega) hline)
  have hrun2 : run 2 s = .next (s.afterDecode i) :=
    (run_succ_of_next hrun1).trans (h.step_decodes hc hmax hend.ge hdecode)
  refine ⟨hrun1, hrun2, fun k => ?_⟩
  induction k with
  | zero => exact fun _ => (run_succ_of_next hrun2).trans (h.step_dispatches hc hmax hend.ge hb)
  | succ k ih =>
    exact fun hk => (run_succ_of_next (ih (by omega))).trans (h.step_ticks hc hmax hend.ge (by omega))

end

/-- Settles O28: three cycles bring the line into flight, the latency counts, and the last cycle completes it. -/
theorem oneInstructionRunTakesLatencyPlusThree : Obligations.OneInstructionRunTakesLatencyPlusThree := by
  intro s t toks i h hc hmax hend hline hdecode hb ht hrun
  obtain ⟨hrun1, hrun2, hticks⟩ := h.run_ticks hc hmax hend hline hdecode hb
  obtain ⟨k, hk⟩ : ∃ k, s.cfg.latency i.mnemonic = k + 1 := Nat.exists_eq_succ_of_ne_zero (latency_pos hc _).ne'
  refine ⟨⟨_, hrun1, rfl, rfl⟩, ⟨_, hrun2, h.fl, rfl⟩,
    ⟨_, hticks 0 (by omega), (State.setQueue_dl ..).trans h.dl, s.afterTicks_queue_same i 0⟩, fun n hn => ?_, ?_⟩
  · have hs : s.halted = false := State.halted_of_running h.running
    match n with
    | 0 => exact ⟨s, rfl, hs⟩
    | 1 => exact ⟨_, hrun1, hs⟩
    | 2 => exact ⟨_, hrun2, hs⟩
    | n + 3 => exact ⟨_, hticks n (by omega), (State.setQueue_halted ..).trans hs⟩
  · rw [hk]
    exact (run_succ_of_next (hticks k (by omega))).trans (h.step_completes hc hend.ge hb ht hrun hk.symm)

end Sys2Proof.Machine
end

section
/-! PROOFS. The cycle in which decode rejects the line in FL: `DecodeError` and nothing else (`60_exceptions.md` R281). -/

namespace Sys2Proof.Machine

/-! ### The details of a rejected line (R81, R83, R87) -/

theorem RegistersRead.eq_malformed_of_error {m : Mnemonic} {vts sts : List Token} {d : Detail}
    (h : RegistersRead m vts sts (.error d)) : d = .malformedOperand := by
  cases h <;> rfl

/-- Operand tokens of the right number are rejected for an operand alone. -/
theorem decodeOperands_eq_error {m : Mnemonic} {ops : List Token} {d : Detail}
    (hcount : ops.length + 1 = m.format.tokenCount) (h : decodeOperands m ops = .error d) : d = .malformedOperand := by
  by_cases hm : m = .b
  · subst hm
    obtain ⟨t, rfl⟩ := List.length_eq_one_iff.mp (Nat.succ.inj hcount)
    change decodeBR .b [t] = .error d at h
    cases ht : parseOffset t with
    | none => exact (DecodeResult.error.inj ((decodeBR_of_none ht).symm.trans h)).symm
    | some off => nomatch (decodeBR_of_some ht).symm.trans h
  · obtain ⟨_, _, _, hread⟩ := exists_registersRead hm hcount
    exact RegistersRead.eq_malformed_of_error (h ▸ hread)

/-- The decoder's two details: each of its checks rejects with one of them. -/
theorem decodeLine_eq_error {ext : Bool} {toks : Line} {d : Detail} (h : decodeLine ext toks = .error d) :
    d = .unknownMnemonic ∨ d = .malformedOperand := by
  cases toks with
  | nil => exact .inl (DecodeResult.error.inj h).symm
  | cons t ops =>
    by_cases hm : ∃ m : Mnemonic, m.token = t
    · obtain ⟨m, rfl⟩ := hm
      rw [decodeLine_token] at h
      split at h
      · exact .inl (DecodeResult.error.inj h).symm
      · split at h
        · exact .inr (DecodeResult.error.inj h).symm
        · next hcount => exact .inr (decodeOperands_eq_error (not_not.mp hcount) h)
    · rw [decodeLine_of_no_mnemonic (not_exists.mp hm)] at h
      exact .inl (DecodeResult.error.inj h).symm

/-! ### The raise (R281) -/

section
variable {s : State} {f : Fetched} {d : Detail}

theorem decodePhase_of_rejected (hfl : s.fl = some f) (hreject : decodeLine s.cfg.vdataExt f.toks = .error d) :
    decodePhase s = s.raise (decodeErrorRecord f.p f.toks d) := by
  simp [decodePhase, hfl, decode, hreject]

/-- The raise skips the fetch. -/
theorem frontEnd_of_rejected (hfl : s.fl = some f) (hreject : decodeLine s.cfg.vdataExt f.toks = .error d) :
    frontEnd s = s.raise (decodeErrorRecord f.p f.toks d) := by
  rw [frontEnd, decodePhase_of_rejected hfl hreject, if_pos (State.raise_halted ..)]

end

/-- Settles O47: the front end only raises, and after a raise the end of the cycle only counts. -/
theorem decodeErrorHaltsWithLineAndIndex : Obligations.DecodeErrorHaltsWithLineAndIndex := by
  intro s u f d hs hphase hrun hfl hreject
  refine ⟨decodeLine_eq_error hreject, ?_⟩
  rw [afterExecute_of_front hs hphase hrun rfl rfl, frontEnd_of_rejected hfl hreject,
    endCycle_of_halted none (State.raise_halted ..)]
  rfl

end Sys2Proof.Machine
end

section
/-! PROOFS. Launches: the invariant, the register values, and what is refused (`70_reset_and_hazards.md` R310 to R314);
and the implicit operands, which `MTCL` alone marks (`70_reset_and_hazards.md` R318). -/

namespace Sys2Proof.Machine

/-! ### What a launch holds -/

theorem launchState_queue (l : Launch) (c : QueueClass) : (launchState l).queue c = [] := by
  cases c <;> rfl

/-- A loaded image lists only what its entries name, in rising order (R60; log 5). -/
theorem loadProgram_ok {img : List (Nat × Line)} (h : legalProgram img = true) :
    InstrMemory.wf (loadProgram img) ∧ ∀ x ∈ loadProgram img, x.1 < imemSize := by
  refine List.foldlRecOn (motive := fun m : InstrMemory => InstrMemory.wf m ∧ ∀ x ∈ m, x.1 < imemSize) _ _
    ⟨List.Pairwise.nil, by simp⟩ fun m ⟨hwf, hsize⟩ y hy => ⟨Memory.insert_sorted _ _ hwf, fun x hx => ?_⟩
  rcases Memory.mem_insert hx with rfl | hx
  · exact ((legalProgram_iff img).1 h y hy).1
  · exact hsize x hx

/-- A loaded data memory is in its canonical form, and lists only indices of it (R72; log 4). -/
theorem loadImage_ok {size : Nat} {img : List (Nat × Int)} (h : legalImage size img = true) :
    Memory.wf (loadImage img) ∧ ∀ x ∈ loadImage img, x.1 < size := by
  refine List.foldlRecOn (motive := fun m : Memory => Memory.wf m ∧ ∀ x ∈ m, x.1 < size) _ _
    ⟨⟨List.Pairwise.nil, by simp⟩, by simp⟩ fun m ⟨hwf, hsize⟩ y hy => ⟨Memory.write_wf _ _ hwf, fun x hx => ?_⟩
  rcases Memory.mem_write hx with rfl | hx
  · exact ((legalImage_iff size img).1 h y hy).1
  · exact hsize x hx

/-- Settles O44: nothing is in flight or latched, and the memories are as their images make them. -/
theorem launchedCoresMeetTheInvariant : Obligations.LaunchedCoresMeetTheInvariant := by
  intro l s hboot
  obtain ⟨hconfig, hlegal, rfl⟩ := (boot_eq_next_iff l s).1 hboot
  obtain ⟨himem, hvdm, hsdm, -⟩ := (legalLaunch_iff l).1 hlegal
  have hqueue := launchState_queue l
  exact
    { config := hconfig
      scoreboard := (launchState_hazardFree l).scoreboard
      queues := fun c => by rw [hqueue]; exact Nat.zero_le _
      classes := fun c e he => by rw [hqueue] at he; cases he
      latches := ⟨fun _ hf => (by cases hf), fun _ hr => (by cases hr)⟩
      entries := fun e he => by cases he
      timers := fun c => by rw [hqueue]; exact ⟨fun _ he => (by cases he), fun _ he => (by cases he)⟩
      error := ⟨fun h => (by cases h), fun h => (by cases h)⟩
      pc := Nat.zero_le _
      memories := ⟨(loadProgram_ok himem).1, (loadProgram_ok himem).2, (loadImage_ok hvdm).1, (loadImage_ok hvdm).2,
        (loadImage_ok hsdm).1, (loadImage_ok hsdm).2⟩
      drained := fun h => by cases h }

theorem launchState_readS (l : Launch) (i : SReg) : (launchState l).readS i = BitVec.ofInt 32 l.sreg[i.val] := by
  simp [State.readS, launchState]

theorem launchState_lane (l : Launch) (r : VReg) (k : Fin 64) :
    (launchState l).lane r k = BitVec.ofInt 32 (l.vreg[r.val])[k.val] := by
  simp [State.lane, State.readV, launchState, lanesOf]

theorem launchState_vmr (l : Launch) (k : Fin 64) : (launchState l).vmr[k.val] = BitVec.ofInt 32 l.vmr[k.val] := by
  simp [launchState, lanesOf]

/-- The lanes of a constant vector of integers. -/
theorem lanesOf_replicate (v : Int) : lanesOf (Vector.replicate 64 v) = Vector.replicate 64 (BitVec.ofInt 32 v) :=
  Vector.ext fun k hk => by simp [lanesOf]

/-- With nothing given but the parameters, a launch is `State.reset` under them (R41, R312). -/
theorem launchState_default (c : Config) : launchState { cfg := c } = { State.reset with cfg := c } := by
  have hsreg : (Vector.ofFn fun i : Fin 8 => BitVec.ofInt 32 (Vector.replicate 8 (0 : Int))[i.val]) = State.reset.sreg :=
    Vector.ext fun i hi => by simp [State.reset]
  have hvreg : (Vector.ofFn fun i : Fin 8 => lanesOf (Vector.replicate 8 (Vector.replicate 64 (0 : Int)))[i.val]) =
      State.reset.vreg :=
    Vector.ext fun i hi => by simp [State.reset, lanesOf_replicate]
  have hvmr : lanesOf (Vector.replicate 64 1) = State.reset.vmr := lanesOf_replicate 1
  rw [launchState, hsreg, hvreg, hvmr]
  rfl

theorem legalLaunch_default (c : Config) : legalLaunch { cfg := c } = true := by
  refine (legalLaunch_iff _).2 ⟨rfl, rfl, rfl, fun i => ?_, fun r k => ?_, fun k => ?_, rfl⟩
  · rw [Vector.getElem_replicate]; rfl
  · rw [Vector.getElem_replicate, Vector.getElem_replicate]; rfl
  · rw [Vector.getElem_replicate]; rfl

/-- Settles O50: the registers word by word, the rest by the definition of a launch. -/
theorem launchValuesOverrideReset : Obligations.LaunchValuesOverrideReset := by
  refine ⟨fun l s hboot => ?_, fun c hc => ?_, fun l hcfg himem hvdm hsdm hsreg hvreg hvmr hvlr => ?_⟩
  · obtain ⟨-, hlegal, rfl⟩ := (boot_eq_next_iff l s).1 hboot
    obtain ⟨-, -, -, hsreg, hvreg, hvmr, hvlr⟩ := (legalLaunch_iff l).1 hlegal
    refine ⟨fun i => ?_, fun r k => ?_, fun k => ?_, toInt_ofInt_of_inRange32 hvlr, rfl, rfl, rfl, rfl, rfl,
      launchState_queue l, Scoreboard.get_free, rfl, rfl⟩
    · rw [launchState_readS, toInt_ofInt_of_inRange32 (hsreg i)]
    · rw [launchState_lane, toInt_ofInt_of_inRange32 (hvreg r k)]
    · rw [launchState_vmr, toInt_ofInt_of_inRange32 (hvmr k)]
  · exact (boot_eq_next_iff _ _).2 ⟨hc, legalLaunch_default c, launchState_default c⟩
  · exact ⟨_, (boot_eq_next_iff l _).2 ⟨hcfg, (legalLaunch_iff l).2 ⟨himem, hvdm, hsdm, hsreg, hvreg, hvmr, hvlr⟩, rfl⟩⟩

/-! ### What is refused -/

/-- The parameters of a legal configuration are positive (R7, R313). -/
theorem legalConfig_pos {c : Config} (h : legalConfig c = true) :
    0 < c.computeQueueDepth ∧ 0 < c.dataQueueDepth ∧ 0 < c.scalarQueueDepth ∧ (∀ m, 0 < c.latency m) ∧
      0 < c.vdmSize ∧ 0 < c.sdmSize ∧ c.maxCycles ≠ some 0 := by
  have hlat := latency_pos h
  simp only [legalConfig, Bool.and_eq_true, decide_eq_true_eq] at h
  obtain ⟨⟨⟨⟨⟨⟨hcompute, hdata⟩, hscalar⟩, -⟩, hvdm⟩, hsdm⟩, hlimit⟩ := h
  exact ⟨hcompute, hdata, hscalar, hlat, hvdm, hsdm, fun hmax => by simp [hmax, legalLimit] at hlimit⟩

theorem boot_of_illegal_config {l : Launch} (h : legalConfig l.cfg = false) : boot l = .refused .illegalConfiguration := by
  simp [boot, h]

theorem step_of_illegal_config {s : State} (h : legalConfig s.cfg = false) (hs : s.halted = false) :
    step s = .refused .illegalConfiguration := by
  simp [step, h, hs]

theorem boot_of_illegal_launch {l : Launch} (hc : legalConfig l.cfg = true) (h : legalLaunch l ≠ true) :
    boot l = .refused .illegalLaunch := by
  simp [boot, hc, h]

/-- Settles O51: each clause of the two legality checks, broken. -/
theorem illegalLaunchesAreRefused : Obligations.IllegalLaunchesAreRefused := by
  refine ⟨fun c hbad => ?_, fun l hc hbad => boot_of_illegal_launch hc fun hlegal => ?_⟩
  · have hillegal : legalConfig c = false := by
      refine Bool.eq_false_iff.2 fun h => ?_
      obtain ⟨hcompute, hdata, hscalar, hlat, hvdm, hsdm, hlimit⟩ := legalConfig_pos h
      rcases hbad with hz | hz | hz | ⟨m, hz⟩ | hz | hz | hz
      · exact hcompute.ne' hz
      · exact hdata.ne' hz
      · exact hscalar.ne' hz
      · exact (hlat m).ne' hz
      · exact hvdm.ne' hz
      · exact hsdm.ne' hz
      · exact hlimit hz
    exact ⟨fun l hl => boot_of_illegal_config (hl ▸ hillegal), fun s hs => step_of_illegal_config (hs ▸ hillegal)⟩
  · have himage : ∀ {size : Nat} {img : List (Nat × Int)}, legalImage size img = true →
        ¬ ∃ x ∈ img, inRange32 x.2 = false ∨ size ≤ x.1 := by
      rintro size img h ⟨x, hx, hbad⟩
      obtain ⟨hsize, hrange⟩ := (legalImage_iff size img).1 h x hx
      exact hbad.elim (fun hout => by simp [hrange] at hout) hsize.not_ge
    obtain ⟨himem, hvdm, hsdm, hsreg, hvreg, hvmr, hvlr⟩ := (legalLaunch_iff l).1 hlegal
    rcases hbad with hx | hx | ⟨x, hx, hout⟩ | ⟨i, hout⟩ | ⟨r, k, hout⟩ | ⟨k, hout⟩ | hout
    · exact himage hvdm hx
    · exact himage hsdm hx
    · exact ((legalProgram_iff _).1 himem x hx).1.not_ge hout
    · simp [hsreg i] at hout
    · simp [hvreg r k] at hout
    · simp [hvmr k] at hout
    · simp [hvlr] at hout

/-! ### Implicit operands (R123 to R126) -/

theorem length_mem_markSet_iff (i : Instr) : .length ∈ markSet i ↔ i.mnemonic = .mtcl := by
  simp [mem_markSet]

theorem mask_not_mem_markSet (i : Instr) : .mask ∉ markSet i := by
  simp [mem_markSet]

/-- The names of the register tokens are listed once, and the implicit destination is none of them (R123, R124). -/
theorem markSet_nodup (i : Instr) : (markSet i).Nodup := by
  have hdest : (implicitDest i).Nodup := by
    cases i with
    | mtcl => exact List.nodup_singleton _
    | _ => exact List.nodup_nil
  refine List.nodup_append'.2 ⟨List.nodup_dedup _, hdest, fun x href himplicit => ?_⟩
  obtain rfl : x = .length := by
    cases i with
    | mtcl => exact List.mem_singleton.1 himplicit
    | _ => cases himplicit
  simp [refSet] at href

/-- A vector instruction captures the length and the mask, and marks only what its tokens name. -/
theorem vector_operands {i : Instr} (h : i.queueClass ≠ .scalarOps) :
    snapSet i = [.length, .mask] ∧ markSet i = refSet i := by
  have hclass : i.queueClass = .vectorCompute ∨ i.queueClass = .vectorData := by
    cases hq : i.queueClass with
    | vectorCompute => exact .inl rfl
    | vectorData => exact .inr rfl
    | scalarOps => exact absurd hq h
  obtain ⟨-, -, -, hsnap⟩ := captures_of_vector hclass
  refine ⟨hsnap, ?_⟩
  cases i with
  | pop | mtcl | mfcl | b => exact absurd rfl h
  | _ => exact List.append_nil _

/-- Settles O24: the marked set name by name, and what a vector instruction captures. -/
theorem implicitOperandsAreMarkedByMtclOnly : Obligations.ImplicitOperandsAreMarkedByMtclOnly := by
  refine ⟨fun i hi => ?_, length_mem_markSet_iff, mask_not_mem_markSet, markSet_nodup, fun i j hi hj hdisj x hx hmark => ?_⟩
  · obtain ⟨hsnap, -⟩ := vector_operands hi
    simp [checkSet, hsnap]
  · obtain ⟨hsnap, hmarkj⟩ := vector_operands hj
    obtain ⟨-, hmarki⟩ := vector_operands hi
    rcases List.mem_append.1 hx with hx | hx
    · exact hdisj x (hmarki ▸ hmark) (hmarkj ▸ hx)
    · rw [hmarki] at hmark
      rw [hsnap] at hx
      obtain rfl | rfl : x = .length ∨ x = .mask := by simpa using hx
      all_goals simp [refSet] at hmark

end Sys2Proof.Machine
end

section
/-! PROOFS. What a completion writes, what it reads, and that independent completions may change places
(`70_reset_and_hazards.md` R318, R322). -/

namespace Sys2Proof.Machine

/-! ### What an instruction writes -/

/-- What a meaning, other than the branch's, does when it raises nothing, and what a `B` entry does at its completion. -/
inductive Write where
  | nothing
  | lanes (d : VReg) (act : Fin 64 → Bool) (val : Fin 64 → Word)
  | store (act : Fin 64 → Bool) (addr : Fin 64 → Int) (val : Fin 64 → Word)
  | scalar (d : SReg) (v : Word)
  | length (v : Word)

/-- The state after the write; nothing but its target changes. -/
def Write.apply (w : Write) (s : State) : State :=
  match w with
  | .nothing => s
  | .lanes d act val => s.writeLanes d act val
  | .store act addr val => { s with vdm := storeActive act addr val s.vdm }
  | .scalar d v => s.writeS d v
  | .length v => s.writeVlr v

/-- `i` may do this write: to a register that it marks, or to VDM if it is a Vector-Data instruction. -/
def Write.Within (w : Write) (i : Instr) : Prop :=
  match w with
  | .nothing => True
  | .lanes d _ _ => .vector d ∈ markSet i
  | .store _ _ _ => i.queueClass = .vectorData
  | .scalar d _ => .scalar d ∈ markSet i
  | .length _ => .length ∈ markSet i

section

variable {w : Write} {i : Instr}

theorem Write.apply_withControl (w : Write) (s b : State) : w.apply (s.withControl b) = (w.apply s).withControl b := by
  cases w <;> rfl

theorem Write.apply_sameFixed (w : Write) (s : State) : SameFixed s (w.apply s) := by
  cases w <;> exact ⟨rfl, rfl, rfl, rfl⟩

theorem Write.apply_readS (hw : w.Within i) {r : SReg} (hr : .scalar r ∉ markSet i) (s : State) :
    (w.apply s).readS r = s.readS r := by
  cases w with
  | scalar d v => exact State.readS_writeS_other s d r v fun heq => hr (heq ▸ hw)
  | _ => rfl

theorem Write.apply_readV (hw : w.Within i) {r : VReg} (hr : .vector r ∉ markSet i) (s : State) :
    (w.apply s).readV r = s.readV r := by
  cases w with
  | lanes d act val => exact State.readV_writeLanes_other s d r act val fun heq => hr (heq ▸ hw)
  | _ => rfl

theorem Write.apply_vlr (hw : w.Within i) (hi : .length ∉ markSet i) (s : State) : (w.apply s).vlr = s.vlr := by
  cases w with
  | length v => exact absurd hw hi
  | _ => rfl

theorem Write.apply_vdm (hw : w.Within i) (hi : i.queueClass ≠ .vectorData) (s : State) : (w.apply s).vdm = s.vdm := by
  cases w with
  | store act addr val => exact absurd hw hi
  | _ => rfl

end

theorem State.lane_writeV_other (s : State) {d r : VReg} (v : Lanes) (h : r ≠ d) (l : Fin 64) :
    (s.writeV d v).lane r l = s.lane r l := by
  rw [State.lane, State.lane, State.readV_writeV_other s d r v h]

theorem State.writeLanes_comm {d d' : VReg} (hd : d ≠ d') (act act' : Fin 64 → Bool) (f f' : Fin 64 → Word) (s : State) :
    (s.writeLanes d' act' f').writeLanes d act f = (s.writeLanes d act f).writeLanes d' act' f' := by
  simp only [State.writeLanes, State.lane_writeV_other s _ hd, State.lane_writeV_other s _ hd.symm]
  simp only [State.writeV, Vector.set_comm _ _ (Fin.val_ne_of_ne hd)]

/-- Two instructions that hold no register in common and do not both go through the Vector-Data unit. -/
structure Independent (i j : Instr) : Prop where
  marks : ∀ x ∈ markSet i, x ∉ markSet j
  data : ¬ (i.queueClass = .vectorData ∧ j.queueClass = .vectorData)

theorem Write.apply_comm {w w' : Write} {i j : Instr} (hij : Independent i j) (hw : w.Within i) (hw' : w'.Within j)
    (s : State) : w.apply (w'.apply s) = w'.apply (w.apply s) := by
  cases w with
  | nothing => rfl
  | lanes d act f =>
    cases w' with
    | lanes d' act' f' =>
      have hd : d ≠ d' := fun heq => hij.marks (.vector d) hw (by rw [heq]; exact hw')
      exact State.writeLanes_comm hd act act' f f' s
    | _ => rfl
  | store =>
    cases w' with
    | store => exact absurd ⟨hw, hw'⟩ hij.data
    | _ => rfl
  | scalar d v =>
    cases w' with
    | scalar d' v' =>
      have hd : d'.val ≠ d.val := fun heq => hij.marks _ hw (Fin.ext heq ▸ hw')
      simp [Write.apply, State.writeS, Vector.set_comm _ _ hd]
    | _ => rfl
  | length =>
    cases w' with
    | length => exact absurd hw' (hij.marks _ hw)
    | _ => rfl

/-! ### What an instruction reads -/

/-- `t` holds what `i` names of `s`: its registers, VDM for a Vector-Data instruction, and the parameters. -/
structure SameOperands (i : Instr) (s t : State) : Prop where
  sreg : ∀ r ∈ i.scalarRegs, t.readS r = s.readS r
  vreg : ∀ r ∈ i.vectorRegs, t.readV r = s.readV r
  vdm : i.queueClass = .vectorData → t.vdm = s.vdm
  cfg : t.cfg = s.cfg

section

variable {i j : Instr} {s t u : State}

theorem SameOperands.symm (h : SameOperands i s t) : SameOperands i t s :=
  ⟨fun r hr => (h.sreg r hr).symm, fun r hr => (h.vreg r hr).symm, fun hi => (h.vdm hi).symm, h.cfg.symm⟩

theorem SameOperands.trans (h : SameOperands i s t) (h' : SameOperands i t u) : SameOperands i s u :=
  ⟨fun r hr => (h'.sreg r hr).trans (h.sreg r hr), fun r hr => (h'.vreg r hr).trans (h.vreg r hr),
    fun hi => (h'.vdm hi).trans (h.vdm hi), h'.cfg.trans h.cfg⟩

theorem sameOperands_withControl (i : Instr) (s b : State) : SameOperands i s (s.withControl b) :=
  ⟨fun _ _ => rfl, fun _ _ => rfl, fun _ => rfl, rfl⟩

theorem mem_markSet_of_vectorRegs {r : VReg} (h : r ∈ i.vectorRegs) : .vector r ∈ markSet i :=
  (mem_markSet _ _).2 (.inl ⟨r, h, rfl⟩)

theorem mem_markSet_of_scalarRegs {r : SReg} (h : r ∈ i.scalarRegs) : .scalar r ∈ markSet i :=
  (mem_markSet _ _).2 (.inr (.inl ⟨r, h, rfl⟩))

/-- The write of an independent instruction touches no operand. -/
theorem sameOperands_apply {w : Write} (hij : Independent i j) (hw : w.Within i) (s : State) :
    SameOperands j s (w.apply s) where
  sreg _ hr := w.apply_readS hw (fun hi => hij.marks _ hi (mem_markSet_of_scalarRegs hr)) s
  vreg _ hr := w.apply_readV hw (fun hi => hij.marks _ hi (mem_markSet_of_vectorRegs hr)) s
  vdm hj := w.apply_vdm hw (fun hi => hij.data ⟨hi, hj⟩) s
  cfg := (w.apply_sameFixed s).cfg

/-- `t` holds everything `i` reads of `s`: its operands, and what it takes from the snapshots of its class (R125). -/
structure SameInputs (i : Instr) (s t : State) : Prop extends SameOperands i s t where
  active : capturesVL i = true → t.active i.queueClass = s.active i.queueClass
  vlr : capturesVLR i = true → t.snapVLR i.queueClass = s.snapVLR i.queueClass
  mask : capturesMask i = true → t.snapMask i.queueClass = s.snapMask i.queueClass

/-- A Vector-Compute instruction is `computeLanes` of a lane function that its operands fix. -/
theorem exec_eq_computeLanes (h : i.queueClass = .vectorCompute) (s : State) :
    ∃ m d, ∃ op : State → Fin 64 → LaneResult, d ∈ i.vectorRegs ∧ (∀ t, exec i t = computeLanes m d (op t) t) ∧
      ∀ t, SameOperands i s t → op t = op s := by
  cases i with
  | addvv d a b | subvv d a b | mulvv d a b | divvv d a b
  | unpacklo d a b | unpackhi d a b | packlo d a b | packhi d a b =>
    refine ⟨_, d, _, List.mem_cons_self, fun t => rfl, fun t hin => ?_⟩
    have ha : t.readV a = s.readV a := hin.vreg a (by simp [Instr.vectorRegs])
    have hb : t.readV b = s.readV b := hin.vreg b (by simp [Instr.vectorRegs])
    simp only [State.lane, ha, hb, hin.cfg]
  | addvs d a r | subvs d a r | mulvs d a r | divvs d a r =>
    refine ⟨_, d, _, List.mem_cons_self, fun t => rfl, fun t hin => ?_⟩
    have ha : t.readV a = s.readV a := hin.vreg a (by simp [Instr.vectorRegs])
    have hr : t.readS r = s.readS r := hin.sreg r (by simp [Instr.scalarRegs])
    simp only [State.lane, ha, hr, hin.cfg]
  | pop | mtcl | mfcl | b | lv | sv | lvws | svws => cases h

/-- A Vector-Data instruction is `loadLanes` or `storeLanes` of lane addresses that its operands fix. -/
theorem exec_eq_loadLanes_or_storeLanes (h : i.queueClass = .vectorData) (s : State) :
    ∃ m r, ∃ addr : State → Fin 64 → Int, r ∈ i.vectorRegs ∧
      ((∀ t, exec i t = loadLanes m r (addr t) t) ∨ ∀ t, exec i t = storeLanes m r (addr t) t) ∧
      ∀ t, SameOperands i s t → addr t = addr s := by
  cases i with
  | lv r base =>
    refine ⟨_, r, _, List.mem_cons_self, .inl fun t => rfl, fun t hin => ?_⟩
    simp only [hin.sreg base List.mem_cons_self]
  | sv r base =>
    refine ⟨_, r, _, List.mem_cons_self, .inr fun t => rfl, fun t hin => ?_⟩
    simp only [hin.sreg base List.mem_cons_self]
  | lvws r base stride =>
    refine ⟨_, r, _, List.mem_cons_self, .inl fun t => rfl, fun t hin => ?_⟩
    simp only [hin.sreg base (by simp [Instr.scalarRegs]), hin.sreg stride (by simp [Instr.scalarRegs])]
  | svws r base stride =>
    refine ⟨_, r, _, List.mem_cons_self, .inr fun t => rfl, fun t hin => ?_⟩
    simp only [hin.sreg base (by simp [Instr.scalarRegs]), hin.sreg stride (by simp [Instr.scalarRegs])]
  | _ => cases h

theorem computeLanes_write {m : Mnemonic} {d : VReg} {op : Fin 64 → LaneResult} (hd : d ∈ i.vectorRegs)
    (hrun : t.halted = false) (h : computeLanes m d op s = .next t) :
    ∃ w : Write, w.Within i ∧ ∀ u, u.active .vectorCompute = s.active .vectorCompute →
      computeLanes m d op u = .next (w.apply u) := by
  rcases computeLanes_cases m d op s with ⟨l, det, -, h'⟩ | ⟨hnone, -⟩
  · obtain rfl := next_unique h h'
    cases hrun
  · refine ⟨.lanes d (s.active .vectorCompute) fun l => (op l).word, mem_markSet_of_vectorRegs hd, fun u hact => ?_⟩
    rw [computeLanes, hact, hnone]
    rfl

theorem firstBadAddress_congr (hcfg : t.cfg = s.cfg) (hact : t.active .vectorData = s.active .vectorData)
    (addr : Fin 64 → Int) : t.firstBadAddress addr = s.firstBadAddress addr := by
  have hin : ∀ a, t.inVdm a = s.inVdm a := fun a => by rw [State.inVdm, State.inVdm, hcfg]
  simp only [State.firstBadAddress, hin, hact]

theorem loadLanes_write {m : Mnemonic} {d : VReg} {addr : Fin 64 → Int} (hi : i.queueClass = .vectorData)
    (hd : d ∈ i.vectorRegs) (hrun : t.halted = false) (h : loadLanes m d addr s = .next t) :
    ∃ w : Write, w.Within i ∧ ∀ u, SameOperands i s u → u.active .vectorData = s.active .vectorData →
      loadLanes m d addr u = .next (w.apply u) := by
  rcases loadLanes_cases m d addr s with ⟨l, a, -, h'⟩ | ⟨hnone, -⟩
  · obtain rfl := next_unique h h'
    cases hrun
  · refine ⟨.lanes d (s.active .vectorData) fun l => Memory.read s.vdm (addr l).toNat, mem_markSet_of_vectorRegs hd,
      fun u hin hact => ?_⟩
    rw [loadLanes, firstBadAddress_congr hin.cfg hact, hnone, hact, hin.vdm hi]
    rfl

theorem storeLanes_write {m : Mnemonic} {v : VReg} {addr : Fin 64 → Int} (hi : i.queueClass = .vectorData)
    (hv : v ∈ i.vectorRegs) (hrun : t.halted = false) (h : storeLanes m v addr s = .next t) :
    ∃ w : Write, w.Within i ∧ ∀ u, SameOperands i s u → u.active .vectorData = s.active .vectorData →
      storeLanes m v addr u = .next (w.apply u) := by
  rcases storeLanes_cases m v addr s with ⟨l, a, -, h'⟩ | ⟨hnone, -⟩
  · obtain rfl := next_unique h h'
    cases hrun
  · refine ⟨.store (s.active .vectorData) addr (s.lane v), hi, fun u hin hact => ?_⟩
    have hlane : u.lane v = s.lane v := by
      funext l
      rw [State.lane, State.lane, hin.vreg v hv]
    rw [storeLanes, firstBadAddress_congr hin.cfg hact, hnone, hact, hlane]
    rfl

/-- An instruction other than `B` that raises nothing does one write, which its inputs fix. -/
theorem exec_write (hb : i.mnemonic ≠ .b) (hrun : t.halted = false) (h : exec i s = .next t) :
    ∃ w : Write, w.Within i ∧ ∀ u, SameInputs i s u → exec i u = .next (w.apply u) := by
  cases hclass : i.queueClass with
  | vectorCompute =>
    obtain ⟨m, d, op, hd, hexec, hop⟩ := exec_eq_computeLanes hclass s
    obtain ⟨w, hw, hall⟩ := computeLanes_write hd hrun ((hexec s).symm.trans h)
    refine ⟨w, hw, fun u hin => ?_⟩
    have hact : u.active .vectorCompute = s.active .vectorCompute :=
      hclass ▸ hin.active (captures_of_vector (.inl hclass)).1
    rw [hexec u, hop u hin.toSameOperands, hall u hact]
  | vectorData =>
    have hact : ∀ {u}, SameInputs i s u → u.active .vectorData = s.active .vectorData := fun hin =>
      hclass ▸ hin.active (captures_of_vector (.inr hclass)).1
    obtain ⟨m, r, addr, hr, hexec | hexec, haddr⟩ := exec_eq_loadLanes_or_storeLanes hclass s
    · obtain ⟨w, hw, hall⟩ := loadLanes_write hclass hr hrun ((hexec s).symm.trans h)
      exact ⟨w, hw, fun u hin => by rw [hexec u, haddr u hin.toSameOperands, hall u hin.toSameOperands (hact hin)]⟩
    · obtain ⟨w, hw, hall⟩ := storeLanes_write hclass hr hrun ((hexec s).symm.trans h)
      exact ⟨w, hw, fun u hin => by rw [hexec u, haddr u hin.toSameOperands, hall u hin.toSameOperands (hact hin)]⟩
  | scalarOps =>
    cases i with
    | pop d =>
      refine ⟨.scalar d (BitVec.ofNat 32 (countTrue (s.snapMask .scalarOps))),
        mem_markSet_of_scalarRegs List.mem_cons_self, fun u hin => ?_⟩
      have hmask : u.snapMask .scalarOps = s.snapMask .scalarOps := hin.mask rfl
      rw [exec, execPop, hmask]
      rfl
    | mfcl d =>
      refine ⟨.scalar d (s.snapVLR .scalarOps), mem_markSet_of_scalarRegs List.mem_cons_self, fun u hin => ?_⟩
      have hvlr : u.snapVLR .scalarOps = s.snapVLR .scalarOps := hin.vlr rfl
      rw [exec, execMfcl, hvlr]
      rfl
    | mtcl r =>
      refine ⟨.length (s.readS r), (mem_markSet _ _).2 (.inr (.inr ⟨rfl, rfl⟩)), fun u hin => ?_⟩
      rw [exec, execMtcl, hin.sreg r List.mem_cons_self]
      rfl
    | b off => exact absurd rfl hb
    | _ => cases hclass

end

end Sys2Proof.Machine
end

section
/-! PROOFS. The pipelined core against SEQ (`70_reset_and_hazards.md` R322): whatever order the entries in flight complete
in, SEQ may run them in program order. -/

namespace Sys2Proof.Machine

/-! ### Completing an entry -/

/-- `t` shows entry `e` its operands as they are in `s`, and the snapshots that `e` has captured (R37, R125). -/
structure Shows (e : Entry) (s t : State) : Prop extends SameOperands e.record.instr s t where
  vl : ∀ n, e.snapVL = some n → t.snapVL e.record.instr.queueClass = n
  vlr : ∀ v, e.snapVLR = some v → t.snapVLR e.record.instr.queueClass = v
  mask : ∀ m, e.snapMask = some m → t.snapMask e.record.instr.queueClass = m

/-- The completion of `e` raises nothing and makes `t` of `s`, and it does the same wherever its inputs are shown. -/
def Completes (e : Entry) (s t : State) : Prop :=
  ∃ w : Write, w.Within e.record.instr ∧ t = w.apply s ∧ ∀ u, Shows e s u → completeEntry e u = .next (w.apply u)

section

variable {e f : Entry} {s t u v : State}

theorem Shows.of_operands (h : Shows e t u) (hst : SameOperands e.record.instr s t) : Shows e s u where
  toSameOperands := hst.trans h.toSameOperands
  vl := h.vl
  vlr := h.vlr
  mask := h.mask

/-- Two states that show a well-formed entry the same things give its instruction the same inputs. -/
theorem Shows.sameInputs (hok : EntryOk v e) (ht : Shows e s t) (hu : Shows e s u) : SameInputs e.record.instr t u where
  toSameOperands := ht.toSameOperands.symm.trans hu.toSameOperands
  active hi := by
    obtain ⟨-, hvl, -, hmask, -⟩ := hok
    obtain ⟨n, hn⟩ := Option.isSome_iff_exists.1 (hvl.trans hi)
    obtain ⟨m, hm⟩ := Option.isSome_iff_exists.1 (hmask.trans (by simp [capturesMask, hi]))
    funext l
    rw [State.active, State.active, ht.vl n hn, hu.vl n hn, ht.mask m hm, hu.mask m hm]
  vlr hi := by
    obtain ⟨-, -, hvlr, -⟩ := hok
    obtain ⟨w, hw⟩ := Option.isSome_iff_exists.1 (hvlr.trans hi)
    rw [ht.vlr w hw, hu.vlr w hw]
  mask hi := by
    obtain ⟨-, -, -, hmask, -⟩ := hok
    obtain ⟨m, hm⟩ := Option.isSome_iff_exists.1 (hmask.trans hi)
    rw [ht.mask m hm, hu.mask m hm]

/-- The head of its queue finds its own operands and snapshots. -/
theorem shows_of_head {rest : List Entry} (hq : s.queue e.record.instr.queueClass = e :: rest) : Shows e s s where
  toSameOperands := ⟨fun _ _ => rfl, fun _ _ => rfl, fun _ => rfl, rfl⟩
  vl n hn := by simp [State.snapVL, hq, hn]
  vlr w hw := by simp [State.snapVLR, hq, hw]
  mask m hm := by simp [State.snapMask, hq, hm]

/-- What a unit does to its head when it does not halt the core is a completion. -/
theorem completes_of_head {rest : List Entry} (hok : EntryOk v e) (hq : s.queue e.record.instr.queueClass = e :: rest)
    (h : completeEntry e s = .next t) (hrun : t.halted = false) : Completes e s t := by
  by_cases hb : e.record.instr.mnemonic = .b
  · have hnone : ∀ u, completeEntry e u = .next u := fun u => if_pos hb
    exact ⟨.nothing, trivial, next_unique h (hnone s), fun u _ => hnone u⟩
  · have hexec : ∀ u, completeEntry e u = exec e.record.instr u := completeEntry_of_ne_branch hb
    obtain ⟨w, hw, hall⟩ := exec_write hb hrun ((hexec s).symm.trans h)
    have hwrites : ∀ u, Shows e s u → completeEntry e u = .next (w.apply u) := fun u hu =>
      (hexec u).trans (hall u ((shows_of_head hq).sameInputs hok hu))
    exact ⟨w, hw, next_unique h (hwrites s (shows_of_head hq)), hwrites⟩

theorem Completes.withControl (h : Completes e s t) (b : State) : Completes e (s.withControl b) (t.withControl b) := by
  obtain ⟨w, hw, rfl, hall⟩ := h
  exact ⟨w, hw, (w.apply_withControl s b).symm, fun u hu => hall u (hu.of_operands (sameOperands_withControl _ s b))⟩

theorem Completes.sameFixed (h : Completes e s t) : SameFixed s t := by
  obtain ⟨w, -, rfl, -⟩ := h
  exact w.apply_sameFixed s

theorem Completes.vlr (h : Completes e s t) (he : .length ∉ markSet e.record.instr) : t.vlr = s.vlr := by
  obtain ⟨w, hw, rfl, -⟩ := h
  exact w.apply_vlr hw he s

/-- Completions of independent instructions may change places. -/
theorem Completes.comm (hef : Independent e.record.instr f.record.instr) (he : Completes e s t) (hf : Completes f t u) :
    ∃ v, Completes f s v ∧ Completes e v u := by
  obtain ⟨w, hw, rfl, hall⟩ := he
  obtain ⟨w', hw', rfl, hall'⟩ := hf
  have hfe : Independent f.record.instr e.record.instr := ⟨fun x hf he => hef.marks x he hf, fun h => hef.data h.symm⟩
  exact ⟨w'.apply s,
    ⟨w', hw', rfl, fun u hu => hall' u (hu.of_operands (sameOperands_apply hef hw s).symm)⟩,
    ⟨w, hw, (Write.apply_comm hef hw hw' s).symm, fun u hu => hall u (hu.of_operands (sameOperands_apply hfe hw' s))⟩⟩

/-- An entry with its timer set back: no completion reads the timer. -/
def Entry.fresh (e : Entry) : Entry := { e with elapsed := 0 }

theorem Completes.fresh (h : Completes e s t) : Completes e.fresh s t := by
  obtain ⟨w, hw, ht, hall⟩ := h
  exact ⟨w, hw, ht, fun u hu => hall u ⟨hu.toSameOperands, hu.vl, hu.vlr, hu.mask⟩⟩

/-! ### Completing a schedule -/

/-- Completing the entries of a list, the first one first, makes `t` of `s`. -/
def CompletesAll : List Entry → State → State → Prop
  | [], s, t => t = s
  | e :: rest, s, t => ∃ u, Completes e s u ∧ CompletesAll rest u t

theorem completesAll_append {as bs : List Entry} : ∀ {s t : State},
    CompletesAll (as ++ bs) s t ↔ ∃ u, CompletesAll as s u ∧ CompletesAll bs u t := by
  induction as with
  | nil => simp [CompletesAll]
  | cons e as ih =>
    intro s t
    simp only [List.cons_append, CompletesAll, ih]
    exact ⟨fun ⟨u, he, v, has, hbs⟩ => ⟨v, ⟨u, he, has⟩, hbs⟩, fun ⟨v, ⟨u, he, has⟩, hbs⟩ => ⟨u, he, v, has, hbs⟩⟩

/-- An entry that is independent of all that follow it may complete last. -/
theorem CompletesAll.postpone {es : List Entry} : ∀ {s t u : State},
    (∀ f ∈ es, Independent e.record.instr f.record.instr) → Completes e s t → CompletesAll es t u → ∃ v, CompletesAll es s v ∧ Completes e v u := by
  induction es with
  | nil =>
    rintro s t _ - he rfl
    exact ⟨s, rfl, he⟩
  | cons f es ih =>
    rintro s t u hind he ⟨t', hf, hes⟩
    obtain ⟨s', hf', he'⟩ := he.comm (hind f List.mem_cons_self) hf
    obtain ⟨v, hes', hlast⟩ := ih (fun g hg => hind g (List.mem_cons_of_mem _ hg)) he' hes
    exact ⟨v, ⟨s', hf', hes'⟩, hlast⟩

theorem CompletesAll.sameFixed {es : List Entry} : ∀ {s t : State}, CompletesAll es s t → SameFixed s t := by
  induction es with
  | nil => rintro s _ rfl; exact .refl _
  | cons e es ih => rintro s t ⟨u, he, hes⟩; exact he.sameFixed.trans (ih hes)

theorem CompletesAll.vlr {es : List Entry} : ∀ {s t : State}, CompletesAll es s t →
    (∀ e ∈ es, .length ∉ markSet e.record.instr) → t.vlr = s.vlr := by
  induction es with
  | nil => rintro s _ rfl -; rfl
  | cons e es ih =>
    rintro s t ⟨u, he, hes⟩ hmark
    exact (ih hes fun f hf => hmark f (List.mem_cons_of_mem _ hf)).trans (he.vlr (hmark e List.mem_cons_self))

end

/-! ### The schedules of a pipeline -/

/-- The entries of `Q[c]`, whatever their timers. -/
def State.pending (s : State) (c : QueueClass) : List Entry := (s.queue c).map Entry.fresh

/-- An order in which the entries in flight may complete: each queue in its own order, the three interleaved. -/
def Schedules (es : List Entry) (s : State) : Prop :=
  ∀ c, es.filter (fun e => decide (e.record.instr.queueClass = c)) = s.pending c

theorem State.pending_congr {s t : State} {c : QueueClass} (h : t.queue c = s.queue c) : t.pending c = s.pending c :=
  congrArg (List.map Entry.fresh) h

theorem State.tickHead_pending (s : State) (c c' : QueueClass) : (s.tickHead c).pending c' = s.pending c' := by
  by_cases hc : c' = c
  · subst hc
    cases hq : s.queue c' with
    | nil => rw [s.tickHead_of_empty c' hq]
    | cons e rest => rw [State.pending, State.pending, s.tickHead_queue_same c' e rest hq, hq]; rfl
  · exact State.pending_congr (s.tickHead_queue_other c c' hc)

theorem Schedules.mem_queue {es : List Entry} {s : State} (h : Schedules es s) {e : Entry} (he : e ∈ es) :
    ∃ e' ∈ s.queue e.record.instr.queueClass, e'.fresh = e := by
  have hmem : e ∈ s.pending e.record.instr.queueClass := h _ ▸ List.mem_filter.2 ⟨he, decide_eq_true rfl⟩
  exact List.mem_map.1 hmem

theorem Schedules.eq_nil {es : List Entry} {s : State} (h : Schedules es s) (hempty : ∀ c, s.queue c = []) : es = [] := by
  refine List.eq_nil_iff_forall_not_mem.2 fun e he => ?_
  obtain ⟨e', he', -⟩ := h.mem_queue he
  rw [hempty] at he'
  cases he'

theorem schedules_nil {s : State} (hempty : ∀ c, s.queue c = []) : Schedules [] s := fun c => by
  rw [State.pending, hempty]
  rfl

/-- The head of a queue, before a schedule of the pipeline that has lost it. -/
theorem Schedules.cons {es : List Entry} {s t : State} {e : Entry} (h : Schedules es t)
    (hhead : s.pending e.record.instr.queueClass = e :: t.pending e.record.instr.queueClass)
    (hother : ∀ c, c ≠ e.record.instr.queueClass → t.pending c = s.pending c) : Schedules (e :: es) s := by
  intro c
  by_cases hc : e.record.instr.queueClass = c
  · subst hc
    rw [List.filter_cons_of_pos (by simp), h, hhead]
  · rw [List.filter_cons_of_neg (by simpa using hc), h, hother c (Ne.symm hc)]

/-- The last element that passes a filter, with the ones before and behind it. -/
theorem exists_append_of_filter_eq {α : Type} {p : α → Bool} {l xs : List α} {a : α} (h : l.filter p = xs ++ [a]) :
    ∃ as bs, l = as ++ a :: bs ∧ as.filter p = xs ∧ bs.filter p = [] := by
  obtain ⟨as, l', rfl, has, hl'⟩ := List.filter_eq_append_iff.1 h
  obtain ⟨bs, cs, rfl, hbs, -, hcs⟩ := List.filter_eq_cons_iff.1 hl'
  refine ⟨as ++ bs, cs, (List.append_assoc ..).symm, ?_, hcs⟩
  rw [List.filter_append, has, List.filter_eq_nil_iff.2 hbs, List.append_nil]

/-- In a schedule of a pipeline that has gained an entry, all that follow this entry are of other classes, and without it
the schedule is one of the pipeline before. -/
theorem Schedules.without_last {es : List Entry} {s t : State} {e : Entry} (h : Schedules es t)
    (hlast : t.pending e.record.instr.queueClass = s.pending e.record.instr.queueClass ++ [e])
    (hother : ∀ c, c ≠ e.record.instr.queueClass → t.pending c = s.pending c) :
    ∃ as bs, es = as ++ e :: bs ∧ Schedules (as ++ bs) s ∧
      ∀ f ∈ bs, f.record.instr.queueClass ≠ e.record.instr.queueClass := by
  obtain ⟨as, bs, rfl, has, hbs⟩ := exists_append_of_filter_eq ((h e.record.instr.queueClass).trans hlast)
  refine ⟨as, bs, rfl, fun c => ?_, fun f hf => by simpa using List.filter_eq_nil_iff.1 hbs f hf⟩
  by_cases hc : c = e.record.instr.queueClass
  · subst hc
    rw [List.filter_append, has, hbs, List.append_nil]
  · have hall := (h c).trans (hother c hc)
    rwa [List.filter_append, List.filter_cons_of_neg (by simpa using Ne.symm hc), ← List.filter_append] at hall

end Sys2Proof.Machine
end

section
/-! PROOFS. A run that halts normally ends as SEQ does (`70_reset_and_hazards.md` R322), by going back along the run: from
each of its states, completing what is in flight and then running SEQ ends as the run does. -/

namespace Sys2Proof.Machine

/-! ### States of SEQ -/

/-- The state of SEQ before the line at `p`, with the data of `s`: nothing latched and nothing in flight. -/
def State.seqAt (s : State) (p : Nat) : State := s.withControl { State.reset with pc := p }

/-- SEQ from `s` ends normally, with the data of `t`. -/
def SeqEnds (s t : State) : Prop :=
  ∃ m u, seqRun m s = .next u ∧ u.status = .haltedNormal ∧ u.seqAt 0 = t.seqAt 0

/-- The index of the next line to dispatch: the one in DL, else the one in FL, else the one at `pc` (R34, R35). -/
def State.nextIndex (s : State) : Nat :=
  match s.dl, s.fl with
  | some r, _ => r.p
  | none, some f => f.p
  | none, none => s.pc

/-- Completing the entries in flight in some order, and then running SEQ from the next line to dispatch, ends normally with
the data of `t`. -/
def EndsAs (t s : State) : Prop :=
  ∃ es d, Schedules es s ∧ CompletesAll es (s.seqAt 0) d ∧ SeqEnds (d.seqAt s.nextIndex) t

theorem State.seqAt_sameFixed (s : State) (p : Nat) : SameFixed s (s.seqAt p) := ⟨rfl, rfl, rfl, rfl⟩

theorem State.seqAt_queue (s : State) (p : Nat) (c : QueueClass) : (s.seqAt p).queue c = [] := by
  cases c <;> rfl

section

variable {s t u d d' : State} {r : Record}

/-- `State.seqAt` forgets the index it is given a second time. -/
theorem State.seqAt_congr {p q : Nat} (h : t.seqAt p = s.seqAt p) : t.seqAt q = s.seqAt q :=
  calc
    t.seqAt q = (t.seqAt p).seqAt q := rfl
    _ = (s.seqAt p).seqAt q := by rw [h]
    _ = s.seqAt q := rfl

/-- `State.seqAt` keeps the registers and the data memories. -/
theorem State.data_eq_of_seqAt {p : Nat} (h : t.seqAt p = s.seqAt p) :
    t.sreg = s.sreg ∧ t.vreg = s.vreg ∧ t.vmr = s.vmr ∧ t.vlr = s.vlr ∧ t.vdm = s.vdm ∧ t.sdm = s.sdm := by
  have hfield : ∀ {α : Type} (f : State → α), f (t.seqAt p) = f (s.seqAt p) := fun f => congrArg f h
  exact ⟨hfield State.sreg, hfield State.vreg, hfield State.vmr, hfield State.vlr, hfield State.vdm, hfield State.sdm⟩

theorem SeqEnds.step (h : seqStep s = .next u) (hend : SeqEnds u t) : SeqEnds s t := by
  obtain ⟨m, v, hrun, hv⟩ := hend
  exact ⟨m + 1, v, by rw [seqRun, h, andThen_next, hrun], hv⟩

/-- At the end of the program SEQ stops normally. -/
theorem seqEnds_of_end (hpc : s.progLen ≤ s.pc) : SeqEnds ((s.seqAt 0).seqAt s.pc) s := by
  refine .step (u := { s.seqAt s.pc with status := .haltedNormal }) ?_ ⟨0, _, rfl, rfl, rfl⟩
  have hend : ¬ (s.seqAt s.pc).pc < (s.seqAt s.pc).progLen := Nat.not_lt.2 hpc
  exact if_neg hend

theorem EndsAs.congr (h : EndsAs t u) (hpending : ∀ c, u.pending c = s.pending c) (hdata : u.seqAt 0 = s.seqAt 0)
    (hnext : u.nextIndex = s.nextIndex) : EndsAs t s := by
  obtain ⟨es, d, hes, hall, hseq⟩ := h
  exact ⟨es, d, fun c => (hes c).trans (hpending c), hdata ▸ hall, hnext ▸ hseq⟩

theorem State.nextIndex_congr (hpc : t.pc = s.pc) (hfl : t.fl = s.fl) (hdl : t.dl = s.dl) : t.nextIndex = s.nextIndex := by
  rw [State.nextIndex, State.nextIndex, hpc, hfl, hdl]

/-- What is latched behind the record in DL is the line that follows it (R35). -/
theorem LatchesOrdered.nextIndex_of_dl (h : LatchesOrdered s) (hdl : s.dl = some r) (hpc : t.pc = s.pc) (hfl : t.fl = s.fl)
    (ht : t.dl = none) : t.nextIndex = r.p + 1 := by
  obtain ⟨-, hindex⟩ := h.2 r hdl
  rw [State.nextIndex, ht, hfl, hpc, hindex]
  cases s.fl <;> rfl

theorem length_mem_snapSet {i : Instr} (h : capturesVL i = true ∨ capturesVLR i = true) : .length ∈ snapSet i := by
  cases i with
  | pop | mtcl | b => rcases h with h | h <;> cases h
  | _ => exact List.mem_cons_self

/-! ### The execute phase, backwards -/

theorem State.tickHead_seqAt (s : State) (c : QueueClass) (p : Nat) : (s.tickHead c).seqAt p = s.seqAt p := by
  simp [State.seqAt, State.withControl]

theorem State.retireHead_seqAt (s : State) (c : QueueClass) (r : Record) (p : Nat) :
    (s.retireHead c r).seqAt p = s.seqAt p := by
  simp [State.seqAt, State.withControl]

theorem KeptOrRaised.status_eq (h : KeptOrRaised s t) (hsafe : t.safe) : t.status = s.status := by
  rcases h with ⟨hstatus, -⟩ | ⟨hstatus, -⟩
  · exact hstatus
  · exact absurd hstatus hsafe

/-- A unit that retires its head has taken the first entry of a schedule. -/
theorem UnitResult.endsAs {c : QueueClass} (h : UnitResult c s u) (hclass : ClassesMatch s) (hentries : EntriesOk s)
    (hsafe : u.safe) (hend : EndsAs t u) : EndsAs t s := by
  have hnext : u.nextIndex = s.nextIndex := State.nextIndex_congr h.sameFront.pc h.sameFront.fl h.sameFront.dl
  have hresult := h
  cases h with
  | idle => exact hend
  | ticked => exact hend.congr (s.tickHead_pending c) (s.tickHead_seqAt c 0) hnext
  | raised => exact absurd rfl hsafe
  | retired e rest v hs hq hdue hv hrun =>
    obtain ⟨es, d, hes, hall, hseq⟩ := hend
    have hmem : e ∈ s.queue c := hq ▸ List.mem_cons_self
    obtain rfl : e.record.instr.queueClass = c := hclass c e hmem
    have hok : EntryOk s e.fresh := (entriesOk_iff s).1 hentries _ e hmem
    have hhead : Completes e.fresh (s.tickHead e.record.instr.queueClass) v :=
      (completes_of_head (e := { e with elapsed := e.elapsed + 1 }) hok (s.tickHead_queue_same _ e rest hq) hv hrun).fresh
    replace hhead : Completes e.fresh (s.seqAt 0) (v.seqAt 0) := s.tickHead_seqAt _ 0 ▸ hhead.withControl State.reset
    rw [State.retireHead_seqAt] at hall
    refine ⟨e.fresh :: es, d, hes.cons ?_ fun c hc => State.pending_congr ?_, ⟨v.seqAt 0, hhead, hall⟩, hnext ▸ hseq⟩
    · have hrest : (v.retireHead e.record.instr.queueClass e.record).queue e.record.instr.queueClass = rest := by
        rw [v.retireHead_queue_same, completeEntry_queue hv hrun, s.tickHead_queue_same _ e rest hq, List.tail_cons]
      exact (congrArg (List.map Entry.fresh) hq).trans (congrArg (e.fresh :: List.map Entry.fresh ·) hrest.symm)
    · exact hresult.queue_other hc

/-! ### Dispatch, backwards -/

/-- In SEQ, with nothing in flight, an instruction takes now the snapshots that dispatch has captured (log 7). -/
theorem shows_newEntry (hvmr : d.vmr = s.vmr) (hvlr : .length ∈ snapSet r.instr → d.vlr = s.vlr) (p : Nat) :
    Shows (s.newEntry r) d (d.seqAt p) where
  toSameOperands := sameOperands_withControl _ _ _
  vl n hn := by
    have hi : capturesVL r.instr = true := by_contra fun hi => by simp [State.newEntry, hi] at hn
    obtain rfl : activeLength s.vlr = n := by simpa [State.newEntry, hi] using hn
    rw [State.snapVL, State.seqAt_queue, ← hvlr (length_mem_snapSet (.inl hi))]
    rfl
  vlr v hv := by
    have hi : capturesVLR r.instr = true := by_contra fun hi => by simp [State.newEntry, hi] at hv
    obtain rfl : s.vlr = v := by simpa [State.newEntry, hi] using hv
    rw [State.snapVLR, State.seqAt_queue, ← hvlr (length_mem_snapSet (.inr hi))]
    rfl
  mask m hm := by
    have hi : capturesMask r.instr = true := by_contra fun hi => by simp [State.newEntry, hi] at hm
    obtain rfl : truthMask s.vmr = m := by simpa [State.newEntry, hi] using hm
    rw [State.snapMask, State.seqAt_queue, ← hvmr]
    rfl

/-- SEQ at the index of a record of the program runs its instruction (R322). -/
theorem seqStep_of_fromProgram (hprog : FromProgram s r) (hfixed : SameFixed s d) :
    seqStep (d.seqAt r.p) =
      andThen (exec r.instr (d.seqAt r.p)) fun t => if t.halted then .next t else .next (seqAdvance r.instr t) := by
  have hfixed' : SameFixed s (d.seqAt r.p) := hfixed.trans (d.seqAt_sameFixed r.p)
  obtain ⟨hlt, toks, hline, hdecode⟩ := hprog.congr hfixed'
  have hrun : (d.seqAt r.p).halted = false := rfl
  have hpc : (d.seqAt r.p).pc = r.p := rfl
  simp [seqStep, hrun, hpc, hlt, hline, hdecode]

theorem seqStep_of_completes (hprog : FromProgram s r) (hfixed : SameFixed s d) (hb : r.instr.mnemonic ≠ .b)
    (hshow : Shows (s.newEntry r) d (d.seqAt r.p)) (h : Completes (s.newEntry r) d d') :
    seqStep (d.seqAt r.p) = .next (d'.seqAt (r.p + 1)) := by
  obtain ⟨w, -, rfl, hall⟩ := h
  have hexec : exec r.instr (d.seqAt r.p) = .next ((w.apply d).seqAt r.p) :=
    (completeEntry_of_ne_branch (e := s.newEntry r) hb _).symm.trans
      ((hall _ hshow).trans (congrArg _ (w.apply_withControl d _)))
  have hrun : ((w.apply d).seqAt r.p).halted = false := rfl
  rw [seqStep_of_fromProgram hprog hfixed, hexec, andThen_next, hrun, seqAdvance, if_neg hb]
  rfl

/-- A branch has had its effect in the dispatch phase, and its completion does nothing (R224, R230). -/
theorem seqStep_of_branch {off : Int} (hprog : FromProgram s r) (hfixed : SameFixed s d) (hb : r.instr = .b off)
    (hok : legalTarget ((r.p : Int) + off) = true) (hshow : Shows (s.newEntry r) d (d.seqAt r.p))
    (h : Completes (s.newEntry r) d d') : seqStep (d.seqAt r.p) = .next (d'.seqAt ((r.p : Int) + off).toNat) := by
  obtain ⟨w, -, rfl, hall⟩ := h
  have hnone : completeEntry (s.newEntry r) (d.seqAt r.p) = .next (d.seqAt r.p) := if_pos (congrArg Instr.mnemonic hb)
  have hsame : (w.apply d).seqAt r.p = d.seqAt r.p :=
    (w.apply_withControl d _).symm.trans (next_unique (hall _ hshow) hnone)
  have htarget : (w.apply d).seqAt ((r.p : Int) + off).toNat = d.seqAt ((r.p : Int) + off).toNat :=
    State.seqAt_congr hsame
  have hexec : exec r.instr (d.seqAt r.p) = .next (d.seqAt ((r.p : Int) + off).toNat) := by
    rw [hb]
    exact if_pos hok
  rw [seqStep_of_fromProgram hprog hfixed, hexec, andThen_next, hb, htarget]
  rfl

theorem State.checkSet_free (h : s.stallReason r = none) : ∀ x ∈ checkSet r.instr, s.busy.get x = false := by
  rcases s.stallReason_cases r with ⟨h', -⟩ | ⟨h', -⟩ | ⟨-, hfree, -⟩
  · simp [h] at h'
  · simp [h] at h'
  · exact hfree

/-- What a scheduled entry holds, an accepted dispatch has not found in its check set (R126, R134). -/
theorem Schedules.not_mem_checkSet {es : List Entry} (h : Schedules es s) (hexact : ScoreboardExact s)
    (hst : s.stallReason r = none) {e : Entry} (he : e ∈ es) {x : RegName} (hx : x ∈ markSet e.record.instr) :
    x ∉ checkSet r.instr := by
  obtain ⟨e', he', rfl⟩ := h.mem_queue he
  intro hcheck
  have hbusy : s.busy.get x = true := hexact.busy_of_mem he' hx
  simp [State.checkSet_free hst x hcheck] at hbusy

/-- An accepted dispatch: the entry it appends may complete last, and then it is SEQ that runs its instruction. -/
theorem EndsAs.of_dispatch (hexact : ScoreboardExact s) (hdl : s.dl = some r) (hst : s.stallReason r = none)
    (hlast : u.pending r.instr.queueClass = s.pending r.instr.queueClass ++ [s.newEntry r])
    (hother : ∀ c, c ≠ r.instr.queueClass → u.pending c = s.pending c) (hdata : u.seqAt 0 = s.seqAt 0)
    (hstep : ∀ d d', SameFixed s d → Shows (s.newEntry r) d (d.seqAt r.p) → Completes (s.newEntry r) d d' →
      seqStep (d.seqAt r.p) = .next (d'.seqAt u.nextIndex))
    (hend : EndsAs t u) : EndsAs t s := by
  obtain ⟨es, d', hes, hall, hseq⟩ := hend
  obtain ⟨as, bs, rfl, hes, hclass⟩ := hes.without_last (e := s.newEntry r) hlast hother
  rw [hdata] at hall
  obtain ⟨d₁, has, d₂, hr, hbs⟩ := completesAll_append.1 hall
  have hheld : ∀ f ∈ as ++ bs, ∀ x ∈ markSet f.record.instr, x ∉ checkSet r.instr := fun f hf x hx =>
    hes.not_mem_checkSet hexact hst hf hx
  have hind : ∀ f ∈ bs, Independent r.instr f.record.instr := fun f hf =>
    ⟨fun x hx hxf => hheld f (List.mem_append_right _ hf) x hxf (List.mem_append_left _ hx),
      fun ⟨hr, hf'⟩ => hclass f hf (hf'.trans hr.symm)⟩
  obtain ⟨d, hbs, hr⟩ := hbs.postpone hind hr
  have hall : CompletesAll (as ++ bs) (s.seqAt 0) d := completesAll_append.2 ⟨d₁, has, hbs⟩
  have hfixed : SameFixed s d := (s.seqAt_sameFixed 0).trans hall.sameFixed
  have hvlr : .length ∈ snapSet r.instr → d.vlr = s.vlr := fun hsnap =>
    hall.vlr fun f hf hmark => hheld f hf _ hmark (List.mem_append_right _ hsnap)
  have hnext : s.nextIndex = r.p := by rw [State.nextIndex, hdl]
  exact ⟨as ++ bs, d, hes, hall, hnext ▸ hseq.step (hstep d d' hfixed (shows_newEntry hfixed.vmr hvlr _) hr)⟩

theorem State.issue_seqAt (s : State) (r : Record) (p : Nat) : (s.issue r).seqAt p = s.seqAt p := by
  rw [State.issue_frame]
  rfl

theorem State.issue_pending_same (s : State) (r : Record) :
    (s.issue r).pending r.instr.queueClass = s.pending r.instr.queueClass ++ [s.newEntry r] := by
  rw [State.pending, State.issue_queue_same, List.map_append]
  rfl

theorem DispatchResult.endsAs {f : Flow} (h : DispatchResult s f) (hexact : ScoreboardExact s) (hlatch : LatchesOrdered s)
    (hsafe : f.state.safe) (hend : EndsAs t f.state) : EndsAs t s := by
  cases h with
  | empty => exact hend
  | stalled => exact hend
  | issued r hdl hst hb =>
    have hnext := hlatch.nextIndex_of_dl hdl (s.issue_pc r) (s.issue_fl r) (s.issue_dl r)
    refine hend.of_dispatch hexact hdl hst (s.issue_pending_same r)
      (fun c hc => State.pending_congr (s.issue_queue_other r c hc)) (s.issue_seqAt r 0) fun d d' hfixed hshow hr => ?_
    rw [hnext]
    exact seqStep_of_completes (hlatch.2 r hdl).1 hfixed hb hshow hr
  | badTarget => exact absurd rfl hsafe
  | branched r off hdl hst hb hok =>
    have hqueue := s.redirect_queue ((r.p : Int) + off)
    have hnext : ((s.redirect ((r.p : Int) + off)).issue r).nextIndex = ((r.p : Int) + off).toNat := by
      rw [State.nextIndex, State.issue_dl, State.issue_fl, State.issue_pc]
      rfl
    refine EndsAs.of_dispatch (u := (s.redirect ((r.p : Int) + off)).issue r) hexact hdl hst ?_
      (fun c hc => State.pending_congr ?_) (State.issue_seqAt _ r 0) (fun d d' hfixed hshow hr => ?_) hend
    · rw [State.issue_pending_same, State.pending_congr (hqueue _)]
      rfl
    · rw [State.issue_queue_other _ r c hc, hqueue]
    · rw [hnext]
      exact seqStep_of_branch (hlatch.2 r hdl).1 hfixed hb hok hshow hr

/-! ### The front end and the end of the cycle, backwards -/

theorem decode_accepted_index {c : Config} {p : Nat} {toks : Line} (h : decode c p toks = .accepted r) : r.p = p := by
  unfold decode at h
  split at h
  · exact (congrArg Record.p (DecodeOutcome.accepted.inj h)).symm
  · cases h

theorem Decoded.nextIndex (h : Decoded s u) (hdl : s.dl = none) : u.nextIndex = s.nextIndex := by
  cases h with
  | nothing => rfl
  | accepted f r hfl hr =>
    rw [State.nextIndex, State.nextIndex, hdl, hfl]
    exact decode_accepted_index hr

/-- Decode and fetch move the next line to dispatch along, and change nothing in flight and no data. -/
theorem FrontEndResult.endsAs (h : FrontEndResult s u) (hdl : s.dl = none) (hsafe : u.safe) (hend : EndsAs t u) :
    EndsAs t s := by
  have hpending : ∀ c, u.pending c = s.pending c := fun c => State.pending_congr (h.queue c)
  cases h with
  | raised => exact absurd rfl hsafe
  | unfetched _ hu => exact hend.congr hpending (by rw [hu.frame]; rfl) (hu.nextIndex hdl)
  | fetched v toks hu =>
    have hnext : ({ v with fl := some { p := v.pc, toks := toks }, pc := v.pc + 1 } : State).nextIndex = v.nextIndex := by
      rw [State.nextIndex, State.nextIndex, hu.fl_eq_none]
      cases v.dl <;> rfl
    exact hend.congr hpending (by rw [hu.frame]; rfl) (hnext.trans (hu.nextIndex hdl))

theorem endCycle_endsAs {stalled : Option StallReason} (hend : EndsAs t (endCycle stalled s)) : EndsAs t s :=
  hend.congr (fun c => State.pending_congr (endCycle_queue stalled s c)) (by rw [endCycle_frame]; rfl)
    (State.nextIndex_congr (endCycle_pc _ _) (endCycle_fl _ _) (by rw [endCycle_frame]))

theorem endCycle_safe {stalled : Option StallReason} (h : (endCycle stalled s).safe) : s.safe := fun herror =>
  h (by rw [endCycle_of_halted stalled ((s.halted_iff).2 (.inr herror))]; exact herror)

/-! ### A step, backwards -/

/-- What the way back through a cycle needs of the state it comes to. -/
structure Ready (s : State) : Prop where
  pipeline : PipelineOk s
  classes : ClassesMatch s
  scoreboard : ScoreboardExact s

theorem UnitResult.ready {c : QueueClass} (h : UnitResult c s u) (hfixed : SameFixed s u) (hp : Ready s) : Ready u where
  pipeline := keptByPhases_pipelineOk.unit h hfixed hp.pipeline
  classes := keptByPhases_classesMatch.unit h hfixed hp.classes
  scoreboard := h.scoreboardExact hp.scoreboard

theorem step_ready (h : step s = .next u) (hp : Ready s) : Ready u where
  pipeline := keptByPhases_pipelineOk.step endCycle_pipelineOk h hp.pipeline
  classes := step_classesMatch h hp.classes
  scoreboard := step_scoreboardExact h hp.scoreboard

/-- The execute phase, backwards: it raised nothing and every unit's share may be taken back. -/
theorem executePhase_endsAs (hs : s.halted = false) (hready : Ready s) (h : executePhase s = .next u) (hsafe : u.safe)
    (hend : EndsAs t u) : EndsAs t s := by
  have hback : Ready u ∧ (u.safe → EndsAs t u → EndsAs t s) := by
    refine executePhase_keeps (P := fun v => Ready v ∧ (v.safe → EndsAs t v → EndsAs t s)) ?_ hs h ⟨hready, fun _ => id⟩
    rintro c v v' hresult hfixed ⟨hv, hgo⟩
    refine ⟨hresult.ready hfixed hv, fun hsafe hend => hgo ?_ ?_⟩
    · rw [State.safe, ← hresult.keptOrRaised.status_eq hsafe]
      exact hsafe
    · exact hresult.endsAs hv.classes hv.pipeline.entries hsafe hend
  exact hback.2 hsafe hend

/-- Decode and fetch run only with DL empty (R252). -/
theorem DispatchResult.dl_eq_none {f : Flow} (h : DispatchResult s f) (hrun : f.state.halted = false)
    (hst : f.stalled = none) : f.state.dl = none := by
  cases h with
  | empty hdl => exact hdl
  | stalled => cases hst
  | issued => rfl
  | badTarget => cases hrun
  | branched => rfl

theorem State.safe_of_running (hs : s.halted = false) : s.safe := ((s.halted_eq_false_iff).1 hs).2

theorem afterExecute_endsAs (hready : Ready s) (h : afterExecute s = .next u) (hsafe : u.safe) (hend : EndsAs t u) :
    s.safe ∧ EndsAs t s := by
  rcases afterExecute_cases s with ⟨-, hu⟩ | ⟨hrun, f, hf, hrest⟩
  · obtain rfl := next_unique h hu
    exact ⟨endCycle_safe hsafe, endCycle_endsAs hend⟩
  · have hresult := dispatchResult_of_phase hrun hf
    have hdispatch : f.state.safe → EndsAs t f.state → s.safe ∧ EndsAs t s := fun hsafe hend =>
      ⟨State.safe_of_running hrun, hresult.endsAs hready.scoreboard hready.pipeline.latches hsafe hend⟩
    rcases hrest with ⟨-, hu⟩ | ⟨hfrun, hst, -, hu⟩
    all_goals obtain rfl := next_unique h hu
    · exact hdispatch (endCycle_safe hsafe) (endCycle_endsAs hend)
    · exact hdispatch (State.safe_of_running hfrun)
        ((frontEndResult hfrun).endsAs (hresult.dl_eq_none hfrun hst) (endCycle_safe hsafe) (endCycle_endsAs hend))

theorem step_endsAs (hready : Ready s) (h : step s = .next u) (hsafe : u.safe) (hend : EndsAs t u) : EndsAs t s := by
  rcases step_eq_next h with ⟨-, rfl⟩ | ⟨hs, -, hrun⟩
  · exact hend
  · obtain ⟨v, hexec, hafter⟩ := andThen_eq_next hrun
    have hv : Ready v := executePhase_keeps UnitResult.ready hs hexec hready
    obtain ⟨hvsafe, hvend⟩ := afterExecute_endsAs hv hafter hsafe hend
    exact executePhase_endsAs hs hready hexec hvsafe hvend

/-! ### A run, backwards -/

theorem run_of_halted (h : s.halted = true) : ∀ n, run n s = .next s
  | 0 => rfl
  | n + 1 => by rw [run, step_halted s h, andThen_next, run_of_halted h n]

/-- A drained core has only the end of SEQ before it. -/
theorem endsAs_of_drained (h : s.drained = true) : EndsAs s s := by
  obtain ⟨hpc, hfl, hdl, hcompute, hdata, hscalar⟩ := (State.drained_iff s).1 h
  have hempty : ∀ c, s.queue c = [] := fun c => by cases c <;> assumption
  have hnext : s.nextIndex = s.pc := by rw [State.nextIndex, hdl, hfl]
  exact ⟨[], s.seqAt 0, schedules_nil hempty, rfl, hnext ▸ seqEnds_of_end hpc⟩

theorem run_endsAs (hnormal : t.status = .haltedNormal) : ∀ {n : Nat} {s : State}, Ready s → NormalHaltDrained s →
    run n s = .next t → EndsAs t s
  | 0, s, _, hdrained, h => by
    obtain rfl := Host.Outcome.next.inj h
    exact endsAs_of_drained (hdrained hnormal)
  | n + 1, s, hready, hdrained, h => by
    obtain ⟨u, hu, hrest⟩ := andThen_eq_next h
    have hsafe : u.safe := fun herror => by
      obtain rfl := next_unique hrest (run_of_halted ((u.halted_iff).2 (.inr herror)) n)
      simp [hnormal] at herror
    exact step_endsAs hready hu hsafe
      (run_endsAs hnormal (step_ready hu hready) (step_normalHaltDrained hu hdrained) hrest)

end

/-- Settles O54: back along the run to the launch state, where nothing is in flight and SEQ begins. -/
theorem normalRunsMatchSequentialSemantics : Obligations.NormalRunsMatchSequentialSemantics := by
  intro l s t n hboot hrun hnormal
  have hinv : Inv s := launchedCoresMeetTheInvariant l s hboot
  obtain ⟨-, -, rfl⟩ := (boot_eq_next_iff l s).1 hboot
  have hready : Ready (launchState l) :=
    ⟨⟨hinv.config, hinv.latches, hinv.entries, hinv.timers⟩, hinv.classes, hinv.scoreboard⟩
  obtain ⟨es, d, hes, hall, hseq⟩ := run_endsAs hnormal hready hinv.drained hrun
  obtain rfl := hes.eq_nil (launchState_queue l)
  obtain rfl : d = (launchState l).seqAt 0 := hall
  obtain ⟨m, u, hseqRun, hu, hdata⟩ := hseq
  exact ⟨m, u, hseqRun, hu, State.data_eq_of_seqAt hdata⟩

end Sys2Proof.Machine
end

section
/-! PROOFS. The round trip of encoder and decoder, and what every answer of the decoder satisfies (`30_encoding.md`
sections 1 to 3). -/

namespace Sys2Proof.Machine

/-! ### Well-formedness and the mnemonic -/

theorem isExtension_mnemonic (i : Instr) : i.mnemonic.isExtension = i.isExtension := by
  cases i <;> rfl

theorem wellFormed_iff {ext : Bool} {i : Instr} :
    i.wellFormed ext = true ↔ i.wf = true ∧ (i.mnemonic.isExtension = true → ext = true) := by
  cases ext <;> simp [Instr.wellFormed, Instr.enabled, isExtension_mnemonic]

/-! ### An operand token reads back what the encoder wrote (R84 to R86) -/

theorem parseRegister_encodeNat (p1 p2 : Char) (r : Fin 8) :
    parseRegister p1 p2 (p1 :: p2 :: encodeNat r.val) = some r :=
  parseRegister_eq_some.mpr ⟨encodeNat r.val, rfl, parseNat_eq_some.mp (parseNat_encodeNat r.val (by omega))⟩

@[simp] theorem parseVector_encodeVector (r : VReg) : parseVector (encodeVector r) = some r :=
  parseRegister_encodeNat 'V' 'R' r

@[simp] theorem parseScalar_encodeScalar (r : SReg) : parseScalar (encodeScalar r) = some r :=
  parseRegister_encodeNat 'S' 'R' r

/-- The offset's magnitude has at most ten digits, and its sign is written only when it is negative. -/
theorem parseOffset_encodeOffset {off : Int} (hrange : inRange32 off = true) :
    parseOffset (encodeOffset off) = some off := by
  have hsmall : off.natAbs < 10 ^ 10 := by
    have hbounds := (inRange32_iff off).mp hrange
    omega
  obtain ⟨hdec, hval⟩ := parseNat_eq_some.mp (parseNat_encodeNat off.natAbs hsmall)
  refine parseOffset_eq_some.mpr ⟨hrange, parseSigned_eq_some.mpr ⟨encodeNat off.natAbs, hdec, ?_⟩⟩
  rw [encodeOffset, hval]
  split
  · exact .inr ⟨rfl, by omega⟩
  · exact .inl ⟨.inl rfl, by omega⟩

/-! ### The encoder's line decodes, format by format (R82, R88) -/

theorem decodeVVV_encode (mk : VReg → VReg → VReg → Instr) (d s1 s2 : VReg) :
    decodeVVV mk [encodeVector d, encodeVector s1, encodeVector s2] = .ok (mk d s1 s2) := by
  simp [decodeVVV]

theorem decodeVVS_encode (mk : VReg → VReg → SReg → Instr) (d s : VReg) (t : SReg) :
    decodeVVS mk [encodeVector d, encodeVector s, encodeScalar t] = .ok (mk d s t) := by
  simp [decodeVVS]

theorem decodeS_encode (mk : SReg → Instr) (r : SReg) : decodeS mk [encodeScalar r] = .ok (mk r) := by
  simp [decodeS]

theorem decodeVS_encode (mk : VReg → SReg → Instr) (v : VReg) (b : SReg) :
    decodeVS mk [encodeVector v, encodeScalar b] = .ok (mk v b) := by
  simp [decodeVS]

theorem decodeVSS_encode (mk : VReg → SReg → SReg → Instr) (v : VReg) (b r : SReg) :
    decodeVSS mk [encodeVector v, encodeScalar b, encodeScalar r] = .ok (mk v b r) := by
  simp [decodeVSS]

theorem decodeOperands_encodeOperands {i : Instr} (hwf : i.wf = true) :
    decodeOperands i.mnemonic (encodeOperands i) = .ok i := by
  cases i with
  | addvv | subvv | mulvv | divvv | unpacklo | unpackhi | packlo | packhi => exact decodeVVV_encode ..
  | addvs | subvs | mulvs | divvs => exact decodeVVS_encode ..
  | pop | mtcl | mfcl => exact decodeS_encode ..
  | b off => exact decodeBR_of_some (parseOffset_encodeOffset hwf)
  | lv | sv => exact decodeVS_encode ..
  | lvws | svws => exact decodeVSS_encode ..

theorem encodeOperands_length (i : Instr) : (encodeOperands i).length + 1 = i.mnemonic.format.tokenCount := by
  cases i <;> rfl

/-- Settles O8: the encoder's line passes the decoder's checks, and each operand token reads back. -/
theorem decodeOfEncodeIsTheInstruction : Obligations.DecodeOfEncodeIsTheInstruction := by
  intro ext i h
  obtain ⟨hwf, henabled⟩ := wellFormed_iff.mp h
  rw [encode, decodeLine_of_enabled henabled (encodeOperands_length i), decodeOperands_encodeOperands hwf]

/-! ### What the decoder accepts -/

/-- The type puts every register number in range, so only the branch offset needs the decoder's check (R85, R86). -/
theorem wf_of_decodeLine_eq_ok {ext : Bool} {toks : Line} {i : Instr} (h : decodeLine ext toks = .ok i) :
    i.wf = true := by
  cases i with
  | b v =>
    obtain ⟨ops, rfl, -, hcount, -⟩ := decodeLine_eq_ok h
    obtain ⟨t, rfl⟩ := List.length_eq_one_iff.mp (Nat.succ.inj hcount)
    obtain ⟨hrange, -⟩ := parseOffset_eq_some.mp (decodeLine_branch_eq_ok.mp h)
    exact hrange
  | _ => rfl

theorem decode_eq_accepted {c : Config} {p : Nat} {toks : Line} {r : Record} :
    decode c p toks = .accepted r ↔ ∃ i, decodeLine c.vdataExt toks = .ok i ∧ makeRecord c p i = r := by
  cases h : decodeLine c.vdataExt toks <;> simp [decode, h]

/-- Settles O5: an accepted line has passed every check of the decoder, and its record is `makeRecord`'s. -/
theorem decodedLinesAreWellFormed : Obligations.DecodedLinesAreWellFormed := by
  refine ⟨fun ext toks i h => ?_, fun ext toks d => decodeLine_eq_error, fun c p toks r h => ?_⟩
  · obtain ⟨ops, rfl, henabled, hcount, -⟩ := decodeLine_eq_ok h
    exact ⟨wellFormed_iff.mpr ⟨wf_of_decodeLine_eq_ok h, henabled⟩, hcount⟩
  · obtain ⟨i, hline, rfl⟩ := decode_eq_accepted.mp h
    exact ⟨hline, rfl, rfl, rfl, rfl⟩

/-- Settles O2, by evaluation of the decoder on thirteen closed lines. -/
theorem specExampleLinesDecode : Obligations.SpecExampleLinesDecode := by
  unfold Obligations.SpecExampleLinesDecode
  decide

end Sys2Proof.Machine
end
